-- ==== Sys2Proof/Word.lean ====
section
/-! DEFINITION. The words of the machine and the sizes an operand, an address or a constant can have
(spec/00_scope.md R13, spec/20_memory.md R50, R61). -/

namespace Sys2Proof

/-- One byte: the unit of addressing and of instruction length (R50). -/
abbrev Byte := BitVec 8

/-- A 64-bit value: a whole general register, an offset in a segment (R24, R50). -/
abbrev Word := BitVec 64

/-- The sizes of operands, addresses and constants: 8, 16, 32 and 64 bits (R61, R136 to R142). -/
inductive Width where
  | w8 | w16 | w32 | w64
deriving DecidableEq, Repr

/-- How many bytes a size takes in memory or in the instruction stream. -/
def Width.bytes : Width → Nat
  | .w8 => 1 | .w16 => 2 | .w32 => 4 | .w64 => 8

/-- How many bits a size has. -/
abbrev Width.bits : Width → Nat
  | .w8 => 8 | .w16 => 16 | .w32 => 32 | .w64 => 64

end Sys2Proof
end

