-- ==== Sys2Proof/Config.lean ====
section
/-! DEFINITION. What the running system or the implementation fixes and no instruction changes:
the parameters of spec/00_scope.md R9, held as plain data (log 3). -/

namespace Sys2Proof

/-- The operating modes the spec names (R4, R5, R343). Only `bits64` changes the format. -/
inductive OpMode where
  | realAddress | protectedMode | virtual8086 | compatibility | bits64
deriving DecidableEq, Repr

/-- A default operand or address size outside 64-bit mode, what CS.D selects (R9, R35). -/
inductive DefSize where
  | d16 | d32
deriving DecidableEq, Repr

/-- The six segment registers, by the name their override byte gives them (R34). -/
inductive Seg where
  | cs | ss | ds | es | fs | gs
deriving DecidableEq, Repr

/-- `SegBase(seg)` of R56: where the offsets of each segment start. -/
structure SegBases where
  cs : Word
  ss : Word
  ds : Word
  es : Word
  fs : Word
  gs : Word
deriving DecidableEq, Repr

/-- The base of one segment (R56). -/
def SegBases.base (b : SegBases) : Seg → Word
  | .cs => b.cs | .ss => b.ss | .ds => b.ds | .es => b.es | .fs => b.fs | .gs => b.gs

/-- The configuration of a run (R9, R40): the operating mode, the default sizes, the segment bases,
which of CR8..CR15 and DR8..DR15 are implemented (entry k is register 8 + k, R323), and the locations of the
bytes of the program, which the run fetches from and no instruction writes (R71, D11, log 6). -/
structure Config where
  mode : OpMode
  defOpSize : DefSize
  defAddrSize : DefSize
  segBase : SegBases
  implCR : Vector Bool 8
  implDR : Vector Bool 8
  code : List Nat
deriving DecidableEq, Repr

/-- `mode64` of R5: true exactly in 64-bit mode. -/
def Config.mode64 (c : Config) : Bool := c.mode == .bits64

/-- The configuration at reset. The spec gives none (R360): PRESUMED, the family's real-address mode
with 16-bit defaults and the code segment based at FFFF0000H (log 1). Which control and debug registers
are implemented is the spec's default (R323). No program is placed (log 11). -/
def Config.reset : Config where
  mode := .realAddress
  defOpSize := .d16
  defAddrSize := .d16
  segBase := { cs := 0xFFFF0000, ss := 0, ds := 0, es := 0, fs := 0, gs := 0 }
  implCR := #v[true, false, false, false, false, false, false, false]
  implDR := #v[false, false, false, false, false, false, false, false]
  code := []

end Sys2Proof
end

