-- ==== Sys2Proof/Syntax.lean ====
section
/-! DEFINITION. The instructions: one constructor of `Instr` for each row of spec/opcode_table.json.
A prefix row is the instruction that carries the prefix: `csOverride i` is the byte 2EH followed by
the bytes of `i` (log 9), so that the order of prefixes and every ignored byte are kept. -/

namespace Sys2Proof

/-- The eleven legacy prefixes (R83 to R98). -/
inductive Legacy where
  | lock | repne | rep
  | seg (s : Seg)
  | opSize | addrSize
deriving DecidableEq, Repr

/-- The four low bits of a REX prefix, `0100WRXB` (R125). -/
structure Rex where
  w : Bool
  r : Bool
  x : Bool
  b : Bool
deriving DecidableEq, Repr

/-- One prefix byte of an instruction (R80 fields 1 and 2). -/
inductive Prefix where
  | legacy (l : Legacy)
  | rex (r : Rex)
deriving DecidableEq, Repr

/-- A constant carried in the instruction: an immediate, a moffset or a relative displacement of
16, 32 or 64 bits (R117, R118, R300, R306). -/
inductive Const where
  | c16 (v : BitVec 16)
  | c32 (v : BitVec 32)
  | c64 (v : BitVec 64)
deriving DecidableEq, Repr

/-- The size of a constant. -/
def Const.width : Const → Width
  | .c16 _ => .w16 | .c32 _ => .w32 | .c64 _ => .w64

/-- The displacement of a ModR/M operand: none, or 1, 2 or 4 bytes (R117). -/
inductive Disp where
  | none
  | d8 (v : BitVec 8)
  | d16 (v : BitVec 16)
  | d32 (v : BitVec 32)
deriving DecidableEq, Repr

/-- The SIB byte's fields (R116). -/
structure Sib where
  scale : BitVec 2
  index : BitVec 3
  base : BitVec 3
deriving DecidableEq, Repr

/-- The operand named by ModR/M's mod and r/m fields, with its SIB byte and displacement (R111, R200).
The reg field belongs to the instruction: a register number or an opcode extension (R113). -/
structure RmOperand where
  mod : BitVec 2
  rm : BitVec 3
  sib : Option Sib
  disp : Disp
deriving DecidableEq, Repr

/-- The instructions, in the order of spec/opcode_table.json. -/
inductive Instr where
  /-- LOCK, F0H (R84, R171). -/
  | lock (i : Instr)
  /-- REPNE/REPNZ, F2H (R85). -/
  | repne (i : Instr)
  /-- REP/REPE/REPZ, F3H (R86). -/
  | rep (i : Instr)
  /-- CS override, 2EH, or branch-not-taken hint on Jcc (R87, R94). -/
  | csOverride (i : Instr)
  /-- SS override, 36H (R88). -/
  | ssOverride (i : Instr)
  /-- DS override, 3EH, or branch-taken hint on Jcc (R89, R95). -/
  | dsOverride (i : Instr)
  /-- ES override, 26H (R90). -/
  | esOverride (i : Instr)
  /-- FS override, 64H (R91). -/
  | fsOverride (i : Instr)
  /-- GS override, 65H (R92). -/
  | gsOverride (i : Instr)
  /-- Operand-size override, 66H (R97). -/
  | opSizeOverride (i : Instr)
  /-- Address-size override, 67H (R98). -/
  | addrSizeOverride (i : Instr)
  /-- REX, 40H to 4FH, in 64-bit mode (R123). -/
  | rex (r : Rex) (i : Instr)
  /-- The escape 0FH with a second (after 38H and 3AH a third) opcode byte that no row lists (R107, R108, R152). -/
  | twoByteEscape (b2 : Byte) (b3 : Option Byte)
  /-- INC r16/32, 40H + n (R280). -/
  | incR (n : BitVec 3)
  /-- DEC r16/32, 48H + n (R281). -/
  | decR (n : BitVec 3)
  /-- INC r/m, FF /0 (R282). -/
  | incRm (o : RmOperand)
  /-- DEC r/m, FF /1 (R283). -/
  | decRm (o : RmOperand)
  /-- MOV AL, moffs8, A0H (R302). -/
  | movAlMoffs (a : Const)
  /-- MOV eAX, moffs, A1H (R303). -/
  | movEaxMoffs (a : Const)
  /-- MOV moffs8, AL, A2H (R304). -/
  | movMoffsAl (a : Const)
  /-- MOV moffs, eAX, A3H (R305). -/
  | movMoffsEax (a : Const)
  /-- MOV r, imm, B8H + n (R306). -/
  | movRImm (n : BitVec 3) (v : Const)
  /-- CVTDQ2PD xmm, xmm/m64, F3 0F E6; a REX in effect stands after the mandatory prefix (R190, R191). -/
  | cvtdq2pd (rx : Option Rex) (reg : BitVec 3) (o : RmOperand)
  /-- PHADDW xmm, xmm/m128, 66 0F 38 01 (R193). -/
  | phaddw (rx : Option Rex) (reg : BitVec 3) (o : RmOperand)
  /-- MOVS m8, A4H (R172). -/
  | movsB
  /-- MOVS m16/32/64, A5H (R172). -/
  | movsV
  /-- CMPS m8, A6H (R173). -/
  | cmpsB
  /-- CMPS m16/32/64, A7H (R173). -/
  | cmpsV
  /-- STOS m8, AAH (R178). -/
  | stosB
  /-- STOS m16/32/64, ABH (R178). -/
  | stosV
  /-- LODS m8, ACH (R175). -/
  | lodsB
  /-- LODS m16/32/64, ADH (R175). -/
  | lodsV
  /-- SCAS m8, AEH (R174). -/
  | scasB
  /-- SCAS m16/32/64, AFH (R174). -/
  | scasV
  /-- INS m8, 6CH (R176). -/
  | insB
  /-- INS m16/32, 6DH (R176). -/
  | insV
  /-- OUTS m8, 6EH (R177). -/
  | outsB
  /-- OUTS m16/32, 6FH (R177). -/
  | outsV
  /-- Jcc rel8, 70H + cc (R179). -/
  | jccRel8 (cc : BitVec 4) (rel : BitVec 8)
  /-- Jcc rel16/32, 0F 80H + cc (R179). -/
  | jccRel (cc : BitVec 4) (rel : Const)
  /-- MOV r, CRn, 0F 20 (R320); mod is kept but not looked at. -/
  | movRCr (mod : BitVec 2) (reg rm : BitVec 3)
  /-- MOV r, DRn, 0F 21 (R320). -/
  | movRDr (mod : BitVec 2) (reg rm : BitVec 3)
  /-- MOV CRn, r, 0F 22 (R320). -/
  | movCrR (mod : BitVec 2) (reg rm : BitVec 3)
  /-- MOV DRn, r, 0F 23 (R320). -/
  | movDrR (mod : BitVec 2) (reg rm : BitVec 3)
deriving DecidableEq, Repr

/-- The instruction that carries one more prefix in front. -/
def Prefix.onto : Prefix → Instr → Instr
  | .legacy .lock, i => .lock i
  | .legacy .repne, i => .repne i
  | .legacy .rep, i => .rep i
  | .legacy (.seg .cs), i => .csOverride i
  | .legacy (.seg .ss), i => .ssOverride i
  | .legacy (.seg .ds), i => .dsOverride i
  | .legacy (.seg .es), i => .esOverride i
  | .legacy (.seg .fs), i => .fsOverride i
  | .legacy (.seg .gs), i => .gsOverride i
  | .legacy .opSize, i => .opSizeOverride i
  | .legacy .addrSize, i => .addrSizeOverride i
  | .rex r, i => .rex r i

/-- `body` with the prefixes `ps` in front, first byte first. -/
def Instr.withPrefixes (ps : List Prefix) (body : Instr) : Instr := ps.foldr Prefix.onto body

end Sys2Proof
end

