-- ==== Sys2Proof/Machine/Layout.lean ====
section
/-! DEFINITION. The layout of an instruction: byte order of its constants, the fields of ModR/M, SIB and REX,
the prefixes in effect, the sizes they select, which operands have a SIB byte or a displacement, and the
length (spec/30_encoding.md). The decoder, the encoder, the well-formedness check and the machine share it. -/

namespace Sys2Proof

/-! ## Byte order (R57, R58, R119) -/

/-- The number whose bytes these are, least significant first. -/
def leNat : List Byte → Nat
  | [] => 0
  | b :: bs => b.toNat + 256 * leNat bs

/-- The `n` low bytes of a number, least significant first. -/
def leBytes : Nat → Nat → List Byte
  | 0, _ => []
  | n + 1, v => BitVec.ofNat 8 v :: leBytes n (v / 256)

/-- The bytes of a constant in the instruction stream (R57, R119). -/
def Const.bytes : Const → List Byte
  | .c16 v => leBytes 2 v.toNat
  | .c32 v => leBytes 4 v.toNat
  | .c64 v => leBytes 8 v.toNat

/-- The constant of a given size that these bytes hold; `none` for the byte size, which no constant has. -/
def Const.ofBytes (w : Width) (bs : List Byte) : Option Const :=
  match w with
  | .w8 => none
  | .w16 => some (.c16 (BitVec.ofNat 16 (leNat bs)))
  | .w32 => some (.c32 (BitVec.ofNat 32 (leNat bs)))
  | .w64 => some (.c64 (BitVec.ofNat 64 (leNat bs)))

/-- A constant zero-extended to 64 bits (a moffset is unsigned, R300, R301). -/
def Const.zext : Const → Word
  | .c16 v => v.setWidth 64
  | .c32 v => v.setWidth 64
  | .c64 v => v

/-- The bytes of a displacement. -/
def Disp.bytes : Disp → List Byte
  | .none => []
  | .d8 v => leBytes 1 v.toNat
  | .d16 v => leBytes 2 v.toNat
  | .d32 v => leBytes 4 v.toNat

/-- How many bytes a displacement takes. -/
def Disp.size : Disp → Nat
  | .none => 0 | .d8 _ => 1 | .d16 _ => 2 | .d32 _ => 4

/-- The displacement of a given size that these bytes hold. -/
def Disp.ofBytes (n : Nat) (bs : List Byte) : Disp :=
  if n = 1 then .d8 (BitVec.ofNat 8 (leNat bs))
  else if n = 2 then .d16 (BitVec.ofNat 16 (leNat bs))
  else if n = 4 then .d32 (BitVec.ofNat 32 (leNat bs))
  else .none

/-- The term a displacement adds to an address of `n` bits: sign-extended to the width of the address
(R204, R213, R251); nothing where there is no displacement. -/
def Disp.sext (n : Nat) : Disp → BitVec n
  | .none => 0
  | .d8 v => v.signExtend n
  | .d16 v => v.signExtend n
  | .d32 v => v.signExtend n

/-! ## Fields of bytes -/

/-- Bits 7:6 of ModR/M or SIB (R111, R116). -/
def hi2 (b : Byte) : BitVec 2 := b.extractLsb' 6 2

/-- Bits 5:3 of ModR/M or SIB (R111, R116). -/
def mid3 (b : Byte) : BitVec 3 := b.extractLsb' 3 3

/-- Bits 2:0 of ModR/M, SIB or an opcode byte (R111, R116, R129). -/
def lo3 (b : Byte) : BitVec 3 := b.extractLsb' 0 3

/-- Bits 3:0 of an opcode byte: the condition code of Jcc (R179). -/
def lo4 (b : Byte) : BitVec 4 := b.extractLsb' 0 4

/-- The byte with these three fields, as ModR/M and SIB have them (R111, R116, R209, R220). -/
def byte233 (h : BitVec 2) (m l : BitVec 3) : Byte := h ++ m ++ l

/-- A 4-bit register number: one REX bit in front of a 3-bit field (R241). -/
def regNum (ext : Bool) (f : BitVec 3) : BitVec 4 := BitVec.ofBool ext ++ f

/-- The byte of a REX prefix, `0100WRXB` (R125). -/
def Rex.byte (r : Rex) : Byte :=
  (0b0100#4) ++ BitVec.ofBool r.w ++ BitVec.ofBool r.r ++ BitVec.ofBool r.x ++ BitVec.ofBool r.b

/-- The fields of a REX byte (R125). -/
def Rex.ofByte (b : Byte) : Rex :=
  { w := b.getLsbD 3, r := b.getLsbD 2, x := b.getLsbD 1, b := b.getLsbD 0 }

/-- Without a REX prefix every REX bit counts as 0 (R240). -/
def Rex.zero : Rex := { w := false, r := false, x := false, b := false }

/-- The byte of a legacy prefix (R84 to R98). -/
def Legacy.byte : Legacy → Byte
  | .lock => 0xF0
  | .repne => 0xF2
  | .rep => 0xF3
  | .seg .cs => 0x2E
  | .seg .ss => 0x36
  | .seg .ds => 0x3E
  | .seg .es => 0x26
  | .seg .fs => 0x64
  | .seg .gs => 0x65
  | .opSize => 0x66
  | .addrSize => 0x67

/-- The group of a legacy prefix (R83). -/
def Legacy.group : Legacy → Nat
  | .lock | .repne | .rep => 1
  | .seg _ => 2
  | .opSize => 3
  | .addrSize => 4

/-- The byte of a prefix. -/
def Prefix.byte : Prefix → Byte
  | .legacy l => l.byte
  | .rex r => r.byte

/-- All legacy prefixes: no other byte is one (R83). -/
def Legacy.all : List Legacy :=
  [.lock, .repne, .rep, .seg .cs, .seg .ss, .seg .ds, .seg .es, .seg .fs, .seg .gs, .opSize, .addrSize]

/-- The prefix a byte is, if it is one: a legacy prefix, or in 64-bit mode one of the sixteen REX
bytes (R83, R123). -/
def Prefix.ofByte (m64 : Bool) (b : Byte) : Option Prefix :=
  match Legacy.all.find? (fun l => l.byte == b) with
  | some l => some (.legacy l)
  | none => if m64 && b.extractLsb' 4 4 == 0b0100#4 then some (.rex (Rex.ofByte b)) else none

/-! ## The prefixes in effect (R150 step 1) -/

/-- What the prefixes read so far come to: `P` of R150 (the legacy prefixes in order), the REX in
effect (a REX that a legacy prefix follows is ignored, R124), and how many REX bytes there were. -/
structure PrefixState where
  legacy : List Legacy
  rex : Option Rex
  rexCount : Nat
deriving DecidableEq, Repr

/-- No prefix read. -/
def PrefixState.empty : PrefixState := { legacy := [], rex := none, rexCount := 0 }

/-- One more prefix byte (R150 step 1). -/
def PrefixState.push (p : PrefixState) : Prefix → PrefixState
  | .legacy l => { legacy := p.legacy ++ [l], rex := none, rexCount := p.rexCount }
  | .rex r => { legacy := p.legacy, rex := some r, rexCount := p.rexCount + 1 }

/-- The prefixes of a list, first byte first. -/
def PrefixState.ofList (ps : List Prefix) : PrefixState := ps.foldl PrefixState.push .empty

/-- How many bytes the prefixes take. -/
def PrefixState.bytes (p : PrefixState) : Nat := p.legacy.length + p.rexCount

/-- The REX bits that count (R240). -/
def PrefixState.rexBits (p : PrefixState) : Rex := p.rex.getD Rex.zero

/-- Whether 66H is among the prefixes that are not mandatory (R97). -/
def PrefixState.has66 (p : PrefixState) : Bool := p.legacy.contains .opSize

/-- Whether 67H is among the prefixes (R98). -/
def PrefixState.has67 (p : PrefixState) : Bool := p.legacy.contains .addrSize

/-- The segment a group-2 prefix names, if there is one (R54). -/
def PrefixState.segment (p : PrefixState) : Option Seg :=
  p.legacy.findSome? fun l => match l with | .seg s => some s | _ => none

/-- The byte a two- or three-byte opcode takes as its mandatory prefix: the last legacy prefix, if it is
66H, F2H or F3H (R105). -/
def PrefixState.mandatory (p : PrefixState) : Option Legacy :=
  match p.legacy.getLast? with
  | some .opSize => some .opSize
  | some .repne => some .repne
  | some .rep => some .rep
  | _ => none

/-- Two prefixes of one group (R102). -/
def repeatsGroup : List Legacy → Bool
  | [] => false
  | l :: ls => ls.any (fun k => k.group == l.group) || repeatsGroup ls

/-! ## Sizes (R136 to R142) -/

/-- A default size as a width. -/
def DefSize.width : DefSize → Width
  | .d16 => .w16 | .d32 => .w32

/-- The other one of 16 and 32 (R97, R98). -/
def DefSize.other : DefSize → DefSize
  | .d16 => .d32 | .d32 => .d16

/-- The operand-size attribute of a non-byte operation that is no branch (R136, R137). -/
def operandSize (c : Config) (p : PrefixState) : Width :=
  if c.mode64 then
    if p.rexBits.w then .w64 else if p.has66 then .w16 else .w32
  else
    (if p.has66 then c.defOpSize.other else c.defOpSize).width

/-- The operand size of a near branch: 64 in 64-bit mode (R139). -/
def branchSize (c : Config) (p : PrefixState) : Width :=
  if c.mode64 then .w64 else operandSize c p

/-- The size of the relative displacement of the two-byte Jcc: 2 bytes with operand size 16, else 4 (R179). -/
def relSize (c : Config) (p : PrefixState) : Width :=
  if branchSize c p = .w16 then .w16 else .w32

/-- The address size (R140, R141). -/
def addressSize (c : Config) (p : PrefixState) : Width :=
  if c.mode64 then
    if p.has67 then .w32 else .w64
  else
    (if p.has67 then c.defAddrSize.other else c.defAddrSize).width

/-- The size of the address space, and of the instruction-pointer range: 2^64 in 64-bit mode, 2^32
otherwise (R32, R56). -/
def Config.top (c : Config) : Nat := if c.mode64 then 2 ^ 64 else 2 ^ 32

/-! ## ModR/M, SIB and displacement (R115, R117) -/

/-- Whether a SIB byte follows: address size 32 or 64, mod not 11B, r/m = 100B (R115, R225, R226, R247). -/
def hasSib (a : Width) (mod : BitVec 2) (rm : BitVec 3) : Bool :=
  a != .w16 && mod != 3 && rm == 4

/-- How many displacement bytes an operand has, given the SIB base if there is a SIB byte (R150 step 5,
R202, R203, R205, R210 to R212, R222). -/
def dispSize (a : Width) (mod : BitVec 2) (rm : BitVec 3) (sib : Option Sib) : Nat :=
  if mod == 3 then 0
  else if mod == 1 then 1
  else if a == .w16 then
    if mod == 2 || rm == 6 then 2 else 0
  else if mod == 2 then 4
  else match sib with
    | some s => if s.base == 5 then 4 else 0
    | none => if rm == 5 then 4 else 0

/-- Whether an operand has exactly the SIB byte and the displacement its fields call for. -/
def RmOperand.shapeOk (a : Width) (o : RmOperand) : Bool :=
  o.sib.isSome == hasSib a o.mod o.rm && o.disp.size == dispSize a o.mod o.rm o.sib

/-- Whether the operand is in memory (R112). -/
def RmOperand.inMemory (o : RmOperand) : Bool := o.mod != 3

/-- The bytes of ModR/M, SIB and displacement (R80 fields 4 to 6). -/
def RmOperand.bytes (reg : BitVec 3) (o : RmOperand) : List Byte :=
  byte233 o.mod reg o.rm ::
    ((match o.sib with | some s => [byte233 s.scale s.index s.base] | none => []) ++ o.disp.bytes)

/-- How many bytes ModR/M, SIB and displacement take. -/
def RmOperand.length (o : RmOperand) : Nat :=
  1 + (if o.sib.isSome then 1 else 0) + o.disp.size

/-! ## Prefixes and opcode of an instruction -/

/-- The prefix bytes of an instruction, first byte first (a mandatory prefix is part of the opcode, R104). -/
def Instr.prefixes : Instr → List Prefix
  | .lock i => .legacy .lock :: i.prefixes
  | .repne i => .legacy .repne :: i.prefixes
  | .rep i => .legacy .rep :: i.prefixes
  | .csOverride i => .legacy (.seg .cs) :: i.prefixes
  | .ssOverride i => .legacy (.seg .ss) :: i.prefixes
  | .dsOverride i => .legacy (.seg .ds) :: i.prefixes
  | .esOverride i => .legacy (.seg .es) :: i.prefixes
  | .fsOverride i => .legacy (.seg .fs) :: i.prefixes
  | .gsOverride i => .legacy (.seg .gs) :: i.prefixes
  | .opSizeOverride i => .legacy .opSize :: i.prefixes
  | .addrSizeOverride i => .legacy .addrSize :: i.prefixes
  | .rex r i => .rex r :: i.prefixes
  | .twoByteEscape _ _ | .incR _ | .decR _ | .incRm _ | .decRm _ | .movAlMoffs _ | .movEaxMoffs _
  | .movMoffsAl _ | .movMoffsEax _ | .movRImm _ _ | .cvtdq2pd _ _ _ | .phaddw _ _ _
  | .movsB | .movsV | .cmpsB | .cmpsV | .stosB | .stosV | .lodsB | .lodsV | .scasB | .scasV
  | .insB | .insV | .outsB | .outsV | .jccRel8 _ _ | .jccRel _ _
  | .movRCr _ _ _ | .movRDr _ _ _ | .movCrR _ _ _ | .movDrR _ _ _ => []

/-- An instruction without its prefixes: the row its opcode is in (R150 step 3). -/
def Instr.body : Instr → Instr
  | .lock i | .repne i | .rep i | .csOverride i | .ssOverride i | .dsOverride i | .esOverride i
  | .fsOverride i | .gsOverride i | .opSizeOverride i | .addrSizeOverride i | .rex _ i => i.body
  | .twoByteEscape b2 b3 => .twoByteEscape b2 b3
  | .incR n => .incR n
  | .decR n => .decR n
  | .incRm o => .incRm o
  | .decRm o => .decRm o
  | .movAlMoffs a => .movAlMoffs a
  | .movEaxMoffs a => .movEaxMoffs a
  | .movMoffsAl a => .movMoffsAl a
  | .movMoffsEax a => .movMoffsEax a
  | .movRImm n v => .movRImm n v
  | .cvtdq2pd rx reg o => .cvtdq2pd rx reg o
  | .phaddw rx reg o => .phaddw rx reg o
  | .movsB => .movsB
  | .movsV => .movsV
  | .cmpsB => .cmpsB
  | .cmpsV => .cmpsV
  | .stosB => .stosB
  | .stosV => .stosV
  | .lodsB => .lodsB
  | .lodsV => .lodsV
  | .scasB => .scasB
  | .scasV => .scasV
  | .insB => .insB
  | .insV => .insV
  | .outsB => .outsB
  | .outsV => .outsV
  | .jccRel8 cc rel => .jccRel8 cc rel
  | .jccRel cc rel => .jccRel cc rel
  | .movRCr mod reg rm => .movRCr mod reg rm
  | .movRDr mod reg rm => .movRDr mod reg rm
  | .movCrR mod reg rm => .movCrR mod reg rm
  | .movDrR mod reg rm => .movDrR mod reg rm

/-- The prefixes in effect on an instruction (R150 step 1). -/
def Instr.prefixState (i : Instr) : PrefixState := PrefixState.ofList i.prefixes

/-! ## The sizes of an instruction (R150 step 4) -/

/-- Whether the operands of an instruction's row are bytes by its opcode (R138): A0H, A2H and the m8 rows of the string
and I/O instructions. -/
def Instr.byteOnly : Instr → Bool
  | .lock i | .repne i | .rep i | .csOverride i | .ssOverride i | .dsOverride i | .esOverride i
  | .fsOverride i | .gsOverride i | .opSizeOverride i | .addrSizeOverride i | .rex _ i => i.byteOnly
  | .movAlMoffs _ | .movMoffsAl _ | .movsB | .cmpsB | .stosB | .lodsB | .scasB | .insB | .outsB => true
  | .twoByteEscape _ _ | .incR _ | .decR _ | .incRm _ | .decRm _ | .movEaxMoffs _ | .movMoffsEax _ | .movRImm _ _
  | .cvtdq2pd _ _ _ | .phaddw _ _ _ | .movsV | .cmpsV | .stosV | .lodsV | .scasV | .insV | .outsV
  | .jccRel8 _ _ | .jccRel _ _ | .movRCr _ _ _ | .movRDr _ _ _ | .movCrR _ _ _ | .movDrR _ _ _ => false

/-- Whether an instruction's row is a near branch (R139, R181). -/
def Instr.nearBranch : Instr → Bool
  | .lock i | .repne i | .rep i | .csOverride i | .ssOverride i | .dsOverride i | .esOverride i
  | .fsOverride i | .gsOverride i | .opSizeOverride i | .addrSizeOverride i | .rex _ i => i.nearBranch
  | .jccRel8 _ _ | .jccRel _ _ => true
  | .twoByteEscape _ _ | .incR _ | .decR _ | .incRm _ | .decRm _ | .movAlMoffs _ | .movEaxMoffs _
  | .movMoffsAl _ | .movMoffsEax _ | .movRImm _ _ | .cvtdq2pd _ _ _ | .phaddw _ _ _
  | .movsB | .movsV | .cmpsB | .cmpsV | .stosB | .stosV | .lodsB | .lodsV | .scasB | .scasV
  | .insB | .insV | .outsB | .outsV
  | .movRCr _ _ _ | .movRDr _ _ _ | .movCrR _ _ _ | .movDrR _ _ _ => false

/-- The mandatory prefix of an instruction's row, and the REX between it and the escape byte; none for a row that takes
none (R104, R191). -/
def Instr.mandatory : Instr → Option (Legacy × Option Rex)
  | .lock i | .repne i | .rep i | .csOverride i | .ssOverride i | .dsOverride i | .esOverride i
  | .fsOverride i | .gsOverride i | .opSizeOverride i | .addrSizeOverride i | .rex _ i => i.mandatory
  | .cvtdq2pd rx _ _ => some (.rep, rx)
  | .phaddw rx _ _ => some (.opSize, rx)
  | .twoByteEscape _ _ | .incR _ | .decR _ | .incRm _ | .decRm _ | .movAlMoffs _ | .movEaxMoffs _
  | .movMoffsAl _ | .movMoffsEax _ | .movRImm _ _
  | .movsB | .movsV | .cmpsB | .cmpsV | .stosB | .stosV | .lodsB | .lodsV | .scasB | .scasV
  | .insB | .insV | .outsB | .outsV | .jccRel8 _ _ | .jccRel _ _
  | .movRCr _ _ _ | .movRDr _ _ _ | .movCrR _ _ _ | .movDrR _ _ _ => none

/-- The REX in effect on an instruction: behind a mandatory prefix only one that follows it (R124, R191). -/
def Instr.rexInEffect (i : Instr) : Option Rex :=
  match i.mandatory with
  | some m => m.2
  | none => i.prefixState.rex

/-- `opsize` of R150 step 4: 8 for a byte-only row whatever the prefixes, the size of a near branch, else by 66H and
REX.W, where a mandatory 66H does not count (R104). Of a row that the machine refuses to execute it is the decoder's
attribute, not what the instruction does with it. -/
def Instr.opSize (c : Config) (i : Instr) : Width :=
  if i.byteOnly then .w8
  else if i.nearBranch then branchSize c i.prefixState
  else operandSize c { i.prefixState with rex := i.rexInEffect }

/-- `adsize` of R150 step 4. -/
def Instr.adSize (c : Config) (i : Instr) : Width := addressSize c i.prefixState

/-! ## Length (R151) -/

/-- The length of an instruction in bytes, prefixes included (R82, R151). -/
def Instr.length : Instr → Nat
  | .lock i | .repne i | .rep i | .csOverride i | .ssOverride i | .dsOverride i | .esOverride i
  | .fsOverride i | .gsOverride i | .opSizeOverride i | .addrSizeOverride i | .rex _ i => 1 + i.length
  | .twoByteEscape _ b3 => if b3.isSome then 3 else 2
  | .incR _ | .decR _ => 1
  | .incRm o | .decRm o => 1 + o.length
  | .movAlMoffs a | .movEaxMoffs a | .movMoffsAl a | .movMoffsEax a => 1 + a.width.bytes
  | .movRImm _ v => 1 + v.width.bytes
  | .cvtdq2pd rx _ o => 3 + (if rx.isSome then 1 else 0) + o.length
  | .phaddw rx _ o => 4 + (if rx.isSome then 1 else 0) + o.length
  | .movsB | .movsV | .cmpsB | .cmpsV | .stosB | .stosV | .lodsB | .lodsV | .scasB | .scasV
  | .insB | .insV | .outsB | .outsV => 1
  | .jccRel8 _ _ => 2
  | .jccRel _ rel => 2 + rel.width.bytes
  | .movRCr _ _ _ | .movRDr _ _ _ | .movCrR _ _ _ | .movDrR _ _ _ => 3

end Sys2Proof
end

