-- ==== Sys2Proof/WellFormed.lean ====
section
/-! DEFINITION. Which terms of `Instr` some byte string decodes to, under a configuration: the checks of
spec/30_encoding.md R150 steps 1 to 6 (every prefix group once, one REX, the shape of the operands, the sizes
of the constants, at most 15 bytes). What R153 refuses (a decoded instruction with a reserved prefix) is
well formed: its meaning refuses it. -/

namespace Sys2Proof

/-- Whether a two- or three-byte opcode has a row of spec/opcode_table.json, given the byte taken as its
mandatory prefix (R147, R148, R152). -/
def escapeHasRow (mp : Option Legacy) (b2 : Byte) (b3 : Option Byte) : Bool :=
  match b3 with
  | none => (b2 == 0xE6 && mp == some .rep) || b2.extractLsb' 4 4 == 8#4 || b2.extractLsb' 2 6 == 8#6
  | some b => b2 == 0x38 && b == 0x01 && mp == some .opSize

/-- The legacy prefixes and the REX of a SIMD row: its mandatory prefix counts in its group (R102, R192),
and its own REX is the only one (R135). -/
def simdPrefixesOk (c : Config) (p : PrefixState) (mp : Legacy) (rx : Option Rex) : Bool :=
  !repeatsGroup (p.legacy ++ [mp]) &&
    (if rx.isSome then c.mode64 && p.rexCount == 0 else p.rexCount ≤ 1)

/-- The checks on an instruction that follows the prefixes `p`. -/
def shapeOk (c : Config) (p : PrefixState) : Instr → Bool
  | .lock i => shapeOk c (p.push (.legacy .lock)) i
  | .repne i => shapeOk c (p.push (.legacy .repne)) i
  | .rep i => shapeOk c (p.push (.legacy .rep)) i
  | .csOverride i => shapeOk c (p.push (.legacy (.seg .cs))) i
  | .ssOverride i => shapeOk c (p.push (.legacy (.seg .ss))) i
  | .dsOverride i => shapeOk c (p.push (.legacy (.seg .ds))) i
  | .esOverride i => shapeOk c (p.push (.legacy (.seg .es))) i
  | .fsOverride i => shapeOk c (p.push (.legacy (.seg .fs))) i
  | .gsOverride i => shapeOk c (p.push (.legacy (.seg .gs))) i
  | .opSizeOverride i => shapeOk c (p.push (.legacy .opSize)) i
  | .addrSizeOverride i => shapeOk c (p.push (.legacy .addrSize)) i
  | .rex r i => c.mode64 && shapeOk c (p.push (.rex r)) i
  | .cvtdq2pd rx _ o => simdPrefixesOk c p .rep rx && o.shapeOk (addressSize c p)
  | .phaddw rx _ o => simdPrefixesOk c p .opSize rx && o.shapeOk (addressSize c p)
  | .twoByteEscape b2 b3 => plain p && b3.isSome == (b2 == 0x38 || b2 == 0x3A) && !escapeHasRow p.mandatory b2 b3
  | .incR _ | .decR _ => plain p && !c.mode64
  | .incRm o | .decRm o => plain p && o.shapeOk (addressSize c p)
  | .movAlMoffs a | .movEaxMoffs a | .movMoffsAl a | .movMoffsEax a => plain p && a.width == addressSize c p
  | .movRImm _ v => plain p && v.width == operandSize c p
  | .movsB | .movsV | .cmpsB | .cmpsV | .stosB | .stosV | .lodsB | .lodsV | .scasB | .scasV
  | .insB | .insV | .outsB | .outsV => plain p
  | .jccRel8 _ _ => plain p && !(c.mode64 && p.has66)
  | .jccRel _ rel => plain p && !(c.mode64 && p.has66) && rel.width == relSize c p
  | .movRCr _ _ _ | .movRDr _ _ _ | .movCrR _ _ _ | .movDrR _ _ _ => plain p
where
  /-- No group twice (R102) and at most one REX (R135). -/
  plain (p : PrefixState) : Bool := !repeatsGroup p.legacy && p.rexCount ≤ 1

/-- Whether some byte string decodes to this instruction under this configuration. -/
def wellFormed (c : Config) (i : Instr) : Bool := shapeOk c .empty i && i.length ≤ 15

end Sys2Proof
end

