-- ==== Sys2Proof/Decode.lean ====
section
/-! DEFINITION. The decoder, total on any bytes, rejecting by name (spec/30_encoding.md R150 steps 1 to 6,
R152), and the encoder, written from the same tables. The prefix-legality check of R150 step 7 (R153) is part
of what an instruction does: Machine/Ops.lean. -/

namespace Sys2Proof

/-- Why bytes decode to no instruction. -/
inductive DecodeError where
  /-- The bytes end before the instruction does (no statement about the hardware; the machine answers
  why it has no more bytes). -/
  | truncated
  /-- A sixteenth byte would be needed (R82). -/
  | tooLong
  /-- More than one REX byte (R135). -/
  | multipleRex
  /-- Two legacy prefixes of one group (R102). -/
  | repeatedPrefixGroup
  /-- No row of the table: the source gives no encoding (R152). -/
  | notShown (op : List Byte) (mp : Option Byte)
  /-- 66H on a Jcc in 64-bit mode (R179). -/
  | notInSource
deriving DecidableEq, Repr

/-! ## The opcode table (R146 to R149, R152) -/

/-- The rows of spec/opcode_table.json that are instructions by themselves. -/
inductive RowKind where
  | incR | decR | incRm | decRm
  | movAlMoffs | movEaxMoffs | movMoffsAl | movMoffsEax | movRImm
  | cvtdq2pd | phaddw
  | movsB | movsV | cmpsB | cmpsV | stosB | stosV | lodsB | lodsV | scasB | scasV
  | insB | insV | outsB | outsV
  | jccRel8 | jccRel
  | movRCr | movRDr | movCrR | movDrR
deriving DecidableEq, Repr

/-- One row: `pattern` and `mask` are over the opcode bytes, first byte most significant (R152). -/
structure OpRow where
  kind : RowKind
  nbytes : Nat
  pattern : BitVec 24
  mask : BitVec 24
  mandatory : Option Legacy := none
  digit : Option (BitVec 3) := none
  not64 : Bool := false
deriving DecidableEq, Repr

/-- The rows, in the table's order. -/
def opRows : List OpRow := [
  { kind := .incR, nbytes := 1, pattern := 0x40, mask := 0xF8, not64 := true },
  { kind := .decR, nbytes := 1, pattern := 0x48, mask := 0xF8, not64 := true },
  { kind := .incRm, nbytes := 1, pattern := 0xFF, mask := 0xFF, digit := some 0 },
  { kind := .decRm, nbytes := 1, pattern := 0xFF, mask := 0xFF, digit := some 1 },
  { kind := .movAlMoffs, nbytes := 1, pattern := 0xA0, mask := 0xFF },
  { kind := .movEaxMoffs, nbytes := 1, pattern := 0xA1, mask := 0xFF },
  { kind := .movMoffsAl, nbytes := 1, pattern := 0xA2, mask := 0xFF },
  { kind := .movMoffsEax, nbytes := 1, pattern := 0xA3, mask := 0xFF },
  { kind := .movRImm, nbytes := 1, pattern := 0xB8, mask := 0xF8 },
  { kind := .cvtdq2pd, nbytes := 2, pattern := 0x0FE6, mask := 0xFFFF, mandatory := some .rep },
  { kind := .phaddw, nbytes := 3, pattern := 0x0F3801, mask := 0xFFFFFF, mandatory := some .opSize },
  { kind := .movsB, nbytes := 1, pattern := 0xA4, mask := 0xFF },
  { kind := .movsV, nbytes := 1, pattern := 0xA5, mask := 0xFF },
  { kind := .cmpsB, nbytes := 1, pattern := 0xA6, mask := 0xFF },
  { kind := .cmpsV, nbytes := 1, pattern := 0xA7, mask := 0xFF },
  { kind := .stosB, nbytes := 1, pattern := 0xAA, mask := 0xFF },
  { kind := .stosV, nbytes := 1, pattern := 0xAB, mask := 0xFF },
  { kind := .lodsB, nbytes := 1, pattern := 0xAC, mask := 0xFF },
  { kind := .lodsV, nbytes := 1, pattern := 0xAD, mask := 0xFF },
  { kind := .scasB, nbytes := 1, pattern := 0xAE, mask := 0xFF },
  { kind := .scasV, nbytes := 1, pattern := 0xAF, mask := 0xFF },
  { kind := .insB, nbytes := 1, pattern := 0x6C, mask := 0xFF },
  { kind := .insV, nbytes := 1, pattern := 0x6D, mask := 0xFF },
  { kind := .outsB, nbytes := 1, pattern := 0x6E, mask := 0xFF },
  { kind := .outsV, nbytes := 1, pattern := 0x6F, mask := 0xFF },
  { kind := .jccRel8, nbytes := 1, pattern := 0x70, mask := 0xF0 },
  { kind := .jccRel, nbytes := 2, pattern := 0x0F80, mask := 0xFFF0 },
  { kind := .movRCr, nbytes := 2, pattern := 0x0F20, mask := 0xFFFF },
  { kind := .movRDr, nbytes := 2, pattern := 0x0F21, mask := 0xFFFF },
  { kind := .movCrR, nbytes := 2, pattern := 0x0F22, mask := 0xFFFF },
  { kind := .movDrR, nbytes := 2, pattern := 0x0F23, mask := 0xFFFF }]

/-- The opcode bytes as one number, first byte most significant (R152). -/
def opNumber (op : List Byte) : BitVec 24 :=
  op.foldl (fun acc b => (acc <<< 8) ||| b.setWidth 24) 0

/-- Whether a row matches, but for its ModR/M digit: mode, opcode bytes, and the mandatory prefix, which
a one-byte opcode does not consult (R152). -/
def OpRow.matchesOpcode (r : OpRow) (m64 : Bool) (mp : Option Legacy) (op : List Byte) : Bool :=
  r.nbytes == op.length && opNumber op &&& r.mask == r.pattern &&
    (op.length == 1 || r.mandatory == mp) && !(r.not64 && m64)

/-- Whether a row matches, its ModR/M digit too (R152). -/
def OpRow.matchesAll (r : OpRow) (m64 : Bool) (mp : Option Legacy) (op : List Byte) (reg : BitVec 3) : Bool :=
  r.matchesOpcode m64 mp op && (match r.digit with | some d => d == reg | none => true)

/-- The row of an opcode (R152); `reg` is the reg field of the byte after the opcode. -/
def lookupRow (m64 : Bool) (mp : Option Legacy) (op : List Byte) (reg : BitVec 3) : Option RowKind :=
  (opRows.find? fun r => r.matchesAll m64 mp op reg).map OpRow.kind

/-- Whether the opcode has rows that the ModR/M digit tells apart (R150 step 3). -/
def needsDigit (m64 : Bool) (op : List Byte) : Bool :=
  opRows.any fun r => r.matchesOpcode m64 none op && r.digit.isSome

/-! ## Reading fields from the byte stream -/

/-- The next byte. -/
def takeByte : List Byte → Except DecodeError (Byte × List Byte)
  | [] => .error .truncated
  | b :: bs => .ok (b, bs)

/-- The next `n` bytes. -/
def takeBytes (n : Nat) (bs : List Byte) : Except DecodeError (List Byte × List Byte) :=
  if bs.length < n then .error .truncated else .ok (bs.take n, bs.drop n)

/-- A constant of a given size (R118, R300). -/
def takeConst (w : Width) (bs : List Byte) : Except DecodeError Const := do
  let (cs, _) ← takeBytes w.bytes bs
  match Const.ofBytes w cs with
  | some k => .ok k
  | none => .error .truncated

/-- The prefixes, in order (R150 step 1): legacy prefixes, and in 64-bit mode at most one REX. -/
def takePrefixes (m64 seenRex : Bool) : List Byte → Except DecodeError (List Prefix × List Byte)
  | [] => .error .truncated
  | b :: bs =>
    match Prefix.ofByte m64 b with
    | none => .ok ([], b :: bs)
    | some (.legacy l) => do
      let (ps, rest) ← takePrefixes m64 seenRex bs
      .ok (.legacy l :: ps, rest)
    | some (.rex r) =>
      if seenRex then .error .multipleRex
      else do
        let (ps, rest) ← takePrefixes m64 true bs
        .ok (.rex r :: ps, rest)

/-- The SIB byte, where the operand has one. -/
def takeSib (present : Bool) (bs : List Byte) : Except DecodeError (Option Sib × List Byte) :=
  if present then do
    let (s, rest) ← takeByte bs
    .ok (some { scale := hi2 s, index := mid3 s, base := lo3 s }, rest)
  else .ok (none, bs)

/-- ModR/M, SIB and displacement with address size `a` (R150 step 5): the reg field and the operand. -/
def takeOperand (a : Width) (bs : List Byte) : Except DecodeError (BitVec 3 × RmOperand) := do
  let (m, bs) ← takeByte bs
  let (sib, bs) ← takeSib (hasSib a (hi2 m) (lo3 m)) bs
  let n := dispSize a (hi2 m) (lo3 m) sib
  let (ds, _) ← takeBytes n bs
  .ok (mid3 m, { mod := hi2 m, rm := lo3 m, sib := sib, disp := Disp.ofBytes n ds })

/-! ## The decoder -/

/-- `ps` without the mandatory prefix of a SIMD row, and the REX between it and the escape byte
(R105, R124): the last prefix byte, or the one before a last REX. -/
def splitMandatory (ps : List Prefix) : List Prefix × Option Rex :=
  match ps.getLast? with
  | some (.rex r) => (ps.dropLast.dropLast, some r)
  | _ => (ps.dropLast, none)

/-- An instruction whose row is known, after the prefixes `ps`; `b` is the last opcode byte and `bs` what
follows it (R150 steps 4 to 6). -/
def decodeRow (c : Config) (ps : List Prefix) (k : RowKind) (b : Byte) (bs : List Byte) :
    Except DecodeError Instr :=
  let p := PrefixState.ofList ps
  let plain (body : Instr) : Except DecodeError Instr := .ok (Instr.withPrefixes ps body)
  match k with
  | .incR => plain (.incR (lo3 b))
  | .decR => plain (.decR (lo3 b))
  | .incRm => do let (_, o) ← takeOperand (addressSize c p) bs; plain (.incRm o)
  | .decRm => do let (_, o) ← takeOperand (addressSize c p) bs; plain (.decRm o)
  | .movAlMoffs => do let a ← takeConst (addressSize c p) bs; plain (.movAlMoffs a)
  | .movEaxMoffs => do let a ← takeConst (addressSize c p) bs; plain (.movEaxMoffs a)
  | .movMoffsAl => do let a ← takeConst (addressSize c p) bs; plain (.movMoffsAl a)
  | .movMoffsEax => do let a ← takeConst (addressSize c p) bs; plain (.movMoffsEax a)
  | .movRImm => do let v ← takeConst (operandSize c p) bs; plain (.movRImm (lo3 b) v)
  | .cvtdq2pd => do
    let (reg, o) ← takeOperand (addressSize c p) bs
    .ok (Instr.withPrefixes (splitMandatory ps).1 (.cvtdq2pd (splitMandatory ps).2 reg o))
  | .phaddw => do
    let (reg, o) ← takeOperand (addressSize c p) bs
    .ok (Instr.withPrefixes (splitMandatory ps).1 (.phaddw (splitMandatory ps).2 reg o))
  | .movsB => plain .movsB
  | .movsV => plain .movsV
  | .cmpsB => plain .cmpsB
  | .cmpsV => plain .cmpsV
  | .stosB => plain .stosB
  | .stosV => plain .stosV
  | .lodsB => plain .lodsB
  | .lodsV => plain .lodsV
  | .scasB => plain .scasB
  | .scasV => plain .scasV
  | .insB => plain .insB
  | .insV => plain .insV
  | .outsB => plain .outsB
  | .outsV => plain .outsV
  | .jccRel8 =>
    if c.mode64 && p.has66 then .error .notInSource
    else do let (r, _) ← takeByte bs; plain (.jccRel8 (lo4 b) r)
  | .jccRel =>
    if c.mode64 && p.has66 then .error .notInSource
    else do let r ← takeConst (relSize c p) bs; plain (.jccRel (lo4 b) r)
  | .movRCr => do let (m, _) ← takeByte bs; plain (.movRCr (hi2 m) (mid3 m) (lo3 m))
  | .movRDr => do let (m, _) ← takeByte bs; plain (.movRDr (hi2 m) (mid3 m) (lo3 m))
  | .movCrR => do let (m, _) ← takeByte bs; plain (.movCrR (hi2 m) (mid3 m) (lo3 m))
  | .movDrR => do let (m, _) ← takeByte bs; plain (.movDrR (hi2 m) (mid3 m) (lo3 m))

/-- A one-byte opcode `b` (R150 steps 2 and 3, R146). -/
def decodeOneByte (c : Config) (ps : List Prefix) (b : Byte) (bs : List Byte) : Except DecodeError Instr := do
  let reg ← if needsDigit c.mode64 [b] then (do let (m, _) ← takeByte bs; .ok (mid3 m)) else .ok 0
  match lookupRow c.mode64 none [b] reg with
  | some k => decodeRow c ps k b bs
  | none => .error (.notShown [b] none)

/-- A two- or three-byte opcode, after the escape byte 0FH (R150 steps 2 and 3): the row with the
mandatory prefix, else the row without one, else the instruction of the escape row, which refuses (log 10). -/
def decodeEscape (c : Config) (ps : List Prefix) (bs : List Byte) : Except DecodeError Instr := do
  let (b2, bs) ← takeByte bs
  let (b3, bs) ←
    (if b2 == 0x38 || b2 == 0x3A then do let (b, rest) ← takeByte bs; .ok (some b, rest)
     else .ok (none, bs) : Except DecodeError (Option Byte × List Byte))
  let op := 0x0F#8 :: b2 :: b3.toList
  match lookupRow c.mode64 (PrefixState.ofList ps).mandatory op 0 with
  | some k => decodeRow c ps k (b3.getD b2) bs
  | none =>
    match lookupRow c.mode64 none op 0 with
    | some k => decodeRow c ps k (b3.getD b2) bs
    | none => .ok (Instr.withPrefixes ps (.twoByteEscape b2 b3))

/-- The decoder on bytes that may run out (R150 steps 1 to 6). -/
def decodeStream (c : Config) (bs : List Byte) : Except DecodeError Instr := do
  let (ps, bs) ← takePrefixes c.mode64 false bs
  if repeatsGroup (PrefixState.ofList ps).legacy then .error .repeatedPrefixGroup
  else do
    let (b, bs) ← takeByte bs
    if b == 0x0F then decodeEscape c ps bs else decodeOneByte c ps b bs

/-- The decoder: the instruction at the start of `bs`, or why there is none. It looks at 15 bytes and
answers `tooLong` as soon as a sixteenth would be needed (R82). -/
def decode (c : Config) (bs : List Byte) : Except DecodeError Instr :=
  match decodeStream c (bs.take 15) with
  | .error .truncated => .error (if bs.length < 15 then .truncated else .tooLong)
  | r => r

/-! ## What the decoder returns (R150) -/

/-- The output of R150: the row with its fields (mod, reg, r/m, SIB, displacement, direct offset, immediate), `P`, `mp`,
`rex`, `opsize`, `adsize` and the length. -/
structure Decoded where
  row : Instr
  legacy : List Legacy
  mandatory : Option Legacy
  rex : Option Rex
  opsize : Width
  adsize : Width
  length : Nat
deriving DecidableEq, Repr

/-- The output of R150 for an instruction; `P` takes in the mandatory prefix, as its last member. -/
def Decoded.of (c : Config) (i : Instr) : Decoded :=
  let mp := i.mandatory.map Prod.fst
  { row := i.body
    legacy := i.prefixState.legacy ++ mp.toList
    mandatory := mp
    rex := i.rexInEffect
    opsize := i.opSize c
    adsize := i.adSize c
    length := i.length }

/-- `Decode(cfg, Fetch)` of R150, but for step 7 (R153), which is part of the meanings: its output, or the refusal. An
escape opcode with no row is refused here, as step 3 has it (log 10). -/
def decodeRecord (c : Config) (bs : List Byte) : Except DecodeError Decoded := do
  let i ← decode c bs
  match i.body with
  | .twoByteEscape b2 b3 => .error (.notShown (0x0F :: b2 :: b3.toList) (i.prefixState.mandatory.map Legacy.byte))
  | _ => .ok (Decoded.of c i)

/-! ## The encoder -/

/-- The REX between a mandatory prefix and the escape byte (R124, R191). -/
def rexBytes : Option Rex → List Byte
  | some r => [r.byte]
  | none => []

/-- The bytes of an instruction (R80, and the match column of spec/opcode_table.json). -/
def encode : Instr → List Byte
  | .lock i => Legacy.lock.byte :: encode i
  | .repne i => Legacy.repne.byte :: encode i
  | .rep i => Legacy.rep.byte :: encode i
  | .csOverride i => (Legacy.seg .cs).byte :: encode i
  | .ssOverride i => (Legacy.seg .ss).byte :: encode i
  | .dsOverride i => (Legacy.seg .ds).byte :: encode i
  | .esOverride i => (Legacy.seg .es).byte :: encode i
  | .fsOverride i => (Legacy.seg .fs).byte :: encode i
  | .gsOverride i => (Legacy.seg .gs).byte :: encode i
  | .opSizeOverride i => Legacy.opSize.byte :: encode i
  | .addrSizeOverride i => Legacy.addrSize.byte :: encode i
  | .rex r i => r.byte :: encode i
  | .twoByteEscape b2 b3 => 0x0F :: b2 :: b3.toList
  | .incR n => [(0b01000#5) ++ n]
  | .decR n => [(0b01001#5) ++ n]
  | .incRm o => 0xFF :: o.bytes 0
  | .decRm o => 0xFF :: o.bytes 1
  | .movAlMoffs a => 0xA0 :: a.bytes
  | .movEaxMoffs a => 0xA1 :: a.bytes
  | .movMoffsAl a => 0xA2 :: a.bytes
  | .movMoffsEax a => 0xA3 :: a.bytes
  | .movRImm n v => ((0b10111#5) ++ n) :: v.bytes
  | .cvtdq2pd rx reg o => 0xF3 :: (rexBytes rx ++ 0x0F :: 0xE6 :: o.bytes reg)
  | .phaddw rx reg o => 0x66 :: (rexBytes rx ++ 0x0F :: 0x38 :: 0x01 :: o.bytes reg)
  | .movsB => [0xA4]
  | .movsV => [0xA5]
  | .cmpsB => [0xA6]
  | .cmpsV => [0xA7]
  | .stosB => [0xAA]
  | .stosV => [0xAB]
  | .lodsB => [0xAC]
  | .lodsV => [0xAD]
  | .scasB => [0xAE]
  | .scasV => [0xAF]
  | .insB => [0x6C]
  | .insV => [0x6D]
  | .outsB => [0x6E]
  | .outsV => [0x6F]
  | .jccRel8 cc rel => [(0b0111#4) ++ cc, rel]
  | .jccRel cc rel => 0x0F :: ((0b1000#4) ++ cc) :: rel.bytes
  | .movRCr mod reg rm => [0x0F, 0x20, byte233 mod reg rm]
  | .movRDr mod reg rm => [0x0F, 0x21, byte233 mod reg rm]
  | .movCrR mod reg rm => [0x0F, 0x22, byte233 mod reg rm]
  | .movDrR mod reg rm => [0x0F, 0x23, byte233 mod reg rm]

/-! ## A table word (log 11) -/

/-- The bytes of a word of spec/opcode_table.json: the table numbers the opcode bytes of a row first byte
most significant and leaves the mandatory prefix out of them (R152), so the bytes are laid down from the most
significant one, after the mandatory prefix of the row the word is of, and zeros follow. -/
def tableBytes (nbits w : Nat) : List Byte :=
  let op := (leBytes (nbits / 8) w).reverse
  let mp : List Byte :=
    if nbits = 16 ∧ w = 0x0FE6 then [0xF3] else if nbits = 24 ∧ w = 0x0F3801 then [0x66] else []
  (mp ++ op ++ List.replicate 15 0).take 15

/-- What the decoder, in the configuration of reset, reads from a word of the table. -/
def decodeTableWord (nbits w : Nat) : Option Instr :=
  (decode Config.reset (tableBytes nbits w)).toOption

end Sys2Proof
end

