-- ==== Sys2Proof/Machine/State.lean ====
section
/-! DEFINITION. The state of the machine (spec/10_state.md, spec/20_memory.md), its faults and refusals
(spec/60_exceptions.md R330 to R337), and the state after reset (log 1). -/

namespace Sys2Proof.Machine

/-- Memory: the bytes that hold a value, by location, in strictly rising order (R63, R65). A location that
is not listed holds no value (R64, log 4). -/
abbrev Memory := List Host.Cell

/-- The canonical form of a memory: locations strictly rising. (No entry can equal what an unlisted
location reads as, since that is no value.) -/
def Memory.wf : Memory → Bool
  | [] => true
  | c :: m => (m.all fun d => c.1 < d.1) && Memory.wf m

/-- The visible parts of the six segment registers (R34; PRESUMED 16 bits each, log 18). No rule reads or
writes them; what a segment contributes to an address is `Config.segBase` (R56). -/
structure SegSelectors where
  cs : BitVec 16
  ss : BitVec 16
  ds : BitVec 16
  es : BitVec 16
  fs : BitVec 16
  gs : BitVec 16
deriving DecidableEq, Repr

/-- The state of the machine. -/
structure State where
  /-- The configuration of the run, which nothing changes (R9, R40, log 3). -/
  cfg : Config
  /-- The sixteen general registers by number, 64 bits each (R24). -/
  gprs : Vector Word 16
  /-- The instruction pointer: RIP in 64-bit mode, EIP in its low 32 bits otherwise (R30). -/
  rip : Word
  /-- EFLAGS/RFLAGS, with the six status flags at their bit positions (R33). -/
  rflags : Word
  /-- The segment registers' selectors (R34). -/
  segSel : SegSelectors
  /-- MM0 to MM7 (R36). -/
  mmx : Vector (BitVec 64) 8
  /-- XMM0 to XMM15 (R37). -/
  xmm : Vector (BitVec 128) 16
  /-- CR0 to CR15; CR8 is the task-priority register (R38, R322). -/
  cr : Vector Word 16
  /-- DR0 to DR15 (R39). -/
  dr : Vector Word 16
  /-- Memory, the program's bytes among it (R50, R59, R63). -/
  mem : Memory
deriving DecidableEq, Repr

/-- The faults: the one exception of the source. -/
inductive Fault where
  /-- #UD, the invalid-opcode exception, `Fault(UD, pc)` of R331: raised by a MOV to or from an
  unimplemented CR9..CR15 or DR8..DR15 (R323), before any register is read or written. It ends the run,
  since the spec describes no delivery (R340, D18): safe. -/
  | invalidOpcode (pc : Word)
deriving DecidableEq, Repr

/-- The refusals: the closed list of R337, each with the address of the instruction, `Refused(reason, pc)`.
All are safe: the machine stops where the hardware may go on. (UnwrittenRegister of that list cannot arise:
every register holds a value, log 2.) -/
inductive Refusal where
  /-- An instruction that has no meaning in the model; the host's name. No arm answers it. Safe. -/
  | notModelled (mnemonic : String)
  /-- The decoder: no row of the table; the source gives no encoding (R152). Safe. -/
  | notShown (op : List Byte) (mp : Option Byte) (pc : Word)
  /-- The decoder: more than 15 bytes (R82). Safe. -/
  | tooLong (pc : Word)
  /-- The decoder: two or more REX bytes before the opcode (R135). Safe. -/
  | multipleRex (pc : Word)
  /-- The decoder: two prefixes of one group (R102). Safe. -/
  | repeatedPrefixGroup (pc : Word)
  /-- The prefix check: F2H or F3H on an instruction that may not carry it (R100). Safe. -/
  | reservedRepeatPrefix (pc : Word)
  /-- The prefix check: a segment override on a branch, other than 2EH or 3EH on Jcc (R93). Safe. -/
  | reservedSegmentOnBranch (pc : Word)
  /-- The prefix check: a segment override on an instruction with no memory operand (R153). Safe. -/
  | segmentOverrideWithoutMemoryOperand (pc : Word)
  /-- The prefix check: 67H on an instruction with no memory operand (R99). Safe. -/
  | addrSizeWithoutMemoryOperand (pc : Word)
  /-- The prefix check: 66H on a SIMD row, not as its mandatory prefix (R101). Safe. -/
  | reserved66 (pc : Word)
  /-- The prefix check: any instruction with F0H (R171). Safe. -/
  | lockLegalityNotInSource (pc : Word)
  /-- A decode-only instruction: the source gives it no meaning (R172 to R179, R192, R194, R320). Safe. -/
  | semanticsNotInSource (name : String) (pc : Word)
  /-- The decoder: 66H on a Jcc in 64-bit mode (R179). Safe. -/
  | notInSource (pc : Word)
  /-- A read of a byte of memory that holds no value (R64), or a fetch where the configuration places no byte of
  the program or that byte holds no value (R59, log 6). Safe. -/
  | unwrittenMemory (pc : Word)
  /-- A write that touches a byte of the program (R71). Safe. -/
  | writeToCode (pc : Word)
  /-- An admitted instruction whose bytes pass the top of the instruction-pointer range (R32). Safe. -/
  | fetchWrap (pc : Word)
  /-- A term of `Instr` that no bytes decode to under the configuration (log 12); the machine's step never
  answers it. Safe. -/
  | illFormed (pc : Word)
deriving DecidableEq, Repr

/-- The outcome of running an instruction. -/
abbrev Outcome := Host.Outcome State Fault Refusal

/-- The machine after reset. The spec states no reset value (R42, R360): PRESUMED, the family's
values (log 1). Memory holds nothing. -/
def State.reset : State where
  cfg := Config.reset
  gprs := #v[0, 0, 0x600, 0, 0, 0, 0, 0, 0, 0, 0, 0, 0, 0, 0, 0]
  rip := 0xFFF0
  rflags := 0x2
  segSel := { cs := 0xF000, ss := 0, ds := 0, es := 0, fs := 0, gs := 0 }
  mmx := #v[0, 0, 0, 0, 0, 0, 0, 0]
  xmm := #v[0, 0, 0, 0, 0, 0, 0, 0, 0, 0, 0, 0, 0, 0, 0, 0]
  cr := #v[0x60000010, 0, 0, 0, 0, 0, 0, 0, 0, 0, 0, 0, 0, 0, 0, 0]
  dr := #v[0, 0, 0, 0, 0, 0, 0xFFFF0FF0, 0x400, 0, 0, 0, 0, 0, 0, 0, 0]
  mem := []

end Sys2Proof.Machine
end

