-- ==== Sys2Proof/Machine/Ops.lean ====
section
/-! DEFINITION. The named operations of the machine: memory, the instruction pointer, fetching, raising the one
exception, the prefix-legality check, and the ways an instruction is run. -/

namespace Sys2Proof.Machine

/-! ## Bytes of memory (R63, R64) -/

/-- The byte at a location, if it holds a value (R63, R64). -/
def Memory.read : Memory → Nat → Option Byte
  | [], _ => none
  | c :: m, a => if c.1 = a then some c.2 else Memory.read m a

/-- The memory with one byte written, in canonical form. -/
def Memory.write : Memory → Nat → Byte → Memory
  | [], a, b => [(a, b)]
  | c :: m, a, b =>
    if a < c.1 then (a, b) :: c :: m
    else if a = c.1 then (a, b) :: m
    else c :: Memory.write m a b

/-- The bytes at some locations, if all hold a value (R64). -/
def Memory.readAll (m : Memory) : List Nat → Option (List Byte)
  | [] => some []
  | a :: as =>
    match Memory.read m a, Memory.readAll m as with
    | some b, some bs => some (b :: bs)
    | _, _ => none

/-- The memory with bytes written at some locations, one each. -/
def Memory.writeAll (m : Memory) : List Nat → List Byte → Memory
  | a :: as, b :: bs => Memory.writeAll (Memory.write m a b) as bs
  | _, _ => m

/-! ## The instruction pointer (R30 to R32) -/

/-- The address of the instruction: RIP in 64-bit mode, EIP (32 bits) otherwise (R30, R31). -/
def State.pc (s : State) : Word := if s.cfg.mode64 then s.rip else (s.rip.setWidth 32).setWidth 64

/-- The state with the instruction pointer set, kept to 32 bits outside 64-bit mode (R32, log 7). -/
def State.setPc (s : State) (v : Word) : State :=
  { s with rip := if s.cfg.mode64 then v else (v.setWidth 32).setWidth 64 }

/-! ## Segments and locations (R52, R56) -/

/-- The location of the byte `k` bytes after an offset of a segment: `SegBase(seg) + off + k`, truncated
to the address space (R56, R59, log 5). -/
def State.loc (s : State) (seg : Seg) (off : Word) (k : Nat) : Nat :=
  ((s.cfg.segBase.base seg).toNat + off.toNat + k) % s.cfg.top

/-- The `n` locations from an offset of a segment on (R56, R60). -/
def State.locs (s : State) (seg : Seg) (off : Word) (n : Nat) : List Nat :=
  (List.range n).map (s.loc seg off)

/-- `MemRead(seg, off, n)`, little-endian, any alignment (R56, R58, R60); refused where a byte holds no
value (R64). -/
def State.load (s : State) (seg : Seg) (off : Word) (w : Width) : Except Refusal (BitVec w.bits) :=
  match Memory.readAll s.mem (s.locs seg off w.bytes) with
  | some bs => .ok (BitVec.ofNat w.bits (leNat bs))
  | none => .error (.unwrittenMemory s.pc)

/-- `MemWrite(seg, off, n, v)`, little-endian, any alignment (R56, R58, R60); refused where a byte of it is one of
the program's (R71). -/
def State.store (s : State) (seg : Seg) (off : Word) (w : Width) (v : BitVec w.bits) :
    Except Refusal State :=
  if (s.locs seg off w.bytes).any (fun a => s.cfg.code.contains a) then .error (.writeToCode s.pc)
  else .ok { s with mem := Memory.writeAll s.mem (s.locs seg off w.bytes) (leBytes w.bytes v.toNat) }

/-! ## Fetching (R59) -/

/-- The instruction byte at a location: what memory holds there, if it is a byte of the program (R59, R71, log 6). -/
def State.codeByte (s : State) (a : Nat) : Option Byte :=
  if s.cfg.code.contains a then Memory.read s.mem a else none

/-- The bytes from `Fetch(k)` on, at most `n` of them, and why there is no further one: no instruction byte is
defined there (R59, R64), or 15 bytes have been read (R82). -/
def State.fetchFrom (s : State) (k : Nat) : Nat → List Byte × Refusal
  | 0 => ([], .tooLong s.pc)
  | n + 1 =>
    match s.codeByte (s.loc .cs s.pc k) with
    | none => ([], .unwrittenMemory s.pc)
    | some b => (b :: (s.fetchFrom (k + 1) n).1, (s.fetchFrom (k + 1) n).2)

/-- The bytes at the instruction pointer, at most 15 (R82). -/
def State.fetch (s : State) : List Byte × Refusal := s.fetchFrom 0 15

/-- The refusal that a decoding error comes to at an address; `more` is why the bytes ended. -/
def decodeRefusal (pc : Word) (more : Refusal) : DecodeError → Refusal
  | .truncated => more
  | .tooLong => .tooLong pc
  | .multipleRex => .multipleRex pc
  | .repeatedPrefixGroup => .repeatedPrefixGroup pc
  | .notShown op mp => .notShown op mp pc
  | .notInSource => .notInSource pc

/-! ## The exception (R330, R331) -/

/-- `raise #UD`: none of the instruction's writes is made and the run ends in `Fault(UD, pc)` (R331, R340).
The source describes no entry to a handler and no return from one (R340, R341). -/
def raiseInvalidOpcode (s : State) : Outcome := .fault (.invalidOpcode s.pc)

/-! ## Prefix legality (R153) -/

/-- What R153 asks of a row of spec/opcode_table.json. -/
structure RowAttrs where
  /-- A repeat prefix may stand before it (R100). -/
  rep : Bool := false
  /-- It is a Jcc (R93 to R96); the table has no other branch (R181). -/
  jcc : Bool := false
  /-- It has a memory operand. -/
  mem : Bool := false
  /-- It takes a mandatory prefix (R101). -/
  simd : Bool := false
deriving DecidableEq, Repr

/-- The attributes of an instruction, those of its row (R152). -/
def attrs : Instr → RowAttrs
  | .lock i | .repne i | .rep i | .csOverride i | .ssOverride i | .dsOverride i | .esOverride i
  | .fsOverride i | .gsOverride i | .opSizeOverride i | .addrSizeOverride i | .rex _ i => attrs i
  | .twoByteEscape _ _ => {}
  | .incR _ | .decR _ | .movRImm _ _ => {}
  | .incRm o | .decRm o => { mem := o.inMemory }
  | .movAlMoffs _ | .movEaxMoffs _ | .movMoffsAl _ | .movMoffsEax _ => { mem := true }
  | .cvtdq2pd _ _ o | .phaddw _ _ o => { mem := o.inMemory, simd := true }
  | .movsB | .movsV | .cmpsB | .cmpsV | .stosB | .stosV | .lodsB | .lodsV | .scasB | .scasV
  | .insB | .insV | .outsB | .outsV => { rep := true, mem := true }
  | .jccRel8 _ _ | .jccRel _ _ => { jcc := true }
  | .movRCr _ _ _ | .movRDr _ _ _ | .movCrR _ _ _ | .movDrR _ _ _ => {}

/-- The prefix-legality check of R153, in its order: LOCK, repeat, segment override, 67H, 66H. -/
def prefixRefusal (a : RowAttrs) (p : PrefixState) (pc : Word) : Option Refusal :=
  if p.legacy.contains .lock then some (.lockLegalityNotInSource pc)
  else if (p.legacy.contains .repne || p.legacy.contains .rep) && !a.rep then
    some (.reservedRepeatPrefix pc)
  else if p.segment.isSome && a.jcc && p.segment != some .cs && p.segment != some .ds then
    some (.reservedSegmentOnBranch pc)
  else if p.segment.isSome && !a.jcc && !a.mem then some (.segmentOverrideWithoutMemoryOperand pc)
  else if p.has67 && !a.mem then some (.addrSizeWithoutMemoryOperand pc)
  else if p.has66 && a.simd then some (.reserved66 pc)
  else none

/-! ## Running an instruction (R339) -/

/-- What a term of `Instr` does: nothing but a refusal where no bytes decode to it (log 12). -/
def guarded (i : Instr) (s : State) (out : Outcome) : Outcome :=
  if wellFormed s.cfg i then out else .refused (.illFormed s.pc)

/-- `pc_next` of R31 as a number: the address of the byte after the instruction `body` with the prefixes `p`. -/
def pcNext (p : PrefixState) (body : Instr) (s : State) : Nat := s.pc.toNat + (p.bytes + body.length)

/-- An admitted instruction: the prefix check (R153), the top of the instruction-pointer range (R32), then
its own effect, and `pc <- pc_next` (R31), in the order of R339. -/
def runAdmitted (p : PrefixState) (body : Instr) (s : State) (act : Except Refusal State) : Outcome :=
  match prefixRefusal (attrs body) p s.pc with
  | some r => .refused r
  | none =>
    if s.cfg.top < pcNext p body s then .refused (.fetchWrap s.pc)
    else match act with
      | .error r => .refused r
      | .ok s' => .next (s'.setPc (BitVec.ofNat 64 (pcNext p body s)))

/-- A decode-only instruction: the prefix check (R153), then `refuse(SemanticsNotInSource(name))`. -/
def runDecodeOnly (name : String) (p : PrefixState) (body : Instr) (s : State) : Outcome :=
  match prefixRefusal (attrs body) p s.pc with
  | some r => .refused r
  | none => .refused (.semanticsNotInSource name s.pc)

end Sys2Proof.Machine
end

