-- ==== Sys2Proof/Machine/Branch.lean ====
section
/-! DEFINITION. Jcc (spec/40_prefix_governed.md R179, R180): decoded, with branch hints that change nothing,
then refused: the source gives neither the conditions nor the target. -/

namespace Sys2Proof.Machine

/-- Jcc rel8 after the prefixes `p` (R179). -/
def jccRel8In (p : PrefixState) (cc : BitVec 4) (rel : BitVec 8) (s : State) : Outcome :=
  runDecodeOnly "Jcc" p (.jccRel8 cc rel) s

/-- Jcc rel16/32 after the prefixes `p` (R179). -/
def jccRelIn (p : PrefixState) (cc : BitVec 4) (rel : Const) (s : State) : Outcome :=
  runDecodeOnly "Jcc" p (.jccRel cc rel) s

/-- Jcc rel8 with no prefix. -/
def execJccRel8 (cc : BitVec 4) (rel : BitVec 8) (s : State) : Outcome :=
  guarded (.jccRel8 cc rel) s (jccRel8In .empty cc rel s)

/-- Jcc rel16/32 with no prefix. -/
def execJccRel (cc : BitVec 4) (rel : Const) (s : State) : Outcome :=
  guarded (.jccRel cc rel) s (jccRelIn .empty cc rel s)

end Sys2Proof.Machine
end

