-- ==== Sys2Proof/Machine/Flags.lean ====
section
/-! DEFINITION. The status flags (spec/10_state.md R33) and every flag computation the spec gives: that of INC
and DEC (spec/44_inc_dec.md R284). MOV writes no flag. -/

namespace Sys2Proof.Machine

/-- The six status flags (R33). -/
inductive Flag where
  | cf | pf | af | zf | sf | of
deriving DecidableEq, Repr

/-- The bit of EFLAGS/RFLAGS that holds a flag (R33). -/
def Flag.bit : Flag → Nat
  | .cf => 0 | .pf => 2 | .af => 4 | .zf => 6 | .sf => 7 | .of => 11

/-- A flag of the state. -/
def State.flag (s : State) (f : Flag) : Bool := s.rflags.getLsbD f.bit

/-- A word with one bit set to a value. -/
def setBit (r : Word) (i : Nat) (b : Bool) : Word :=
  if b then r ||| BitVec.twoPow 64 i else r &&& ~~~(BitVec.twoPow 64 i)

/-- The flags INC and DEC write (R284). -/
structure ArithFlags where
  zf : Bool
  sf : Bool
  pf : Bool
  af : Bool
  of : Bool
deriving DecidableEq, Repr

/-- The two arithmetic operations of the spec (R280 to R283). -/
inductive ArithOp where
  | inc | dec
deriving DecidableEq, Repr

/-- The result `r`: one more or one less, truncated to the width (R280, R281). -/
def ArithOp.result {w : Nat} : ArithOp → BitVec w → BitVec w
  | .inc, x => x + 1#w
  | .dec, x => x - 1#w

/-- Whether the low eight bits hold an even number of ones (R284). -/
def evenParity (b : BitVec 8) : Bool := (List.range 8).countP (fun i => b.getLsbD i) % 2 == 0

/-- AF: the low four bits of the operand before (R284). -/
def ArithOp.adjust {w : Nat} : ArithOp → BitVec w → Bool
  | .inc, x => x.setWidth 4 == 0b1111#4
  | .dec, x => x.setWidth 4 == 0b0000#4

/-- OF: the operand before is the largest (INC) or the most negative (DEC) signed number (R284). -/
def ArithOp.overflow {w : Nat} : ArithOp → BitVec w → Bool
  | .inc, x => x.toNat == 2 ^ (w - 1) - 1
  | .dec, x => x.toNat == 2 ^ (w - 1)

/-- The flags of INC or DEC from the operand before (R284). -/
def ArithOp.flags {w : Nat} (op : ArithOp) (x : BitVec w) : ArithFlags where
  zf := op.result x == 0#w
  sf := (op.result x).getLsbD (w - 1)
  pf := evenParity ((op.result x).setWidth 8)
  af := op.adjust x
  of := op.overflow x

/-- The state with ZF, SF, PF, AF and OF written; CF and every other bit unchanged (R284). -/
def State.setArithFlags (s : State) (f : ArithFlags) : State :=
  { s with rflags :=
      setBit (setBit (setBit (setBit (setBit s.rflags Flag.zf.bit f.zf) Flag.sf.bit f.sf)
        Flag.pf.bit f.pf) Flag.af.bit f.af) Flag.of.bit f.of }

end Sys2Proof.Machine
end

