-- ==== Sys2Proof/Machine/Operands.lean ====
section
/-! DEFINITION. The operands: general registers at every width (spec/10_state.md R21 to R28), effective
addresses at every address size (spec/42_addressing_16_32.md, spec/43_addressing_64_rex.md), the registers that
fields name, reading and writing the place an operand names, and the operands of every decoded instruction. -/

namespace Sys2Proof.Machine

/-! ## General registers (R24 to R27) -/

/-- `gpr64[n]` (R24). -/
def State.gpr (s : State) (n : BitVec 4) : Word := s.gprs[n.toNat]'n.isLt

/-- The state with `gpr64[n]` replaced. -/
def State.setGpr (s : State) (n : BitVec 4) (v : Word) : State :=
  { s with gprs := s.gprs.set n.toNat v n.isLt }

/-- The register number `n` at a width: its low bits (R25). -/
def State.readReg (s : State) (n : BitVec 4) (w : Width) : BitVec w.bits :=
  (s.gpr n).setWidth w.bits

/-- What a whole register holds after a write of a width (R27): 64 bits replace it; 32 bits replace its low
half and in 64-bit mode clear its high half (outside 64-bit mode the high half is kept, log 8); 16 and 8 bits
replace only those bits. -/
def mergeReg (m64 : Bool) (old : Word) (w : Width) (v : BitVec w.bits) : Word :=
  match w with
  | .w64 => BitVec.setWidth 64 v
  | .w32 =>
    if m64 then BitVec.setWidth 64 v
    else (old.extractLsb' 32 32) ++ (BitVec.setWidth 32 v)
  | .w16 => (old.extractLsb' 16 48) ++ (BitVec.setWidth 16 v)
  | .w8 => (old.extractLsb' 8 56) ++ (BitVec.setWidth 8 v)

/-- A write of a width to the register number `n` (R27). -/
def State.writeReg (s : State) (n : BitVec 4) (w : Width) (v : BitVec w.bits) : State :=
  s.setGpr n (mergeReg s.cfg.mode64 (s.gpr n) w v)

/-- The byte register `gpr8[n, rex]` (R23, R25, R26): with a REX prefix in effect bits 7:0 of register n;
without one, numbers 4 to 7 are bits 15:8 of registers 0 to 3. Numbers 8 to 15 without one, which R26 does not give, are
bits 7:0 of register n (log 21). -/
def State.readReg8 (s : State) (rexInEffect : Bool) (n : BitVec 4) : Byte :=
  if rexInEffect || n.toNat < 4 || 8 ≤ n.toNat then (s.gpr n).setWidth 8
  else (s.gpr (n - 4)).extractLsb' 8 8

/-- A write of a byte register (R26, R27; numbers 8 to 15 without REX: log 21). -/
def State.writeReg8 (s : State) (rexInEffect : Bool) (n : BitVec 4) (v : Byte) : State :=
  if rexInEffect || n.toNat < 4 || 8 ≤ n.toNat then s.writeReg n .w8 v
  else
    let old := s.gpr (n - 4)
    s.setGpr (n - 4) ((old.extractLsb' 16 48) ++ v ++ (old.extractLsb' 0 8))

/-! ## Effective addresses: (segment, offset) with the default segment -/

/-- The registers of a 16-bit form (R202, R203, R205, R208). -/
def base16 (s : State) (o : RmOperand) : BitVec 16 :=
  let r (n : BitVec 4) : BitVec 16 := s.readReg n .w16
  match o.rm with
  | 0 => r 3 + r 6
  | 1 => r 3 + r 7
  | 2 => r 5 + r 6
  | 3 => r 5 + r 7
  | 4 => r 6
  | 5 => r 7
  | 6 => if o.mod == 0 then 0 else r 5
  | _ => r 3

/-- The default segment of a 16-bit form: SS with BP, else DS (R53, R207). -/
def defaultSeg16 (o : RmOperand) : Seg :=
  if o.rm == 2 || o.rm == 3 || (o.rm == 6 && o.mod != 0) then .ss else .ds

/-- `EA16` (R208). -/
def ea16 (s : State) (o : RmOperand) : Seg × Word :=
  (defaultSeg16 o, (base16 s o + o.disp.sext 16).setWidth 64)

/-- The default segment of a form with a base register: SS for ESP/RSP and EBP/RBP, else DS (R215, R254). -/
def segOfBase (n : BitVec 4) : Seg := if n == 4 || n == 5 then .ss else .ds

/-- `EA32` outside 64-bit mode, with and without SIB (R216, R222 to R224, R215). -/
def ea32 (s : State) (o : RmOperand) : Seg × Word :=
  let r (n : BitVec 3) : BitVec 32 := s.readReg (regNum false n) .w32
  let d : BitVec 32 := o.disp.sext 32
  match o.sib with
  | none =>
    if o.mod == 0 && o.rm == 5 then (.ds, d.setWidth 64)
    else (segOfBase (regNum false o.rm), (r o.rm + d).setWidth 64)
  | some sib =>
    let idx : BitVec 32 := if sib.index == 4 then 0 else r sib.index <<< sib.scale.toNat
    if sib.base == 5 && o.mod == 0 then (.ds, (idx + d).setWidth 64)
    else (segOfBase (regNum false sib.base), (r sib.base + idx + d).setWidth 64)

/-- A register read to form an address in 64-bit mode: all of it, or its low half zero-extended with
the 67H prefix (R253). -/
def addrReg (s : State) (a : Width) (n : BitVec 4) : Word :=
  if a = .w32 then (BitVec.setWidth 32 (s.gpr n)).setWidth 64 else s.gpr n

/-- The sum of `EA64` before the address size is applied, with its default segment (R247 to R252, R254, R256). -/
def ea64Sum (s : State) (rex : Rex) (a : Width) (next : Word) (o : RmOperand) : Seg × Word :=
  let d : Word := o.disp.sext 64
  match o.sib with
  | none =>
    if o.mod == 0 && o.rm == 5 then (.ds, next + d)
    else (segOfBase (regNum rex.b o.rm), addrReg s a (regNum rex.b o.rm) + d)
  | some sib =>
    let idxn := regNum rex.x sib.index
    let idx : Word := if idxn == 4 then 0 else addrReg s a idxn <<< sib.scale.toNat
    if sib.base == 5 && o.mod == 0 then (.ds, idx + d)
    else (segOfBase (regNum rex.b sib.base), addrReg s a (regNum rex.b sib.base) + idx + d)

/-- `EA64` (R252): with the 67H prefix the sum is truncated to 32 bits and zero-extended (R260, R261). -/
def ea64 (s : State) (rex : Rex) (a : Width) (next : Word) (o : RmOperand) : Seg × Word :=
  let e := ea64Sum s rex a next o
  (e.1, if a = .w32 then (e.2.setWidth 32).setWidth 64 else e.2)

/-- The segment of a memory operand: the override if there is one, else the default (R54). -/
def segmentFor (p : PrefixState) (dflt : Seg) : Seg := p.segment.getD dflt

/-- The segment and offset of a memory operand (R142, R285): the table of the address size, the override
applied. `next` is `pc_next`. -/
def effectiveAddress (s : State) (p : PrefixState) (next : Word) (o : RmOperand) : Seg × Word :=
  let a := addressSize s.cfg p
  let e :=
    if s.cfg.mode64 then ea64 s p.rexBits a next o
    else if a = .w16 then ea16 s o
    else ea32 s o
  (segmentFor p e.1, e.2)

/-! ## The registers that fields name (R241 to R243) -/

/-- The classes of register a ModR/M field can name (R21, R36 to R39). -/
inductive RegClass where
  | gpr | mmx | xmm | cr | dr
deriving DecidableEq, Repr

/-- A register by its class and number: eight MMX registers, sixteen of each other class (R24, R36 to R39). -/
inductive NamedReg where
  | gpr (n : BitVec 4)
  | mmx (n : BitVec 3)
  | xmm (n : BitVec 4)
  | cr (n : BitVec 4)
  | dr (n : BitVec 4)
deriving DecidableEq, Repr

/-- The register of a class that a REX bit and a 3-bit field name; an MMX register has no use for the bit (R242). -/
def RegClass.named (c : RegClass) (ext : Bool) (f : BitVec 3) : NamedReg :=
  match c with
  | .gpr => .gpr (regNum ext f)
  | .mmx => .mmx f
  | .xmm => .xmm (regNum ext f)
  | .cr => .cr (regNum ext f)
  | .dr => .dr (regNum ext f)

/-- The register that the ModR/M reg field names, extended by REX.R (R242). -/
def regField (c : RegClass) (p : PrefixState) (reg : BitVec 3) : NamedReg := c.named p.rexBits.r reg

/-- The register that the ModR/M r/m field names with mod = 11B, extended by REX.B (R243). -/
def rmField (c : RegClass) (p : PrefixState) (rm : BitVec 3) : NamedReg := c.named p.rexBits.b rm

/-! ## The place an operand names (R285) -/

/-- A general register or a run of bytes in memory. -/
inductive Place where
  | reg (n : BitVec 4)
  | mem (seg : Seg) (off : Word)
deriving DecidableEq, Repr

/-- The place a ModR/M operand names: with mod = 11B a general register, extended by REX.B (R206, R214,
R243), else memory. -/
def placeOf (s : State) (p : PrefixState) (next : Word) (o : RmOperand) : Place :=
  if o.inMemory then
    .mem (effectiveAddress s p next o).1 (effectiveAddress s p next o).2
  else .reg (regNum p.rexBits.b o.rm)

/-- What a place holds (R285). -/
def readPlace (s : State) (w : Width) : Place → Except Refusal (BitVec w.bits)
  | .reg n => .ok (s.readReg n w)
  | .mem seg off => s.load seg off w

/-- The state with a place written (R285). -/
def writePlace (s : State) (w : Width) (v : BitVec w.bits) : Place → Except Refusal State
  | .reg n => .ok (s.writeReg n w v)
  | .mem seg off => s.store seg off w v

/-! ## The operands of a decoded instruction (R15) -/

/-- What an operand is: a whole register, a general register at a size (R21, R25), a number of bytes of memory from
an offset of a segment on (R56, R61, R192, R194), or a constant of the instruction. -/
inductive Operand where
  | reg (r : NamedReg)
  | gpr (n : BitVec 4) (w : Width)
  | mem (seg : Seg) (off : Word) (bytes : Nat)
  | imm (v : Const)
  | rel8 (v : BitVec 8)
deriving DecidableEq, Repr

/-- The operand that ModR/M's mod and r/m fields name: with mod = 11B the register `reg`, else so many bytes of memory
(R200, R206, R214, R243). -/
def rmOperand (s : State) (p : PrefixState) (next : Word) (o : RmOperand) (bytes : Nat) (reg : Operand) : Operand :=
  if o.inMemory then .mem (effectiveAddress s p next o).1 (effectiveAddress s p next o).2 bytes else reg

/-- The operand of INC and DEC: a general register or memory, of the operand size (R136, R137, R285). -/
def incDecOperand (s : State) (p : PrefixState) (next : Word) (o : RmOperand) : Operand :=
  rmOperand s p next o (operandSize s.cfg p).bytes (.gpr (regNum p.rexBits.b o.rm) (operandSize s.cfg p))

/-- The prefixes of a SIMD row with its mandatory prefix and the REX after it, which alone is in effect
(R104, R124, R191). -/
def simdPrefixes (p : PrefixState) (mp : Legacy) (rx : Option Rex) : PrefixState :=
  match rx with
  | some r => (p.push (.legacy mp)).push (.rex r)
  | none => p.push (.legacy mp)

/-- The operands of CVTDQ2PD and PHADDW: the destination XMM register in reg, the source XMM register or so many bytes
of memory in mod and r/m (R192, R194). -/
def simdOperands (s : State) (p : PrefixState) (next : Word) (reg : BitVec 3) (o : RmOperand) (bytes : Nat) :
    List Operand :=
  [.reg (regField .xmm p reg), rmOperand s p next o bytes (.reg (rmField .xmm p o.rm))]

/-- The operands of a decoded instruction after the prefixes `p`, destination first, as far as its row gives them
(R15); `next` is `pc_next`. The memory source of CVTDQ2PD has 8 bytes and that of PHADDW 16 (R192, R194). The source gives
the string and I/O instructions no operands (R172 to R178), and the general register of a control- or debug-register move
no size (R320). -/
def operandsAfter (s : State) (p : PrefixState) (next : Word) : Instr → List Operand
  | .lock i => operandsAfter s (p.push (.legacy .lock)) next i
  | .repne i => operandsAfter s (p.push (.legacy .repne)) next i
  | .rep i => operandsAfter s (p.push (.legacy .rep)) next i
  | .csOverride i => operandsAfter s (p.push (.legacy (.seg .cs))) next i
  | .ssOverride i => operandsAfter s (p.push (.legacy (.seg .ss))) next i
  | .dsOverride i => operandsAfter s (p.push (.legacy (.seg .ds))) next i
  | .esOverride i => operandsAfter s (p.push (.legacy (.seg .es))) next i
  | .fsOverride i => operandsAfter s (p.push (.legacy (.seg .fs))) next i
  | .gsOverride i => operandsAfter s (p.push (.legacy (.seg .gs))) next i
  | .opSizeOverride i => operandsAfter s (p.push (.legacy .opSize)) next i
  | .addrSizeOverride i => operandsAfter s (p.push (.legacy .addrSize)) next i
  | .rex r i => operandsAfter s (p.push (.rex r)) next i
  | .incR n | .decR n => [.gpr (regNum false n) (operandSize s.cfg p)]
  | .incRm o | .decRm o => [incDecOperand s p next o]
  | .movAlMoffs a => [.gpr 0 .w8, .mem (segmentFor p .ds) a.zext 1]
  | .movEaxMoffs a => [.gpr 0 (operandSize s.cfg p), .mem (segmentFor p .ds) a.zext (operandSize s.cfg p).bytes]
  | .movMoffsAl a => [.mem (segmentFor p .ds) a.zext 1, .gpr 0 .w8]
  | .movMoffsEax a => [.mem (segmentFor p .ds) a.zext (operandSize s.cfg p).bytes, .gpr 0 (operandSize s.cfg p)]
  | .movRImm n v => [.gpr (regNum p.rexBits.b n) (operandSize s.cfg p), .imm v]
  | .cvtdq2pd rx reg o => simdOperands s (simdPrefixes p .rep rx) next reg o 8
  | .phaddw rx reg o => simdOperands s (simdPrefixes p .opSize rx) next reg o 16
  | .jccRel8 _ rel => [.rel8 rel]
  | .jccRel _ rel => [.imm rel]
  | .movRCr _ reg rm => [.reg (rmField .gpr p rm), .reg (regField .cr p reg)]
  | .movRDr _ reg rm => [.reg (rmField .gpr p rm), .reg (regField .dr p reg)]
  | .movCrR _ reg rm => [.reg (regField .cr p reg), .reg (rmField .gpr p rm)]
  | .movDrR _ reg rm => [.reg (regField .dr p reg), .reg (rmField .gpr p rm)]
  | .twoByteEscape _ _ | .movsB | .movsV | .cmpsB | .cmpsV | .stosB | .stosV | .lodsB | .lodsV | .scasB | .scasV
  | .insB | .insV | .outsB | .outsV => []

/-- The operands of a decoded instruction (R15). -/
def operandsOf (i : Instr) (s : State) : List Operand :=
  operandsAfter s .empty (BitVec.ofNat 64 (s.pc.toNat + i.length)) i

end Sys2Proof.Machine
end

