-- ==== Sys2Proof/Machine/IncDec.lean ====
section
/-! DEFINITION. INC and DEC (spec/44_inc_dec.md). `…In p` is the instruction after the prefixes `p`. -/

namespace Sys2Proof.Machine

/-- One operand is read, changed and written once, then the flags (R284, R285). -/
def incDecPlace (op : ArithOp) (w : Width) (pl : Place) (s : State) : Except Refusal State :=
  match readPlace s w pl with
  | .error r => .error r
  | .ok x =>
    match writePlace s w (op.result x) pl with
    | .error r => .error r
    | .ok s' => .ok (s'.setArithFlags (op.flags x))

/-- INC r16/32 (R280). -/
def incRIn (p : PrefixState) (n : BitVec 3) (s : State) : Outcome :=
  runAdmitted p (.incR n) s (incDecPlace .inc (operandSize s.cfg p) (.reg (regNum false n)) s)

/-- DEC r16/32 (R281). -/
def decRIn (p : PrefixState) (n : BitVec 3) (s : State) : Outcome :=
  runAdmitted p (.decR n) s (incDecPlace .dec (operandSize s.cfg p) (.reg (regNum false n)) s)

/-- INC r/m (R282). -/
def incRmIn (p : PrefixState) (o : RmOperand) (s : State) : Outcome :=
  runAdmitted p (.incRm o) s
    (incDecPlace .inc (operandSize s.cfg p) (placeOf s p (BitVec.ofNat 64 (pcNext p (.incRm o) s)) o) s)

/-- DEC r/m (R283). -/
def decRmIn (p : PrefixState) (o : RmOperand) (s : State) : Outcome :=
  runAdmitted p (.decRm o) s
    (incDecPlace .dec (operandSize s.cfg p) (placeOf s p (BitVec.ofNat 64 (pcNext p (.decRm o) s)) o) s)

/-- INC r16/32 with no prefix. -/
def execIncR (n : BitVec 3) (s : State) : Outcome := guarded (.incR n) s (incRIn .empty n s)

/-- DEC r16/32 with no prefix. -/
def execDecR (n : BitVec 3) (s : State) : Outcome := guarded (.decR n) s (decRIn .empty n s)

/-- INC r/m with no prefix. -/
def execIncRm (o : RmOperand) (s : State) : Outcome := guarded (.incRm o) s (incRmIn .empty o s)

/-- DEC r/m with no prefix. -/
def execDecRm (o : RmOperand) (s : State) : Outcome := guarded (.decRm o) s (decRmIn .empty o s)

end Sys2Proof.Machine
end

