-- ==== Sys2Proof/Machine/Mov.lean ====
section
/-! DEFINITION. The MOV forms the spec admits (spec/45_mov.md). `…In p` is the instruction after the
prefixes `p`. No MOV writes a flag. -/

namespace Sys2Proof.Machine

/-- The accumulator at width `w` takes the value at a moffset (R302, R303); the default segment is DS (R301). -/
def loadAccumulator (p : PrefixState) (w : Width) (a : Const) (s : State) : Except Refusal State :=
  match s.load (segmentFor p .ds) a.zext w with
  | .error r => .error r
  | .ok v => .ok (s.writeReg 0 w v)

/-- The value at a moffset takes the accumulator at width `w` (R304, R305). -/
def storeAccumulator (p : PrefixState) (w : Width) (a : Const) (s : State) : Except Refusal State :=
  s.store (segmentFor p .ds) a.zext w (s.readReg 0 w)

/-- The value of an immediate at the operand size `w`, which is its own size (R306). -/
def immediate (w : Width) (v : Const) : BitVec w.bits := BitVec.setWidth w.bits v.zext

/-- MOV AL, moffs8 (R302). A byte operation: 66H and REX.W have no effect (R138). -/
def movAlMoffsIn (p : PrefixState) (a : Const) (s : State) : Outcome :=
  runAdmitted p (.movAlMoffs a) s (loadAccumulator p .w8 a s)

/-- MOV eAX, moffs (R303). -/
def movEaxMoffsIn (p : PrefixState) (a : Const) (s : State) : Outcome :=
  runAdmitted p (.movEaxMoffs a) s (loadAccumulator p (operandSize s.cfg p) a s)

/-- MOV moffs8, AL (R304). -/
def movMoffsAlIn (p : PrefixState) (a : Const) (s : State) : Outcome :=
  runAdmitted p (.movMoffsAl a) s (storeAccumulator p .w8 a s)

/-- MOV moffs, eAX (R305). -/
def movMoffsEaxIn (p : PrefixState) (a : Const) (s : State) : Outcome :=
  runAdmitted p (.movMoffsEax a) s (storeAccumulator p (operandSize s.cfg p) a s)

/-- MOV r, imm (R306): the register number is extended by REX.B. -/
def movRImmIn (p : PrefixState) (n : BitVec 3) (v : Const) (s : State) : Outcome :=
  runAdmitted p (.movRImm n v) s
    (.ok (s.writeReg (regNum p.rexBits.b n) (operandSize s.cfg p) (immediate (operandSize s.cfg p) v)))

/-- MOV AL, moffs8 with no prefix. -/
def execMovAlMoffs (a : Const) (s : State) : Outcome := guarded (.movAlMoffs a) s (movAlMoffsIn .empty a s)

/-- MOV eAX, moffs with no prefix. -/
def execMovEaxMoffs (a : Const) (s : State) : Outcome := guarded (.movEaxMoffs a) s (movEaxMoffsIn .empty a s)

/-- MOV moffs8, AL with no prefix. -/
def execMovMoffsAl (a : Const) (s : State) : Outcome := guarded (.movMoffsAl a) s (movMoffsAlIn .empty a s)

/-- MOV moffs, eAX with no prefix. -/
def execMovMoffsEax (a : Const) (s : State) : Outcome := guarded (.movMoffsEax a) s (movMoffsEaxIn .empty a s)

/-- MOV r, imm with no prefix. -/
def execMovRImm (n : BitVec 3) (v : Const) (s : State) : Outcome :=
  guarded (.movRImm n v) s (movRImmIn .empty n v s)

end Sys2Proof.Machine
end

