-- ==== Sys2Proof/Machine/Simd.lean ====
section
/-! DEFINITION. CVTDQ2PD and PHADDW (spec/41_simd_mandatory_prefix.md): decoded, then refused, since the source
gives them no meaning (R192, R194). The registers they name, and the 8 or 16
bytes of memory, are `operandsOf` (Operands.lean). -/

namespace Sys2Proof.Machine

/-- CVTDQ2PD (R190 to R192). -/
def cvtdq2pdIn (p : PrefixState) (rx : Option Rex) (reg : BitVec 3) (o : RmOperand) (s : State) : Outcome :=
  runDecodeOnly "CVTDQ2PD" p (.cvtdq2pd rx reg o) s

/-- PHADDW on XMM registers (R193, R194). -/
def phaddwIn (p : PrefixState) (rx : Option Rex) (reg : BitVec 3) (o : RmOperand) (s : State) : Outcome :=
  runDecodeOnly "PHADDW" p (.phaddw rx reg o) s

/-- CVTDQ2PD with no prefix but its mandatory one. -/
def execCvtdq2pd (rx : Option Rex) (reg : BitVec 3) (o : RmOperand) (s : State) : Outcome :=
  guarded (.cvtdq2pd rx reg o) s (cvtdq2pdIn .empty rx reg o s)

/-- PHADDW with no prefix but its mandatory one. -/
def execPhaddw (rx : Option Rex) (reg : BitVec 3) (o : RmOperand) (s : State) : Outcome :=
  guarded (.phaddw rx reg o) s (phaddwIn .empty rx reg o s)

end Sys2Proof.Machine
end

