-- ==== Sys2Proof/Machine/Strings.lean ====
section
/-! DEFINITION. The string and I/O instructions (spec/40_prefix_governed.md R172 to R178): decoded, with or
without a repeat prefix (R100), then refused: the source gives them no operands and no meaning, and no
repetition (R182). -/

namespace Sys2Proof.Machine

/-- MOVS m8 after the prefixes `p` (R172). -/
def movsBIn (p : PrefixState) (s : State) : Outcome := runDecodeOnly "MOVS" p .movsB s

/-- MOVS m8 with no prefix (R172). -/
def execMovsB (s : State) : Outcome := guarded .movsB s (movsBIn .empty s)

/-- MOVS m16/32/64 after the prefixes `p` (R172). -/
def movsVIn (p : PrefixState) (s : State) : Outcome := runDecodeOnly "MOVS" p .movsV s

/-- MOVS m16/32/64 with no prefix (R172). -/
def execMovsV (s : State) : Outcome := guarded .movsV s (movsVIn .empty s)

/-- CMPS m8 after the prefixes `p` (R173). -/
def cmpsBIn (p : PrefixState) (s : State) : Outcome := runDecodeOnly "CMPS" p .cmpsB s

/-- CMPS m8 with no prefix (R173). -/
def execCmpsB (s : State) : Outcome := guarded .cmpsB s (cmpsBIn .empty s)

/-- CMPS m16/32/64 after the prefixes `p` (R173). -/
def cmpsVIn (p : PrefixState) (s : State) : Outcome := runDecodeOnly "CMPS" p .cmpsV s

/-- CMPS m16/32/64 with no prefix (R173). -/
def execCmpsV (s : State) : Outcome := guarded .cmpsV s (cmpsVIn .empty s)

/-- STOS m8 after the prefixes `p` (R178). -/
def stosBIn (p : PrefixState) (s : State) : Outcome := runDecodeOnly "STOS" p .stosB s

/-- STOS m8 with no prefix (R178). -/
def execStosB (s : State) : Outcome := guarded .stosB s (stosBIn .empty s)

/-- STOS m16/32/64 after the prefixes `p` (R178). -/
def stosVIn (p : PrefixState) (s : State) : Outcome := runDecodeOnly "STOS" p .stosV s

/-- STOS m16/32/64 with no prefix (R178). -/
def execStosV (s : State) : Outcome := guarded .stosV s (stosVIn .empty s)

/-- LODS m8 after the prefixes `p` (R175). -/
def lodsBIn (p : PrefixState) (s : State) : Outcome := runDecodeOnly "LODS" p .lodsB s

/-- LODS m8 with no prefix (R175). -/
def execLodsB (s : State) : Outcome := guarded .lodsB s (lodsBIn .empty s)

/-- LODS m16/32/64 after the prefixes `p` (R175). -/
def lodsVIn (p : PrefixState) (s : State) : Outcome := runDecodeOnly "LODS" p .lodsV s

/-- LODS m16/32/64 with no prefix (R175). -/
def execLodsV (s : State) : Outcome := guarded .lodsV s (lodsVIn .empty s)

/-- SCAS m8 after the prefixes `p` (R174). -/
def scasBIn (p : PrefixState) (s : State) : Outcome := runDecodeOnly "SCAS" p .scasB s

/-- SCAS m8 with no prefix (R174). -/
def execScasB (s : State) : Outcome := guarded .scasB s (scasBIn .empty s)

/-- SCAS m16/32/64 after the prefixes `p` (R174). -/
def scasVIn (p : PrefixState) (s : State) : Outcome := runDecodeOnly "SCAS" p .scasV s

/-- SCAS m16/32/64 with no prefix (R174). -/
def execScasV (s : State) : Outcome := guarded .scasV s (scasVIn .empty s)

/-- INS m8 after the prefixes `p` (R176). -/
def insBIn (p : PrefixState) (s : State) : Outcome := runDecodeOnly "INS" p .insB s

/-- INS m8 with no prefix (R176). -/
def execInsB (s : State) : Outcome := guarded .insB s (insBIn .empty s)

/-- INS m16/32 after the prefixes `p` (R176). -/
def insVIn (p : PrefixState) (s : State) : Outcome := runDecodeOnly "INS" p .insV s

/-- INS m16/32 with no prefix (R176). -/
def execInsV (s : State) : Outcome := guarded .insV s (insVIn .empty s)

/-- OUTS m8 after the prefixes `p` (R177). -/
def outsBIn (p : PrefixState) (s : State) : Outcome := runDecodeOnly "OUTS" p .outsB s

/-- OUTS m8 with no prefix (R177). -/
def execOutsB (s : State) : Outcome := guarded .outsB s (outsBIn .empty s)

/-- OUTS m16/32 after the prefixes `p` (R177). -/
def outsVIn (p : PrefixState) (s : State) : Outcome := runDecodeOnly "OUTS" p .outsV s

/-- OUTS m16/32 with no prefix (R177). -/
def execOutsV (s : State) : Outcome := guarded .outsV s (outsVIn .empty s)

end Sys2Proof.Machine
end

