-- ==== Sys2Proof/Machine/System.lean ====
section
/-! DEFINITION. The moves to and from control and debug registers (spec/46_control_debug_regs.md): the number of
the register, the #UD check, and the refusal of everything else (R320 to R323). The registers they name, the general
register in r/m among them, are `operandsOf` (Operands.lean). -/

namespace Sys2Proof.Machine

/-- The control or debug register a ModR/M reg field names: extended by REX.R, not REX.B (R321). -/
def crdrNumber (p : PrefixState) (reg : BitVec 3) : BitVec 4 := regNum p.rexBits.r reg

/-- Whether register n is one that an access may name: CR0 to CR7 and DR0 to DR7 are not asked about, of the
others the configuration says which are implemented (R320, R323). -/
def implemented (impl : Vector Bool 8) (n : BitVec 4) : Bool :=
  n.toNat < 8 || impl[n.toNat % 8]'(Nat.mod_lt _ (by decide))

/-- A move to or from a control or debug register (R320): the prefix check (R153), #UD for a register
that is not implemented (R323), else the refusal. -/
def crdrMove (impl : Vector Bool 8) (p : PrefixState) (body : Instr) (reg : BitVec 3) (s : State) : Outcome :=
  match prefixRefusal (attrs body) p s.pc with
  | some r => .refused r
  | none =>
    if implemented impl (crdrNumber p reg) then .refused (.semanticsNotInSource "MOV CR/DR" s.pc)
    else raiseInvalidOpcode s

/-- MOV r, CRn after the prefixes `p` (R320). -/
def movRCrIn (p : PrefixState) (mod : BitVec 2) (reg rm : BitVec 3) (s : State) : Outcome :=
  crdrMove s.cfg.implCR p (.movRCr mod reg rm) reg s

/-- MOV r, CRn with no prefix. -/
def execMovRCr (mod : BitVec 2) (reg rm : BitVec 3) (s : State) : Outcome :=
  guarded (.movRCr mod reg rm) s (movRCrIn .empty mod reg rm s)

/-- MOV r, DRn after the prefixes `p` (R320). -/
def movRDrIn (p : PrefixState) (mod : BitVec 2) (reg rm : BitVec 3) (s : State) : Outcome :=
  crdrMove s.cfg.implDR p (.movRDr mod reg rm) reg s

/-- MOV r, DRn with no prefix. -/
def execMovRDr (mod : BitVec 2) (reg rm : BitVec 3) (s : State) : Outcome :=
  guarded (.movRDr mod reg rm) s (movRDrIn .empty mod reg rm s)

/-- MOV CRn, r after the prefixes `p` (R320). -/
def movCrRIn (p : PrefixState) (mod : BitVec 2) (reg rm : BitVec 3) (s : State) : Outcome :=
  crdrMove s.cfg.implCR p (.movCrR mod reg rm) reg s

/-- MOV CRn, r with no prefix. -/
def execMovCrR (mod : BitVec 2) (reg rm : BitVec 3) (s : State) : Outcome :=
  guarded (.movCrR mod reg rm) s (movCrRIn .empty mod reg rm s)

/-- MOV DRn, r after the prefixes `p` (R320). -/
def movDrRIn (p : PrefixState) (mod : BitVec 2) (reg rm : BitVec 3) (s : State) : Outcome :=
  crdrMove s.cfg.implDR p (.movDrR mod reg rm) reg s

/-- MOV DRn, r with no prefix. -/
def execMovDrR (mod : BitVec 2) (reg rm : BitVec 3) (s : State) : Outcome :=
  guarded (.movDrR mod reg rm) s (movDrRIn .empty mod reg rm s)

end Sys2Proof.Machine
end

