-- ==== Sys2Proof/Machine/Prefixes.lean ====
section
/-! DEFINITION. The prefix and escape rows (spec/30_encoding.md R83 to R105, R121 to R135): what an instruction
that carries a prefix does. -/

namespace Sys2Proof.Machine

/-- The escape byte with an opcode that no row lists: not shown (R110, R152, log 10). -/
def twoByteEscapeIn (p : PrefixState) (b2 : Byte) (b3 : Option Byte) (s : State) : Outcome :=
  .refused (.notShown (0x0F#8 :: b2 :: b3.toList) (p.mandatory.map Legacy.byte) s.pc)

/-- The escape byte with no prefix. -/
def execTwoByteEscape (b2 : Byte) (b3 : Option Byte) (s : State) : Outcome :=
  guarded (.twoByteEscape b2 b3) s (twoByteEscapeIn .empty b2 b3 s)

/-- What an instruction does after the prefixes `p`: a further prefix joins them (R150 step 1), and the opcode
runs under all of them. -/
def execAfter (p : PrefixState) : Instr → State → Outcome
  | .lock i, s => execAfter (p.push (.legacy .lock)) i s
  | .repne i, s => execAfter (p.push (.legacy .repne)) i s
  | .rep i, s => execAfter (p.push (.legacy .rep)) i s
  | .csOverride i, s => execAfter (p.push (.legacy (.seg .cs))) i s
  | .ssOverride i, s => execAfter (p.push (.legacy (.seg .ss))) i s
  | .dsOverride i, s => execAfter (p.push (.legacy (.seg .ds))) i s
  | .esOverride i, s => execAfter (p.push (.legacy (.seg .es))) i s
  | .fsOverride i, s => execAfter (p.push (.legacy (.seg .fs))) i s
  | .gsOverride i, s => execAfter (p.push (.legacy (.seg .gs))) i s
  | .opSizeOverride i, s => execAfter (p.push (.legacy .opSize)) i s
  | .addrSizeOverride i, s => execAfter (p.push (.legacy .addrSize)) i s
  | .rex r i, s => execAfter (p.push (.rex r)) i s
  | .twoByteEscape b2 b3, s => twoByteEscapeIn p b2 b3 s
  | .incR n, s => incRIn p n s
  | .decR n, s => decRIn p n s
  | .incRm o, s => incRmIn p o s
  | .decRm o, s => decRmIn p o s
  | .movAlMoffs a, s => movAlMoffsIn p a s
  | .movEaxMoffs a, s => movEaxMoffsIn p a s
  | .movMoffsAl a, s => movMoffsAlIn p a s
  | .movMoffsEax a, s => movMoffsEaxIn p a s
  | .movRImm n v, s => movRImmIn p n v s
  | .cvtdq2pd rx reg o, s => cvtdq2pdIn p rx reg o s
  | .phaddw rx reg o, s => phaddwIn p rx reg o s
  | .movsB, s => movsBIn p s
  | .movsV, s => movsVIn p s
  | .cmpsB, s => cmpsBIn p s
  | .cmpsV, s => cmpsVIn p s
  | .stosB, s => stosBIn p s
  | .stosV, s => stosVIn p s
  | .lodsB, s => lodsBIn p s
  | .lodsV, s => lodsVIn p s
  | .scasB, s => scasBIn p s
  | .scasV, s => scasVIn p s
  | .insB, s => insBIn p s
  | .insV, s => insVIn p s
  | .outsB, s => outsBIn p s
  | .outsV, s => outsVIn p s
  | .jccRel8 cc rel, s => jccRel8In p cc rel s
  | .jccRel cc rel, s => jccRelIn p cc rel s
  | .movRCr mod reg rm, s => movRCrIn p mod reg rm s
  | .movRDr mod reg rm, s => movRDrIn p mod reg rm s
  | .movCrR mod reg rm, s => movCrRIn p mod reg rm s
  | .movDrR mod reg rm, s => movDrRIn p mod reg rm s

/-- LOCK (R84): every instruction that carries it is refused (R171). -/
def execLock (i : Instr) (s : State) : Outcome :=
  guarded (.lock i) s (execAfter (PrefixState.empty.push (.legacy .lock)) i s)

/-- REPNE/REPNZ (R85): only the string and I/O instructions may carry it (R100). -/
def execRepne (i : Instr) (s : State) : Outcome :=
  guarded (.repne i) s (execAfter (PrefixState.empty.push (.legacy .repne)) i s)

/-- REP, REPE/REPZ (R86): only the string and I/O instructions may carry it (R100). -/
def execRep (i : Instr) (s : State) : Outcome :=
  guarded (.rep i) s (execAfter (PrefixState.empty.push (.legacy .rep)) i s)

/-- CS override (R87, R54), or the not-taken hint on Jcc (R94). -/
def execCsOverride (i : Instr) (s : State) : Outcome :=
  guarded (.csOverride i) s (execAfter (PrefixState.empty.push (.legacy (.seg .cs))) i s)

/-- SS override (R88, R54). -/
def execSsOverride (i : Instr) (s : State) : Outcome :=
  guarded (.ssOverride i) s (execAfter (PrefixState.empty.push (.legacy (.seg .ss))) i s)

/-- DS override (R89, R54), or the taken hint on Jcc (R95). -/
def execDsOverride (i : Instr) (s : State) : Outcome :=
  guarded (.dsOverride i) s (execAfter (PrefixState.empty.push (.legacy (.seg .ds))) i s)

/-- ES override (R90, R54). -/
def execEsOverride (i : Instr) (s : State) : Outcome :=
  guarded (.esOverride i) s (execAfter (PrefixState.empty.push (.legacy (.seg .es))) i s)

/-- FS override (R91, R54). -/
def execFsOverride (i : Instr) (s : State) : Outcome :=
  guarded (.fsOverride i) s (execAfter (PrefixState.empty.push (.legacy (.seg .fs))) i s)

/-- GS override (R92, R54). -/
def execGsOverride (i : Instr) (s : State) : Outcome :=
  guarded (.gsOverride i) s (execAfter (PrefixState.empty.push (.legacy (.seg .gs))) i s)

/-- Operand-size override (R97): the other operand size (R136, R137). -/
def execOpSizeOverride (i : Instr) (s : State) : Outcome :=
  guarded (.opSizeOverride i) s (execAfter (PrefixState.empty.push (.legacy .opSize)) i s)

/-- Address-size override (R98): the other address size (R140, R141). -/
def execAddrSizeOverride (i : Instr) (s : State) : Outcome :=
  guarded (.addrSizeOverride i) s (execAfter (PrefixState.empty.push (.legacy .addrSize)) i s)

/-- REX (R123): 64-bit operands and register extension, where it stands immediately before the opcode (R124). -/
def execRex (r : Rex) (i : Instr) (s : State) : Outcome :=
  guarded (.rex r i) s (execAfter (PrefixState.empty.push (.rex r)) i s)

end Sys2Proof.Machine
end

