-- ==== Sys2Proof/Machine/Dispatch.lean ====
section
/-! DEFINITION. One arm per row of spec/opcode_table.json. -/

namespace Sys2Proof.Machine

def exec (i : Instr) (s : State) : Host.Outcome State Fault Refusal :=
  match i with
  | .lock j => Sys2Proof.Machine.execLock j s
  | .repne j => Sys2Proof.Machine.execRepne j s
  | .rep j => Sys2Proof.Machine.execRep j s
  | .csOverride j => Sys2Proof.Machine.execCsOverride j s
  | .ssOverride j => Sys2Proof.Machine.execSsOverride j s
  | .dsOverride j => Sys2Proof.Machine.execDsOverride j s
  | .esOverride j => Sys2Proof.Machine.execEsOverride j s
  | .fsOverride j => Sys2Proof.Machine.execFsOverride j s
  | .gsOverride j => Sys2Proof.Machine.execGsOverride j s
  | .opSizeOverride j => Sys2Proof.Machine.execOpSizeOverride j s
  | .addrSizeOverride j => Sys2Proof.Machine.execAddrSizeOverride j s
  | .rex r j => Sys2Proof.Machine.execRex r j s
  | .twoByteEscape b2 b3 => Sys2Proof.Machine.execTwoByteEscape b2 b3 s
  | .incR n => Sys2Proof.Machine.execIncR n s
  | .decR n => Sys2Proof.Machine.execDecR n s
  | .incRm o => Sys2Proof.Machine.execIncRm o s
  | .decRm o => Sys2Proof.Machine.execDecRm o s
  | .movAlMoffs a => Sys2Proof.Machine.execMovAlMoffs a s
  | .movEaxMoffs a => Sys2Proof.Machine.execMovEaxMoffs a s
  | .movMoffsAl a => Sys2Proof.Machine.execMovMoffsAl a s
  | .movMoffsEax a => Sys2Proof.Machine.execMovMoffsEax a s
  | .movRImm n v => Sys2Proof.Machine.execMovRImm n v s
  | .cvtdq2pd rx reg o => Sys2Proof.Machine.execCvtdq2pd rx reg o s
  | .phaddw rx reg o => Sys2Proof.Machine.execPhaddw rx reg o s
  | .movsB => Sys2Proof.Machine.execMovsB s
  | .movsV => Sys2Proof.Machine.execMovsV s
  | .cmpsB => Sys2Proof.Machine.execCmpsB s
  | .cmpsV => Sys2Proof.Machine.execCmpsV s
  | .stosB => Sys2Proof.Machine.execStosB s
  | .stosV => Sys2Proof.Machine.execStosV s
  | .lodsB => Sys2Proof.Machine.execLodsB s
  | .lodsV => Sys2Proof.Machine.execLodsV s
  | .scasB => Sys2Proof.Machine.execScasB s
  | .scasV => Sys2Proof.Machine.execScasV s
  | .insB => Sys2Proof.Machine.execInsB s
  | .insV => Sys2Proof.Machine.execInsV s
  | .outsB => Sys2Proof.Machine.execOutsB s
  | .outsV => Sys2Proof.Machine.execOutsV s
  | .jccRel8 cc rel => Sys2Proof.Machine.execJccRel8 cc rel s
  | .jccRel cc rel => Sys2Proof.Machine.execJccRel cc rel s
  | .movRCr mod reg rm => Sys2Proof.Machine.execMovRCr mod reg rm s
  | .movRDr mod reg rm => Sys2Proof.Machine.execMovRDr mod reg rm s
  | .movCrR mod reg rm => Sys2Proof.Machine.execMovCrR mod reg rm s
  | .movDrR mod reg rm => Sys2Proof.Machine.execMovDrR mod reg rm s

end Sys2Proof.Machine
end

