-- ==== Sys2Proof/Machine/Step.lean ====
section
/-! DEFINITION. One step: fetch, decode, run; and the placing of a word where the step fetches it (log 11). -/

namespace Sys2Proof.Machine

/-- One step of the machine: the bytes at the instruction pointer are fetched (R59) and decoded (R150), and the
instruction runs. -/
def step (s : State) : Host.Outcome State Fault Refusal :=
  match decode s.cfg s.fetch.1 with
  | .error e => .refused (decodeRefusal s.pc s.fetch.2 e)
  | .ok i => exec i s

/-- The state with a program placed from outside at the instruction pointer (log 11): the bytes of a word of
spec/opcode_table.json, and zeros up to 15 bytes, which the configuration lists as the program's (R71). -/
def State.withFetchWord (s : State) (nbits w : Nat) : State :=
  { s with
    mem := Memory.writeAll s.mem (s.locs .cs s.pc 15) (tableBytes nbits w)
    cfg := { s.cfg with code := s.locs .cs s.pc 15 ++ s.cfg.code } }

end Sys2Proof.Machine
end

