-- ==== Sys2Proof/Safety.lean ====
section
/-! DEFINITION. What statements about the machine speak of: an instruction that is ready to run, what a write
of a register and the flags of INC and DEC are, bit by bit, what a step leaves unchanged, and the invariant. -/

namespace Sys2Proof.Machine

/-! ## When an admitted instruction runs -/

/-- The opcodes that can complete (R15, D1): INC, DEC and the MOV forms. -/
def admitted : Instr → Bool
  | .incR _ | .decR _ | .incRm _ | .decRm _ | .movAlMoffs _ | .movEaxMoffs _ | .movMoffsAl _
  | .movMoffsEax _ | .movRImm _ _ => true
  | _ => false

/-- The string and I/O instructions, the ones a repeat prefix may stand before (R100). -/
def stringOrIo : Instr → Bool
  | .movsB | .movsV | .cmpsB | .cmpsV | .stosB | .stosV | .lodsB | .lodsV | .scasB | .scasV
  | .insB | .insV | .outsB | .outsV => true
  | _ => false

/-- The legacy prefixes an admitted instruction may carry (R153): no LOCK and no repeat prefix, and, where it
has no memory operand, no segment override and no 67H. -/
def legalPrefixes (memOperand : Bool) (ps : List Legacy) : Bool :=
  ps.all fun l => match l with
    | .lock | .repne | .rep => false
    | .seg _ | .addrSize => memOperand
    | .opSize => true

/-- An instruction whose opcode is admitted is ready to run: some bytes decode to it, its prefixes are legal,
and it ends at or before the top of the instruction-pointer range (R153, R32). -/
abbrev Ready (memOperand : Bool) (i : Instr) (s : State) : Prop :=
  wellFormed s.cfg i = true ∧ legalPrefixes memOperand i.prefixState.legacy = true ∧
    s.pc.toNat + i.length ≤ s.cfg.top

/-! ## Writing a register, bit by bit (R27) -/

/-- Register `n` of `t` is that of `s` after a write of width `w` (R27): the written bits are `v`'s, a 32-bit
write in 64-bit mode clears bits 63:32, and a write of 8 or 16 bits leaves the rest of the register as before. -/
def WroteReg (s t : State) (n : BitVec 4) (w : Width) (v : BitVec w.bits) : Prop :=
  (∀ i, i < w.bits → (t.gpr n).getLsbD i = v.getLsbD i) ∧
  (w = .w32 → s.cfg.mode64 = true → ∀ i, 32 ≤ i → (t.gpr n).getLsbD i = false) ∧
  (w ≠ .w32 → ∀ i, w.bits ≤ i → (t.gpr n).getLsbD i = (s.gpr n).getLsbD i)

/-- Every general register but `n` is the same. -/
def SameRegsBut (n : BitVec 4) (s t : State) : Prop := ∀ m, m ≠ n → t.gpr m = s.gpr m

/-- Every general register is the same. -/
def SameRegs (s t : State) : Prop := ∀ m, t.gpr m = s.gpr m

/-! ## The flags (R33, R284) -/

/-- Every bit of EFLAGS/RFLAGS is the same. -/
def SameFlags (s t : State) : Prop := t.rflags = s.rflags

/-- CF (bit 0) and every other bit of EFLAGS/RFLAGS that is not PF (2), AF (4), ZF (6), SF (7) or OF (11) is the
same (R33, R284). -/
def SameFlagsBut5 (s t : State) : Prop :=
  ∀ i, i ≠ 2 → i ≠ 4 → i ≠ 6 → i ≠ 7 → i ≠ 11 → t.rflags.getLsbD i = s.rflags.getLsbD i

/-- ZF (bit 6), SF (bit 7) and PF (bit 2) are those of the result `r` (R33, R284). -/
def ResultFlags {w : Nat} (r : BitVec w) (t : State) : Prop :=
  t.rflags.getLsbD 6 = decide (r.toNat = 0) ∧
  t.rflags.getLsbD 7 = r.getLsbD (w - 1) ∧
  t.rflags.getLsbD 2 = decide ((List.range 8).countP (fun i => r.getLsbD i) % 2 = 0)

/-- The flags of INC on the operand `x`: those of the result, AF (bit 4) and OF (bit 11) (R33, R284). -/
def IncFlags {w : Nat} (x : BitVec w) (t : State) : Prop :=
  ResultFlags (x + 1#w) t ∧
  t.rflags.getLsbD 4 = decide (x.toNat % 16 = 15) ∧
  t.rflags.getLsbD 11 = decide (x.toNat = 2 ^ (w - 1) - 1)

/-- The flags of DEC on the operand `x`: those of the result, AF (bit 4) and OF (bit 11) (R33, R284). -/
def DecFlags {w : Nat} (x : BitVec w) (t : State) : Prop :=
  ResultFlags (x - 1#w) t ∧
  t.rflags.getLsbD 4 = decide (x.toNat % 16 = 0) ∧
  t.rflags.getLsbD 11 = decide (x.toNat = 2 ^ (w - 1))

/-! ## Frames -/

/-- What no admitted instruction changes: the configuration, the segment registers, MMX, XMM, control
and debug registers (R9, R20). -/
def SameSpecial (s t : State) : Prop :=
  t.cfg = s.cfg ∧ t.segSel = s.segSel ∧ t.mmx = s.mmx ∧ t.xmm = s.xmm ∧ t.cr = s.cr ∧ t.dr = s.dr

/-- Every location reads as before. -/
def SameMemory (s t : State) : Prop := ∀ a, Memory.read t.mem a = Memory.read s.mem a

/-- Every location outside `as` reads as before. -/
def SameMemoryBut (as : List Nat) (s t : State) : Prop :=
  ∀ a, a ∉ as → Memory.read t.mem a = Memory.read s.mem a

/-- The bytes at an offset of a segment are those of `v`, least significant first (R58). -/
abbrev HoldsAt (t : State) (seg : Seg) (off : Word) (w : Width) (v : BitVec w.bits) : Prop :=
  ∀ k, k < w.bytes → Memory.read t.mem (t.loc seg off k) = some (v.extractLsb' (8 * k) 8)

/-- A store of `w` at an offset of a segment touches no byte of the program (R71). -/
abbrev MayStore (s : State) (seg : Seg) (off : Word) (w : Width) : Prop :=
  ∀ k, k < w.bytes → s.loc seg off k ∉ s.cfg.code

/-- The instruction pointer of `t` is the address of the byte after `i` at `s` (R31), where that is still an
address. (At the very top it wraps, log 7.) -/
def AdvancedBy (i : Instr) (s t : State) : Prop :=
  s.pc.toNat + i.length < s.cfg.top → t.pc.toNat = s.pc.toNat + i.length

/-! ## What the admitted instructions do, frame included -/

/-- The operand after INC or DEC: one more or one less, truncated to its width (R280 to R283). -/
def bumped (op : ArithOp) {w : Nat} (x : BitVec w) : BitVec w :=
  match op with
  | .inc => x + 1#w
  | .dec => x - 1#w

/-- The flags after INC or DEC on the operand `x` (R284). -/
def BumpFlags (op : ArithOp) {w : Nat} (x : BitVec w) (t : State) : Prop :=
  match op with
  | .inc => IncFlags x t
  | .dec => DecFlags x t

/-- INC or DEC on register `n` at width `w`: the register, the five flags and the instruction pointer change, and
nothing else. -/
def BumpReg (op : ArithOp) (n : BitVec 4) (w : Width) (i : Instr) (s t : State) : Prop :=
  WroteReg s t n w (bumped op ((s.gpr n).setWidth w.bits)) ∧ SameRegsBut n s t ∧
  BumpFlags op ((s.gpr n).setWidth w.bits) t ∧ SameFlagsBut5 s t ∧
  SameMemory s t ∧ SameSpecial s t ∧ AdvancedBy i s t

/-- INC or DEC on the value `x` in memory: its bytes, the five flags and the instruction pointer change, and
nothing else. -/
def BumpMem (op : ArithOp) (seg : Seg) (off : Word) (w : Width) (x : BitVec w.bits) (i : Instr)
    (s t : State) : Prop :=
  HoldsAt t seg off w (bumped op x) ∧ SameMemoryBut (s.locs seg off w.bytes) s t ∧
  BumpFlags op x t ∧ SameFlagsBut5 s t ∧
  SameRegs s t ∧ SameSpecial s t ∧ AdvancedBy i s t

/-- A register takes the value `v`: it and the instruction pointer change, and nothing else. -/
def LoadReg (n : BitVec 4) (w : Width) (v : BitVec w.bits) (i : Instr) (s t : State) : Prop :=
  WroteReg s t n w v ∧ SameRegsBut n s t ∧ SameFlags s t ∧ SameMemory s t ∧ SameSpecial s t ∧ AdvancedBy i s t

/-- Bytes of memory take the value `v`: they and the instruction pointer change, and nothing else. -/
def StoreMem (seg : Seg) (off : Word) (w : Width) (v : BitVec w.bits) (i : Instr) (s t : State) : Prop :=
  HoldsAt t seg off w v ∧ SameMemoryBut (s.locs seg off w.bytes) s t ∧ SameRegs s t ∧ SameFlags s t ∧
  SameSpecial s t ∧ AdvancedBy i s t

/-! ## Code, prefixes and addresses -/

/-- The bytes `bs` stand at the instruction pointer, as bytes of the program (R59, R71, log 6). -/
abbrev CodeAt (s : State) (bs : List Byte) : Prop :=
  ∀ k (h : k < bs.length),
    Memory.read s.mem (s.loc .cs s.pc k) = some bs[k] ∧ s.loc .cs s.pc k ∈ s.cfg.code

/-- Prefixes some instruction may begin with: REX only in 64-bit mode (R123), and once (R135). -/
def PrefixesRead (c : Config) (ps : List Prefix) : Prop :=
  (∀ r, Prefix.rex r ∈ ps → c.mode64 = true) ∧ (PrefixState.ofList ps).rexCount ≤ 1

/-- An instruction carries a legacy prefix. -/
abbrev Carries (i : Instr) (l : Legacy) : Prop := l ∈ i.prefixState.legacy

/-- The address of the byte after an instruction, `pc_next` (R31). -/
def nextPc (i : Instr) (s : State) : Word := BitVec.ofNat 64 (s.pc.toNat + i.length)

/-- A displacement as a signed number (R204, R213, R251). -/
def dispInt : Disp → Int
  | .none => 0
  | .d8 v => v.toInt
  | .d16 v => v.toInt
  | .d32 v => v.toInt

/-! ## The invariant -/

/-- The invariant every step keeps: memory is in its canonical form (log 4) inside the address space, and outside
64-bit mode the instruction pointer has 32 bits (R32). -/
def State.inv (s : State) : Bool :=
  Memory.wf s.mem && (s.mem.all fun c => c.1 < s.cfg.top) && (s.cfg.mode64 || s.rip.toNat < 2 ^ 32)

end Sys2Proof.Machine
end

