-- ==== Sys2Proof/Certificates/Slice0/Obligations.lean ====
section
/-! DEFINITION. The statements for the provers. Each docstring names the rules of spec/ it rests on. -/

open Sys2Proof Sys2Proof.Machine

/-! ## Decoding and encoding -/

/-- Decoding the encoding of a well-formed instruction, whatever follows it, gives the instruction (R80, R150). -/
def Obligations.DecodeInvertsEncode : Prop :=
  ∀ (c : Config) (i : Instr) (rest : List Byte),
    wellFormed c i = true → decode c (encode i ++ rest) = .ok i

/-- Whatever decodes is well formed, and its bytes are its encoding: no two byte strings are one instruction (R81, R150). -/
def Obligations.DecodedBytesAreTheEncoding : Prop :=
  ∀ (c : Config) (bs : List Byte) (i : Instr),
    decode c bs = .ok i → wellFormed c i = true ∧ ∃ rest, bs = encode i ++ rest

/-- At most one row of the opcode table matches any input (R152). -/
def Obligations.AtMostOneRowMatches : Prop :=
  ∀ (m64 : Bool) (mp : Option Legacy) (op : List Byte) (reg : BitVec 3) (r₁ r₂ : OpRow),
    r₁ ∈ opRows → r₂ ∈ opRows →
    r₁.matchesAll m64 mp op reg = true → r₂.matchesAll m64 mp op reg = true → r₁ = r₂

/-- The legacy prefixes are eleven bytes, each of which is the prefix that R84 to R98 say it is, and the REX prefixes are
40H to 4FH in 64-bit mode only (R83, R123, R125). -/
def Obligations.PrefixBytesAreRecognised : Prop :=
  let named (b : Byte) : Option Legacy :=
    if b = 0xF0 then some .lock else if b = 0xF2 then some .repne else if b = 0xF3 then some .rep
    else if b = 0x2E then some (.seg .cs) else if b = 0x36 then some (.seg .ss) else if b = 0x3E then some (.seg .ds)
    else if b = 0x26 then some (.seg .es) else if b = 0x64 then some (.seg .fs) else if b = 0x65 then some (.seg .gs)
    else if b = 0x66 then some .opSize else if b = 0x67 then some .addrSize else none
  ∀ (m64 : Bool) (b : Byte),
    (∀ l, Prefix.ofByte m64 b = some (.legacy l) ↔ named b = some l) ∧
    (∀ w r x y : Bool, Prefix.ofByte m64 b = some (.rex ⟨w, r, x, y⟩) ↔
      m64 = true ∧ b.toNat = 0x40 + 8 * w.toNat + 4 * r.toNat + 2 * x.toNat + y.toNat)

/-- An instruction has 1 to 15 bytes; where fifteen bytes are prefixes, so that a sixteenth byte would be needed, the
decoder answers `tooLong` and the step is refused (R82, a decision of the spec; log 13). No other bytes need a
sixteenth: prefixes of four groups and a REX leave at most fourteen. -/
def Obligations.SixteenthByteIsRefused : Prop :=
  (∀ (c : Config) (bs : List Byte) (i : Instr), decode c bs = .ok i → 1 ≤ i.length ∧ i.length ≤ 15) ∧
  (∀ (c : Config) (ps : List Prefix) (rest : List Byte), PrefixesRead c ps → ps.length = 15 →
    decode c (ps.map Prefix.byte ++ rest) = .error .tooLong) ∧
  (∀ (s : State) (ps : List Prefix), PrefixesRead s.cfg ps → ps.length = 15 → CodeAt s (ps.map Prefix.byte) →
    step s = .refused (.tooLong s.pc)) ∧
  (∀ (c : Config) (i : Instr), shapeOk c .empty i = true → i.length ≤ 14)

/-- Two legacy prefixes of one group before an opcode are refused (R102, a decision of the spec; log 20). -/
def Obligations.RepeatedPrefixGroupIsRefused : Prop :=
  ∀ (s : State) (ps a b c : List Prefix) (l₁ l₂ : Legacy) (op : Byte),
    ps = a ++ .legacy l₁ :: b ++ .legacy l₂ :: c → l₁.group = l₂.group →
    PrefixesRead s.cfg ps → Prefix.ofByte s.cfg.mode64 op = none → ps.length < 15 →
    CodeAt s (ps.map Prefix.byte ++ [op]) →
    step s = .refused (.repeatedPrefixGroup s.pc)

/-- A second REX byte before the opcode is refused (R135, a decision of the spec; log 20). -/
def Obligations.SecondRexIsRefused : Prop :=
  ∀ (s : State) (ps : List Prefix) (r r' : Rex),
    s.cfg.mode64 = true → PrefixesRead s.cfg ps → Prefix.rex r ∈ ps → ps.length < 15 →
    CodeAt s (ps.map Prefix.byte ++ [r'.byte]) →
    step s = .refused (.multipleRex s.pc)

/-- Opcode FFH with a reg field of 2 to 7, and opcode FEH, have no row: `notShown` (R287). -/
def Obligations.UnlistedFFAndFEAreNotShown : Prop :=
  ∀ (s : State) (ps : List Prefix), PrefixesRead s.cfg ps → repeatsGroup (PrefixState.ofList ps).legacy = false →
    (∀ m : Byte, 2 ≤ (mid3 m).toNat → ps.length + 2 ≤ 15 → CodeAt s (ps.map Prefix.byte ++ [0xFF, m]) →
      step s = .refused (.notShown [0xFF] none s.pc)) ∧
    (ps.length + 1 ≤ 15 → CodeAt s (ps.map Prefix.byte ++ [0xFE]) →
      step s = .refused (.notShown [0xFE] none s.pc))

/-- A word of every row of the opcode table decodes to the instruction it stands for: the eleven prefixes (R84 to R98), REX
(R123), INC and DEC (R280 to R283), MOV (R302 to R306), CVTDQ2PD (R190), PHADDW (R193), the string and I/O instructions
(R172 to R178), Jcc with every condition code (R179) and the moves to and from control and debug registers (R320);
constants least significant byte first (R57). That the escape opcode 0F 3A 0F, which has no row, decodes to
`twoByteEscape` is the model's choice (log 10): R150 step 3 and R152 refuse it in the decoder, the model when it is run. -/
def Obligations.WrittenBytesDecode : Prop :=
  let c64 : Config := { Config.reset with mode := .bits64 }
  let c32 : Config := { Config.reset with mode := .protectedMode, defOpSize := .d32, defAddrSize := .d32 }
  (∀ x ∈ [((0xF0 : Byte), Prefix.legacy .lock), (0xF2, .legacy .repne), (0xF3, .legacy .rep), (0x2E, .legacy (.seg .cs)),
      (0x36, .legacy (.seg .ss)), (0x3E, .legacy (.seg .ds)), (0x26, .legacy (.seg .es)), (0x64, .legacy (.seg .fs)),
      (0x65, .legacy (.seg .gs)), (0x66, .legacy .opSize), (0x67, .legacy .addrSize)],
    decode c32 [x.1, 0xA4] = .ok (x.2.onto .movsB)) ∧
  decode c64 [0x48, 0xFF, 0xC0] = .ok (.rex ⟨true, false, false, false⟩ (.incRm ⟨3, 0, none, .none⟩)) ∧
  decode c32 [0x0F, 0x3A, 0x0F] = .ok (.twoByteEscape 0x3A (some 0x0F)) ∧
  (∀ n : BitVec 3, decode c32 [0x40#8 + n.setWidth 8] = .ok (.incR n)) ∧
  (∀ n : BitVec 3, decode c32 [0x48#8 + n.setWidth 8] = .ok (.decR n)) ∧
  decode c64 [0x41, 0xFF, 0x4D, 0x00] = .ok (.rex ⟨false, false, false, true⟩ (.decRm ⟨1, 5, none, .d8 0⟩)) ∧
  decode c32 [0xA0, 0x10, 0x30, 0x00, 0x00] = .ok (.movAlMoffs (.c32 0x3010)) ∧
  decode c32 [0xA1, 0x10, 0x30, 0x00, 0x00] = .ok (.movEaxMoffs (.c32 0x3010)) ∧
  decode c32 [0xA2, 0x10, 0x30, 0x00, 0x00] = .ok (.movMoffsAl (.c32 0x3010)) ∧
  decode c32 [0xA3, 0x10, 0x30, 0x00, 0x00] = .ok (.movMoffsEax (.c32 0x3010)) ∧
  (∀ n : BitVec 3, decode c32 [0xB8#8 + n.setWidth 8, 0x78, 0x56, 0x34, 0x12] = .ok (.movRImm n (.c32 0x12345678))) ∧
  decode c64 [0x48, 0xB8, 0x88, 0x77, 0x66, 0x55, 0x44, 0x33, 0x22, 0x11] =
    .ok (.rex ⟨true, false, false, false⟩ (.movRImm 0 (.c64 0x1122334455667788))) ∧
  decode c32 [0xF3, 0x0F, 0xE6, 0xC1] = .ok (.cvtdq2pd none 0 ⟨3, 1, none, .none⟩) ∧
  decode c64 [0x66, 0x45, 0x0F, 0x38, 0x01, 0xC1] =
    .ok (.phaddw (some ⟨false, true, false, true⟩) 0 ⟨3, 1, none, .none⟩) ∧
  (∀ x ∈ [((0xA4 : Byte), Instr.movsB), (0xA5, .movsV), (0xA6, .cmpsB), (0xA7, .cmpsV), (0xAA, .stosB), (0xAB, .stosV),
      (0xAC, .lodsB), (0xAD, .lodsV), (0xAE, .scasB), (0xAF, .scasV), (0x6C, .insB), (0x6D, .insV), (0x6E, .outsB),
      (0x6F, .outsV)],
    decode c32 [x.1] = .ok x.2) ∧
  (∀ cc : BitVec 4, decode c32 [0x70#8 + cc.setWidth 8, 0x05] = .ok (.jccRel8 cc 5) ∧
    decode c32 [0x0F, 0x80#8 + cc.setWidth 8, 0x10, 0x00, 0x00, 0x00] = .ok (.jccRel cc (.c32 0x10))) ∧
  decode c64 [0x44, 0x0F, 0x20, 0xC8] = .ok (.rex ⟨false, true, false, false⟩ (.movRCr 3 1 0)) ∧
  decode c32 [0x0F, 0x21, 0xF8] = .ok (.movRDr 3 7 0) ∧
  decode c32 [0x0F, 0x22, 0xD8] = .ok (.movCrR 3 3 0) ∧
  decode c32 [0x0F, 0x23, 0xC1] = .ok (.movDrR 3 0 1)

/-! ## The step -/

/-- A step runs the decoded instruction: where the program's bytes at the instruction pointer are the encoding of a
well-formed instruction, the step is that instruction run at that state, with nothing around it (R59, R150; that the program's
bytes are listed by the configuration is the model's, log 6). -/
def Obligations.StepRunsDecodedInstruction : Prop :=
  ∀ (s : State) (i : Instr), wellFormed s.cfg i = true → CodeAt s (encode i) → step s = exec i s

/-- An instruction whose first missing byte holds no value, or is none of the program's bytes that the configuration
lists (the model's choice, log 6), is refused `unwrittenMemory` (R59, R64). -/
def Obligations.MissingCodeByteIsRefused : Prop :=
  ∀ (s : State) (i : Instr) (k : Nat), wellFormed s.cfg i = true → k < i.length → CodeAt s ((encode i).take k) →
    Memory.read s.mem (s.loc .cs s.pc k) = none ∨ s.loc .cs s.pc k ∉ s.cfg.code →
    step s = .refused (.unwrittenMemory s.pc)

/-- A term that no bytes decode to is refused, and no step comes to one (the model's own, log 12). -/
def Obligations.IllFormedTermsAreRefused : Prop :=
  (∀ (i : Instr) (s : State), wellFormed s.cfg i = false → exec i s = .refused (.illFormed s.pc)) ∧
  (∀ (s : State) (pc : Word), step s ≠ .refused (.illFormed pc))

/-- Placing a word of the table makes the next step run the instruction it decodes to (the model's own, log 11). -/
def Obligations.PlacedWordIsRun : Prop :=
  ∀ (s : State) (nbits w : Nat) (i : Instr), decode s.cfg (tableBytes nbits w) = .ok i →
    step (s.withFetchWord nbits w) = exec i (s.withFetchWord nbits w)

/-- The program is immutable (R71): in any number of steps no byte of it changes, and every instruction byte fetched is one
of its bytes, with the value it had from the start. (That the configuration lists them is the model's, log 6.) -/
def Obligations.FetchedBytesNeverChange : Prop :=
  ∀ (n : Nat) (s t : State), Sys2Proof.core.run n s = .next t →
    (∀ a, a ∈ s.cfg.code → a ∈ t.cfg.code ∧ Memory.read t.mem a = Memory.read s.mem a) ∧
    ∀ k (h : k < t.fetch.1.length),
      t.loc .cs t.pc k ∈ s.cfg.code ∧ Memory.read s.mem (t.loc .cs t.pc k) = some t.fetch.1[k]

/-- A write that touches a byte of the program, and no other, is refused `writeToCode` (R71; which bytes those are, log 6):
so of `MemWrite`; an instruction that completes changes no byte of the program; and that refusal comes last, on the
write, from a storing instruction that nothing else refuses, never from fetching (R339). -/
def Obligations.OnlyWritesToTheProgramAreRefused : Prop :=
  (∀ (s : State) (seg : Seg) (off : Word) (w : Width) (v : BitVec w.bits) (r : Refusal),
    s.store seg off w v = .error r ↔ r = .writeToCode s.pc ∧ ¬ MayStore s seg off w) ∧
  (∀ (i : Instr) (s t : State), exec i s = .next t →
    ∀ a, Memory.read t.mem a ≠ Memory.read s.mem a → a ∉ s.cfg.code) ∧
  (∀ (s : State) (pc : Word), step s = .refused (.writeToCode pc) →
    pc = s.pc ∧ ∃ i, CodeAt s (encode i) ∧ wellFormed s.cfg i = true ∧ admitted i.body = true ∧
      legalPrefixes (attrs i.body).mem i.prefixState.legacy = true ∧ s.pc.toNat + i.length ≤ s.cfg.top ∧
      ((∃ a, i.body = .movMoffsAl a ∧ ¬ MayStore s (i.prefixState.segment.getD .ds) a.zext .w8) ∨
       (∃ a, i.body = .movMoffsEax a ∧
          ¬ MayStore s (i.prefixState.segment.getD .ds) a.zext (operandSize s.cfg i.prefixState)) ∨
       (∃ o seg off x, (i.body = .incRm o ∨ i.body = .decRm o) ∧ o.mod ≠ 3 ∧
          (seg, off) = effectiveAddress s i.prefixState (nextPc i s) o ∧
          HoldsAt s seg off (operandSize s.cfg i.prefixState) x ∧
          ¬ MayStore s seg off (operandSize s.cfg i.prefixState))))

/-- No step changes the configuration, a segment register, an MMX, XMM, control or debug register (R9, R20, R40); nor,
outside 64-bit mode, bits 63:32 of a general register (the model's choice, log 8). -/
def Obligations.StepKeepsUntouchedState : Prop :=
  ∀ s t : State, step s = .next t →
    t.cfg = s.cfg ∧ t.segSel = s.segSel ∧ t.mmx = s.mmx ∧ t.xmm = s.xmm ∧ t.cr = s.cr ∧ t.dr = s.dr ∧
    (s.cfg.mode64 = false → ∀ n k, 32 ≤ k → (t.gpr n).getLsbD k = (s.gpr n).getLsbD k)

/-- Only the admitted opcodes complete, and only with legal prefixes (R15, R153). -/
def Obligations.OnlyAdmittedInstructionsComplete : Prop :=
  ∀ (i : Instr) (s t : State), exec i s = .next t →
    admitted i.body = true ∧ wellFormed s.cfg i = true ∧
    legalPrefixes (attrs i.body).mem i.prefixState.legacy = true

/-- An instruction that completes moves the instruction pointer on by its length, and ends at or before the top of the
instruction-pointer range (R31, R32); from the very top it comes to 0 (the model's reading, log 7). -/
def Obligations.CompletionAdvancesThePointer : Prop :=
  ∀ (i : Instr) (s t : State), exec i s = .next t →
    t.pc.toNat = (s.pc.toNat + i.length) % s.cfg.top ∧ s.pc.toNat + i.length ≤ s.cfg.top

/-- Only a move to or from a control or debug register faults, with #UD at its own address (R330, R331). -/
def Obligations.OnlyControlDebugMovesFault : Prop :=
  ∀ (i : Instr) (s : State) (f : Fault), exec i s = .fault f →
    f = .invalidOpcode s.pc ∧
    ∃ mod reg rm, i.body = .movRCr mod reg rm ∨ i.body = .movRDr mod reg rm ∨
      i.body = .movCrR mod reg rm ∨ i.body = .movDrR mod reg rm

/-- Every step keeps the invariant: memory in its canonical form (the model's own, log 4) and inside the address space
(R56, log 5), a 32-bit instruction pointer outside 64-bit mode (R32). -/
def Obligations.StepKeepsTheInvariant : Prop :=
  ∀ s t : State, s.inv = true → step s = .next t → t.inv = true

/-- The state that the model names for reset has the invariant. The spec gives no reset state (R360): this rests on the
model's choices, log 1 for the values and log 4 for the form of memory. -/
def Obligations.ResetHasTheInvariant : Prop := State.reset.inv = true

/-- Every value the model names for reset. The spec gives none (R360): all are the model's choice, log 1, but for which
control and debug registers are implemented (R323), the empty memory (log 4) and that no program is placed (log 6, log 11). -/
def Obligations.ResetValues : Prop :=
  State.reset.cfg.mode = .realAddress ∧ State.reset.cfg.mode64 = false ∧
  State.reset.cfg.defOpSize = .d16 ∧ State.reset.cfg.defAddrSize = .d16 ∧
  (∀ g, State.reset.cfg.segBase.base g = if g = .cs then 0xFFFF0000 else 0) ∧
  (∀ k : Fin 8, State.reset.cfg.implCR[k] = decide (k = 0) ∧ State.reset.cfg.implDR[k] = false) ∧
  State.reset.cfg.code = [] ∧
  State.reset.segSel = ⟨0xF000, 0, 0, 0, 0, 0⟩ ∧
  State.reset.rip = 0xFFF0 ∧ State.reset.pc = 0xFFF0 ∧ State.reset.rflags = 2 ∧ State.reset.mem = [] ∧
  (∀ n : BitVec 4, State.reset.gpr n = if n = 2 then 0x600 else 0) ∧
  (∀ k : Fin 8, State.reset.mmx[k] = 0) ∧ (∀ k : Fin 16, State.reset.xmm[k] = 0) ∧
  (∀ k : Fin 16, State.reset.cr[k] = if k = 0 then 0x60000010 else 0) ∧
  (∀ k : Fin 16, State.reset.dr[k] = if k = 6 then 0xFFFF0FF0 else if k = 7 then 0x400 else 0)

/-! ## INC and DEC -/

/-- INC r16/32: outside 64-bit mode, opcode 40H + n, a register of 16 or 32 bits one more, its flags, nothing else
(R280; the spec marks the operation and flags, and their bits in R33, as general knowledge, log 14). -/
def Obligations.IncRegister : Prop :=
  ∀ (i : Instr) (n : BitVec 3) (s : State), i.body = .incR n → Ready false i s →
    s.cfg.mode64 = false ∧ encode (.incR n) = [0x40#8 + n.setWidth 8] ∧
    ∃ (w : Width) (t : State),
      w = (if Carries i .opSize then s.cfg.defOpSize.other else s.cfg.defOpSize).width ∧
      exec i s = .next t ∧ BumpReg .inc (n.setWidth 4) w i s t

/-- DEC r16/32: outside 64-bit mode, opcode 48H + n, a register of 16 or 32 bits one less, its flags, nothing else
(R281; the spec marks the operation and flags, and their bits in R33, as general knowledge, log 14). -/
def Obligations.DecRegister : Prop :=
  ∀ (i : Instr) (n : BitVec 3) (s : State), i.body = .decR n → Ready false i s →
    s.cfg.mode64 = false ∧ encode (.decR n) = [0x48#8 + n.setWidth 8] ∧
    ∃ (w : Width) (t : State),
      w = (if Carries i .opSize then s.cfg.defOpSize.other else s.cfg.defOpSize).width ∧
      exec i s = .next t ∧ BumpReg .dec (n.setWidth 4) w i s t

/-- INC r/m on a register: register REX.B : r/m at the operand size one more, its flags, nothing else (R282, R285;
the spec marks the operation and flags as general knowledge, log 14). -/
def Obligations.IncRmOnRegister : Prop :=
  ∀ (i : Instr) (o : RmOperand) (s : State), i.body = .incRm o → o.mod = 3 → Ready false i s →
    ∃ t, exec i s = .next t ∧
      BumpReg .inc (regNum i.prefixState.rexBits.b o.rm) (operandSize s.cfg i.prefixState) i s t

/-- DEC r/m on a register: register REX.B : r/m at the operand size one less, its flags, nothing else (R283, R285;
the spec marks the operation and flags as general knowledge, log 14). -/
def Obligations.DecRmOnRegister : Prop :=
  ∀ (i : Instr) (o : RmOperand) (s : State), i.body = .decRm o → o.mod = 3 → Ready false i s →
    ∃ t, exec i s = .next t ∧
      BumpReg .dec (regNum i.prefixState.rexBits.b o.rm) (operandSize s.cfg i.prefixState) i s t

/-- INC r/m in memory: the value at the effective address one more, its flags, nothing else; refused where it would write
a byte of the program (R282, R285, general knowledge by the spec's mark, log 14; R71, with the program as log 6 has it). -/
def Obligations.IncRmInMemory : Prop :=
  ∀ (i : Instr) (o : RmOperand) (s : State) (x : BitVec (operandSize s.cfg i.prefixState).bits)
    (seg : Seg) (off : Word),
    i.body = .incRm o → o.mod ≠ 3 → Ready true i s →
    (seg, off) = effectiveAddress s i.prefixState (nextPc i s) o →
    HoldsAt s seg off (operandSize s.cfg i.prefixState) x →
    (MayStore s seg off (operandSize s.cfg i.prefixState) →
      ∃ t, exec i s = .next t ∧ BumpMem .inc seg off (operandSize s.cfg i.prefixState) x i s t) ∧
    (¬ MayStore s seg off (operandSize s.cfg i.prefixState) → exec i s = .refused (.writeToCode s.pc))

/-- DEC r/m in memory: the value at the effective address one less, its flags, nothing else; refused where it would write
a byte of the program (R283, R285, general knowledge by the spec's mark, log 14; R71, with the program as log 6 has it). -/
def Obligations.DecRmInMemory : Prop :=
  ∀ (i : Instr) (o : RmOperand) (s : State) (x : BitVec (operandSize s.cfg i.prefixState).bits)
    (seg : Seg) (off : Word),
    i.body = .decRm o → o.mod ≠ 3 → Ready true i s →
    (seg, off) = effectiveAddress s i.prefixState (nextPc i s) o →
    HoldsAt s seg off (operandSize s.cfg i.prefixState) x →
    (MayStore s seg off (operandSize s.cfg i.prefixState) →
      ∃ t, exec i s = .next t ∧ BumpMem .dec seg off (operandSize s.cfg i.prefixState) x i s t) ∧
    (¬ MayStore s seg off (operandSize s.cfg i.prefixState) → exec i s = .refused (.writeToCode s.pc))

/-! ## MOV -/

/-- MOV AL, moffs8: opcode A0H and an offset of the address size; AL takes the byte at it in DS or the overriding
segment, whatever 66H and REX.W say; nothing else changes (R302). -/
def Obligations.MovAlFromMoffset : Prop :=
  ∀ (i : Instr) (a : Const) (s : State) (v : BitVec 8), i.body = .movAlMoffs a → Ready true i s →
    HoldsAt s (i.prefixState.segment.getD .ds) a.zext .w8 v →
    encode (.movAlMoffs a) = 0xA0 :: leBytes (addressSize s.cfg i.prefixState).bytes a.zext.toNat ∧
    ∃ t, exec i s = .next t ∧ LoadReg 0 .w8 v i s t

/-- MOV eAX, moffs: opcode A1H and an offset of the address size; the accumulator at the operand size takes the value at
it in DS or the overriding segment; nothing else changes (R303, which marks the operand size of A1H as its own inference
from R136 and R137; the byte order of the value is decision D3, R58, log 23). -/
def Obligations.MovEaxFromMoffset : Prop :=
  ∀ (i : Instr) (a : Const) (s : State) (v : BitVec (operandSize s.cfg i.prefixState).bits),
    i.body = .movEaxMoffs a → Ready true i s →
    HoldsAt s (i.prefixState.segment.getD .ds) a.zext (operandSize s.cfg i.prefixState) v →
    encode (.movEaxMoffs a) = 0xA1 :: leBytes (addressSize s.cfg i.prefixState).bytes a.zext.toNat ∧
    ∃ t, exec i s = .next t ∧ LoadReg 0 (operandSize s.cfg i.prefixState) v i s t

/-- MOV moffs8, AL: opcode A2H and an offset of the address size; the byte at it in DS or the overriding segment takes
AL, whatever 66H and REX.W say; nothing else changes; refused where that byte is the program's (R304, R71,
with the program as log 6 has it). -/
def Obligations.MovMoffsetFromAl : Prop :=
  ∀ (i : Instr) (a : Const) (s : State), i.body = .movMoffsAl a → Ready true i s →
    encode (.movMoffsAl a) = 0xA2 :: leBytes (addressSize s.cfg i.prefixState).bytes a.zext.toNat ∧
    (MayStore s (i.prefixState.segment.getD .ds) a.zext .w8 →
      ∃ t, exec i s = .next t ∧
        StoreMem (i.prefixState.segment.getD .ds) a.zext .w8 ((s.gpr 0).setWidth 8) i s t) ∧
    (¬ MayStore s (i.prefixState.segment.getD .ds) a.zext .w8 → exec i s = .refused (.writeToCode s.pc))

/-- MOV moffs, eAX: opcode A3H and an offset of the address size; the bytes at it in DS or the overriding segment take
the accumulator at the operand size; nothing else changes; refused where one of them is the program's
(R305, R71, with the program as log 6 has it). -/
def Obligations.MovMoffsetFromEax : Prop :=
  ∀ (i : Instr) (a : Const) (s : State), i.body = .movMoffsEax a → Ready true i s →
    let w := operandSize s.cfg i.prefixState
    encode (.movMoffsEax a) = 0xA3 :: leBytes (addressSize s.cfg i.prefixState).bytes a.zext.toNat ∧
    (MayStore s (i.prefixState.segment.getD .ds) a.zext w →
      ∃ t, exec i s = .next t ∧
        StoreMem (i.prefixState.segment.getD .ds) a.zext w ((s.gpr 0).setWidth w.bits) i s t) ∧
    (¬ MayStore s (i.prefixState.segment.getD .ds) a.zext w → exec i s = .refused (.writeToCode s.pc))

/-- MOV r, imm: opcode B8H + n and an immediate of the operand size; register REX.B : n takes it; nothing else changes
(R306). -/
def Obligations.MovRegisterImmediate : Prop :=
  ∀ (i : Instr) (n : BitVec 3) (v : Const) (s : State), i.body = .movRImm n v → Ready false i s →
    let w := operandSize s.cfg i.prefixState
    v.width = w ∧ encode (.movRImm n v) = (0xB8#8 + n.setWidth 8) :: leBytes w.bytes v.zext.toNat ∧
    ∃ t, exec i s = .next t ∧ LoadReg (regNum i.prefixState.rexBits.b n) w (v.zext.setWidth w.bits) i s t

/-- An admitted instruction that reads memory which holds no value is refused (R64, R339). -/
def Obligations.UndefinedMemoryIsRefused : Prop :=
  ∀ (i : Instr) (s : State) (seg : Seg) (off : Word) (w : Width), Ready true i s →
    (∃ k, k < w.bytes ∧ Memory.read s.mem (s.loc seg off k) = none) →
    ((∃ a, i.body = .movAlMoffs a ∧ (seg, off) = (i.prefixState.segment.getD .ds, a.zext) ∧ w = .w8) ∨
     (∃ a, i.body = .movEaxMoffs a ∧ (seg, off) = (i.prefixState.segment.getD .ds, a.zext) ∧
        w = operandSize s.cfg i.prefixState) ∨
     (∃ o, (i.body = .incRm o ∨ i.body = .decRm o) ∧ o.mod ≠ 3 ∧
        (seg, off) = effectiveAddress s i.prefixState (nextPc i s) o ∧ w = operandSize s.cfg i.prefixState)) →
    exec i s = .refused (.unwrittenMemory s.pc)

/-- An admitted instruction that ends past the top of the instruction-pointer range is refused (R32). -/
def Obligations.FetchWrapIsRefused : Prop :=
  ∀ (i : Instr) (s : State), wellFormed s.cfg i = true → admitted i.body = true →
    legalPrefixes (attrs i.body).mem i.prefixState.legacy = true → s.cfg.top < s.pc.toNat + i.length →
    exec i s = .refused (.fetchWrap s.pc)

/-! ## Prefixes -/

/-- Each segment override names the segment of the memory operand: of a direct offset, whose load completes, and of every
ModR/M operand (R54, R87 to R92). -/
def Obligations.SegmentOverridesReplaceTheDefault : Prop :=
  ∀ (j : Instr) (a : Const) (s : State) (v : BitVec 8), j.body = .movAlMoffs a →
    (Ready true (.csOverride j) s → HoldsAt s .cs a.zext .w8 v →
      ∃ t, exec (.csOverride j) s = .next t ∧ LoadReg 0 .w8 v (.csOverride j) s t) ∧
    (Ready true (.ssOverride j) s → HoldsAt s .ss a.zext .w8 v →
      ∃ t, exec (.ssOverride j) s = .next t ∧ LoadReg 0 .w8 v (.ssOverride j) s t) ∧
    (Ready true (.dsOverride j) s → HoldsAt s .ds a.zext .w8 v →
      ∃ t, exec (.dsOverride j) s = .next t ∧ LoadReg 0 .w8 v (.dsOverride j) s t) ∧
    (Ready true (.esOverride j) s → HoldsAt s .es a.zext .w8 v →
      ∃ t, exec (.esOverride j) s = .next t ∧ LoadReg 0 .w8 v (.esOverride j) s t) ∧
    (Ready true (.fsOverride j) s → HoldsAt s .fs a.zext .w8 v →
      ∃ t, exec (.fsOverride j) s = .next t ∧ LoadReg 0 .w8 v (.fsOverride j) s t) ∧
    (Ready true (.gsOverride j) s → HoldsAt s .gs a.zext .w8 v →
      ∃ t, exec (.gsOverride j) s = .next t ∧ LoadReg 0 .w8 v (.gsOverride j) s t) ∧
    (∀ (i : Instr) (g : Seg) (next : Word) (o : RmOperand), Carries i (.seg g) → wellFormed s.cfg i = true →
      (effectiveAddress s i.prefixState next o).1 = g)

/-- 66H selects the other operand size outside 64-bit mode, and 16 in 64-bit mode unless REX.W is 1 (R97, R136, R137):
so it does for MOV r, imm, which completes. -/
def Obligations.OperandSizeOverride : Prop :=
  ∀ (j : Instr) (n : BitVec 3) (v : Const) (s : State),
    j.body = .movRImm n v → Ready false (.opSizeOverride j) s →
    let w : Width :=
      if s.cfg.mode64 then (if (Instr.opSizeOverride j).prefixState.rexBits.w then .w64 else .w16)
      else s.cfg.defOpSize.other.width
    v.width = w ∧ ∃ t, exec (.opSizeOverride j) s = .next t ∧
      LoadReg (regNum (Instr.opSizeOverride j).prefixState.rexBits.b n) w (v.zext.setWidth w.bits)
        (.opSizeOverride j) s t

/-- 67H selects the other address size outside 64-bit mode, and 32 in 64-bit mode (R98, R140, R141): so it does for
MOV AL, moffs8, which completes. -/
def Obligations.AddressSizeOverride : Prop :=
  ∀ (j : Instr) (a : Const) (s : State) (v : BitVec 8),
    j.body = .movAlMoffs a → Ready true (.addrSizeOverride j) s →
    HoldsAt s ((Instr.addrSizeOverride j).prefixState.segment.getD .ds) a.zext .w8 v →
    a.width = (if s.cfg.mode64 then .w32 else s.cfg.defAddrSize.other.width) ∧
    ∃ t, exec (.addrSizeOverride j) s = .next t ∧ LoadReg 0 .w8 v (.addrSizeOverride j) s t

/-- A REX immediately before the opcode: W selects 64 bits, B is the top bit of the register number (R125, R137, R246):
so it does for MOV r, imm, which completes. -/
def Obligations.RexBeforeTheOpcode : Prop :=
  ∀ (r : Rex) (n : BitVec 3) (v : Const) (s : State), Ready false (.rex r (.movRImm n v)) s →
    let w : Width := if r.w then .w64 else .w32
    s.cfg.mode64 = true ∧ v.width = w ∧ ∃ t, exec (.rex r (.movRImm n v)) s = .next t ∧
      LoadReg (BitVec.ofBool r.b ++ n) w (v.zext.setWidth w.bits) (.rex r (.movRImm n v)) s t

/-- A REX that a legacy prefix follows is ignored, but for its byte: the instruction completes exactly as it does without
it, one byte further on (R124). -/
def Obligations.MisplacedRexIsIgnored : Prop :=
  ∀ (r : Rex) (j : Instr) (s : State) (l : Legacy) (ps : List Prefix),
    wellFormed s.cfg (.rex r j) = true → j.prefixes = .legacy l :: ps →
    s.pc.toNat + (Instr.rex r j).length ≤ s.cfg.top →
    ∀ t, exec (.rex r j) s = .next t ↔ exec j (s.setPc (s.pc + 1)) = .next t

/-- A REX bit with no field to extend changes nothing (R122, R131, R132): R and X in INC and DEC of a register, R where
there is a SIB byte, R and X in MOV r, imm, and all but W (all, for the byte forms) in the direct-offset moves. -/
def Obligations.UnusedRexBitsAreIgnored : Prop :=
  ∀ (r r' : Rex) (s : State),
    (∀ o : RmOperand, r.w = r'.w → r.b = r'.b → (o.sib.isSome = true → r.x = r'.x) →
      exec (.rex r (.incRm o)) s = exec (.rex r' (.incRm o)) s ∧
      exec (.rex r (.decRm o)) s = exec (.rex r' (.decRm o)) s) ∧
    (∀ (n : BitVec 3) (v : Const), r.w = r'.w → r.b = r'.b →
      exec (.rex r (.movRImm n v)) s = exec (.rex r' (.movRImm n v)) s) ∧
    (∀ a : Const, r.w = r'.w →
      exec (.rex r (.movEaxMoffs a)) s = exec (.rex r' (.movEaxMoffs a)) s ∧
      exec (.rex r (.movMoffsEax a)) s = exec (.rex r' (.movMoffsEax a)) s) ∧
    (∀ a : Const,
      exec (.rex r (.movAlMoffs a)) s = exec (.rex r' (.movAlMoffs a)) s ∧
      exec (.rex r (.movMoffsAl a)) s = exec (.rex r' (.movMoffsAl a)) s)

/-- Every instruction that carries LOCK is refused, whatever the opcode with a row (R171). -/
def Obligations.LockIsRefused : Prop :=
  (∀ (i : Instr) (s : State), wellFormed s.cfg i = true → Carries i .lock →
    (∀ b2 b3, i.body ≠ .twoByteEscape b2 b3) → exec i s = .refused (.lockLegalityNotInSource s.pc)) ∧
  (∀ (j : Instr) (s : State), wellFormed s.cfg (.lock j) = true →
    (∀ b2 b3, j.body ≠ .twoByteEscape b2 b3) → exec (.lock j) s = .refused (.lockLegalityNotInSource s.pc))

/-- A repeat prefix on an instruction that is not one of the fourteen string and I/O rows, other than as a mandatory
prefix, is refused (R100): wherever it stands, and so for the rows REPNE and REP. -/
def Obligations.RepeatPrefixIsReserved : Prop :=
  (∀ (i : Instr) (s : State), wellFormed s.cfg i = true → Carries i .repne ∨ Carries i .rep →
    (∀ b2 b3, i.body ≠ .twoByteEscape b2 b3) → stringOrIo i.body = false →
    exec i s = .refused (.reservedRepeatPrefix s.pc)) ∧
  (∀ (j : Instr) (s : State), (∀ b2 b3, j.body ≠ .twoByteEscape b2 b3) → stringOrIo j.body = false →
    (wellFormed s.cfg (.repne j) = true → exec (.repne j) s = .refused (.reservedRepeatPrefix s.pc)) ∧
    (wellFormed s.cfg (.rep j) = true → exec (.rep j) s = .refused (.reservedRepeatPrefix s.pc)))

/-- The string and I/O instructions, with or without a repeat prefix, are decoded and refused by name (R172 to R178). -/
def Obligations.StringInstructionsAreRefused : Prop :=
  let named (body : Instr) (name : String) : Prop :=
    ∀ (i : Instr) (s : State), i.body = body →
      (wellFormed s.cfg i = true → ¬ Carries i .lock → exec i s = .refused (.semanticsNotInSource name s.pc)) ∧
      (wellFormed s.cfg (.repne i) = true → exec (.repne i) s = .refused (.semanticsNotInSource name s.pc)) ∧
      (wellFormed s.cfg (.rep i) = true → exec (.rep i) s = .refused (.semanticsNotInSource name s.pc))
  named .movsB "MOVS" ∧ named .movsV "MOVS" ∧ named .cmpsB "CMPS" ∧ named .cmpsV "CMPS" ∧
  named .stosB "STOS" ∧ named .stosV "STOS" ∧ named .lodsB "LODS" ∧ named .lodsV "LODS" ∧
  named .scasB "SCAS" ∧ named .scasV "SCAS" ∧ named .insB "INS" ∧ named .insV "INS" ∧
  named .outsB "OUTS" ∧ named .outsV "OUTS"

/-- An opcode that no row lists is refused `notShown` (R110, R152, R307): an escape opcode with its bytes and the byte taken
as mandatory prefix; and a one-byte opcode that is no prefix, not the escape 0FH and none of the rows' (INC and DEC of 40H to
4FH, INS and OUTS, Jcc, MOV, the string instructions, FFH, of which UnlistedFFAndFEAreNotShown speaks), for example 90H or
B0H to B7H. -/
def Obligations.UnlistedOpcodesAreNotShown : Prop :=
  (∀ (i : Instr) (b2 : Byte) (b3 : Option Byte) (s : State),
    wellFormed s.cfg i = true → i.body = .twoByteEscape b2 b3 →
    exec i s =
      .refused (.notShown (0x0F :: b2 :: b3.toList) (i.prefixState.mandatory.map Legacy.byte) s.pc)) ∧
  (∀ (s : State) (ps : List Prefix) (b : Byte),
    PrefixesRead s.cfg ps → repeatsGroup (PrefixState.ofList ps).legacy = false → ps.length < 15 →
    Prefix.ofByte s.cfg.mode64 b = none → b ≠ 0x0F → b ≠ 0xFF → ¬ (0x40 ≤ b ∧ b ≤ 0x4F) → ¬ (0x6C ≤ b ∧ b ≤ 0x7F) →
    ¬ (0xA0 ≤ b ∧ b ≤ 0xA7) → ¬ (0xAA ≤ b ∧ b ≤ 0xAF) → ¬ (0xB8 ≤ b ∧ b ≤ 0xBF) →
    CodeAt s (ps.map Prefix.byte ++ [b]) →
    step s = .refused (.notShown [b] none s.pc))

/-- Jcc is decoded and refused by name, with the hints 2EH and 3EH or without; another segment override on it is
refused as reserved, 67H as having no memory operand to act on (R93, R99, R179). In 64-bit mode 66H on it is refused
`notInSource`, in either form and whatever other prefixes it carries, so that a decoded one has none, and the displacement of
the two-byte form has 4 bytes; elsewhere it has the operand size (R139 as the spec reads it, R179). -/
def Obligations.JccIsRefused : Prop :=
  (∀ (i : Instr) (s : State), wellFormed s.cfg i = true →
    ((∃ cc rel, i.body = .jccRel8 cc rel) ∨ (∃ cc rel, i.body = .jccRel cc rel)) →
    (s.cfg.mode64 = true → ¬ Carries i .opSize) ∧
    (∀ cc rel, i.body = .jccRel cc rel →
      rel.width = if s.cfg.mode64 then .w32 else operandSize s.cfg i.prefixState) ∧
    (¬ Carries i .lock → ¬ Carries i .repne → ¬ Carries i .rep →
      ((∃ g, Carries i (.seg g) ∧ g ≠ .cs ∧ g ≠ .ds) → exec i s = .refused (.reservedSegmentOnBranch s.pc)) ∧
      ((∀ g, Carries i (.seg g) → g = .cs ∨ g = .ds) → Carries i .addrSize →
        exec i s = .refused (.addrSizeWithoutMemoryOperand s.pc)) ∧
      ((∀ g, Carries i (.seg g) → g = .cs ∨ g = .ds) → ¬ Carries i .addrSize →
        exec i s = .refused (.semanticsNotInSource "Jcc" s.pc)))) ∧
  (∀ (s : State) (ps : List Prefix) (cc : BitVec 4), s.cfg.mode64 = true →
    PrefixesRead s.cfg ps → repeatsGroup (PrefixState.ofList ps).legacy = false → .legacy .opSize ∈ ps →
    (ps.length + 1 ≤ 15 → CodeAt s (ps.map Prefix.byte ++ [0x70#8 + cc.setWidth 8]) →
      step s = .refused (.notInSource s.pc)) ∧
    (ps.length + 2 ≤ 15 → CodeAt s (ps.map Prefix.byte ++ [0x0F, 0x80#8 + cc.setWidth 8]) →
      step s = .refused (.notInSource s.pc)))

/-- A branch hint has no effect: a Jcc with 2EH or 3EH in front does exactly what the same Jcc does without it, and is one
byte longer (R180). -/
def Obligations.BranchHintHasNoEffect : Prop :=
  ∀ (j : Instr) (s : State),
    ((∃ cc rel, j.body = .jccRel8 cc rel) ∨ (∃ cc rel, j.body = .jccRel cc rel)) →
    (wellFormed s.cfg (.csOverride j) = true →
      exec (.csOverride j) s = exec j s ∧ (Instr.csOverride j).length = j.length + 1) ∧
    (wellFormed s.cfg (.dsOverride j) = true →
      exec (.dsOverride j) s = exec j s ∧ (Instr.dsOverride j).length = j.length + 1)

/-- CVTDQ2PD and PHADDW are decoded and refused by name; a 66H that is not the mandatory prefix is refused as reserved
(R101, R192, R194). Their operands are the XMM register REX.R : reg and, with mod = 11B, the XMM register REX.B : r/m,
else 8 bytes of memory for CVTDQ2PD and 16 for PHADDW at the effective address; the REX that counts is the one between
the mandatory prefix and 0FH (R124, R191, R242, R243). The spec marks the operands as general knowledge (log 14). -/
def Obligations.SimdIsRefused : Prop :=
  ∀ (i : Instr) (rx : Option Rex) (reg : BitVec 3) (o : RmOperand) (s : State), wellFormed s.cfg i = true →
    (legalPrefixes o.inMemory i.prefixState.legacy = true →
      (i.body = .cvtdq2pd rx reg o → exec i s =
        .refused (if Carries i .opSize then .reserved66 s.pc else .semanticsNotInSource "CVTDQ2PD" s.pc)) ∧
      (i.body = .phaddw rx reg o → exec i s = .refused (.semanticsNotInSource "PHADDW" s.pc))) ∧
    let e : Rex := rx.getD ⟨false, false, false, false⟩
    let ea : Seg × Word := effectiveAddress s { i.prefixState with rex := rx } (nextPc i s) o
    let operands (bytes : Nat) : List Operand :=
      [.reg (.xmm (BitVec.ofBool e.r ++ reg)),
       if o.mod = 3 then .reg (.xmm (BitVec.ofBool e.b ++ o.rm)) else .mem ea.1 ea.2 bytes]
    (i.body = .cvtdq2pd rx reg o → operandsOf i s = operands 8) ∧
    (i.body = .phaddw rx reg o → operandsOf i s = operands 16)

/-- A segment override, and without one 67H, on an instruction with no memory operand is refused (R153, R99). -/
def Obligations.PrefixNeedsAMemoryOperand : Prop :=
  ∀ (i : Instr) (s : State), wellFormed s.cfg i = true →
    ((∃ n, i.body = .incR n) ∨ (∃ n, i.body = .decR n) ∨ (∃ n v, i.body = .movRImm n v) ∨
      (∃ o, (i.body = .incRm o ∨ i.body = .decRm o) ∧ o.mod = 3) ∨
      (∃ rx reg o, (i.body = .cvtdq2pd rx reg o ∨ i.body = .phaddw rx reg o) ∧ o.mod = 3) ∨
      (∃ m r n, i.body = .movRCr m r n ∨ i.body = .movRDr m r n ∨ i.body = .movCrR m r n ∨
        i.body = .movDrR m r n)) →
    ¬ Carries i .lock → ¬ Carries i .repne → ¬ Carries i .rep →
    ((∃ g, Carries i (.seg g)) → exec i s = .refused (.segmentOverrideWithoutMemoryOperand s.pc)) ∧
    ((∀ g, ¬ Carries i (.seg g)) → Carries i .addrSize →
      exec i s = .refused (.addrSizeWithoutMemoryOperand s.pc))

/-! ## Control and debug registers -/

/-- A move to or from CR9 to CR15 or DR8 to DR15 that is not implemented (R323), or CR8 where the configuration says so (R320),
raises #UD at its own address and ends the run (R331, decision D18 of the spec, log 15), so that no register is read or
written; by default only CR8 of these is implemented. -/
def Obligations.UnimplementedRegisterRaisesUd : Prop :=
  (∀ (i : Instr) (mod : BitVec 2) (reg rm : BitVec 3) (k : Fin 8) (s : State), wellFormed s.cfg i = true →
    legalPrefixes false i.prefixState.legacy = true →
    (regNum i.prefixState.rexBits.r reg).toNat = 8 + k →
    (s.cfg.implCR[k] = false → i.body = .movRCr mod reg rm ∨ i.body = .movCrR mod reg rm →
      exec i s = .fault (.invalidOpcode s.pc)) ∧
    (s.cfg.implDR[k] = false → i.body = .movRDr mod reg rm ∨ i.body = .movDrR mod reg rm →
      exec i s = .fault (.invalidOpcode s.pc))) ∧
  (∀ k : Fin 8, Config.reset.implCR[k] = decide (k = 0) ∧ Config.reset.implDR[k] = false)

/-- A move to or from CR0 to CR7, DR0 to DR7 or an implemented one of the others is decoded and refused (R320). Its
operands, destination first, are the general register REX.B : r/m, whatever mod is, and the control or debug register
REX.R : reg (R242, R243, R320, R321). The spec marks the opcodes and operands as general knowledge (log 14). -/
def Obligations.ControlDebugMoveIsRefused : Prop :=
  ∀ (i : Instr) (mod : BitVec 2) (reg rm : BitVec 3) (s : State),
    (wellFormed s.cfg i = true → legalPrefixes false i.prefixState.legacy = true →
      (i.body = .movRCr mod reg rm ∨ i.body = .movCrR mod reg rm →
        (∀ k : Fin 8, (regNum i.prefixState.rexBits.r reg).toNat = 8 + k → s.cfg.implCR[k] = true) →
        exec i s = .refused (.semanticsNotInSource "MOV CR/DR" s.pc)) ∧
      (i.body = .movRDr mod reg rm ∨ i.body = .movDrR mod reg rm →
        (∀ k : Fin 8, (regNum i.prefixState.rexBits.r reg).toNat = 8 + k → s.cfg.implDR[k] = true) →
        exec i s = .refused (.semanticsNotInSource "MOV CR/DR" s.pc))) ∧
    let r : NamedReg := .gpr (BitVec.ofBool i.prefixState.rexBits.b ++ rm)
    let n : BitVec 4 := BitVec.ofBool i.prefixState.rexBits.r ++ reg
    (i.body = .movRCr mod reg rm → operandsOf i s = [.reg r, .reg (.cr n)]) ∧
    (i.body = .movCrR mod reg rm → operandsOf i s = [.reg (.cr n), .reg r]) ∧
    (i.body = .movRDr mod reg rm → operandsOf i s = [.reg r, .reg (.dr n)]) ∧
    (i.body = .movDrR mod reg rm → operandsOf i s = [.reg (.dr n), .reg r])

/-! ## Registers, memory and addresses -/

/-- A byte register (R23, R25, R26): with a REX in effect, or for numbers 0 to 3, bits 7:0 of the register; without one, 4
to 7 are bits 15:8 of registers 0 to 3. A write is read back, and no other bit changes. R26 gives numbers 8 to 15 only with
a REX, and no encoding names them without one: that they are bits 7:0 then too is the model's choice (log 21). -/
def Obligations.ByteRegisters : Prop :=
  ∀ (s : State) (rexInEffect : Bool) (n : BitVec 4) (v : Byte),
    let high : Bool := !rexInEffect && decide (4 ≤ n.toNat ∧ n.toNat < 8)
    let m : BitVec 4 := if high then n - 4 else n
    let lo : Nat := if high then 8 else 0
    s.readReg8 rexInEffect n = (s.gpr m).extractLsb' lo 8 ∧
    (s.writeReg8 rexInEffect n v).readReg8 rexInEffect n = v ∧
    SameRegsBut m s (s.writeReg8 rexInEffect n v) ∧
    ∀ i, i < lo ∨ lo + 8 ≤ i → ((s.writeReg8 rexInEffect n v).gpr m).getLsbD i = (s.gpr m).getLsbD i

/-- A store puts the least significant byte at the lowest address; a load of any width that lies inside the stored bytes
gives the part of the value there (R58). -/
def Obligations.LoadSeesStoredBytes : Prop :=
  ∀ (s t : State) (seg : Seg) (off : Word) (w : Width) (v : BitVec w.bits), s.store seg off w v = .ok t →
    Memory.read t.mem (s.loc seg off 0) = some (v.setWidth 8) ∧ t.load seg off w = .ok v ∧
    ∀ (w' : Width) (k : Nat), k + w'.bytes ≤ w.bytes →
      t.load seg (off + BitVec.ofNat 64 k) w' = .ok (v.extractLsb' (8 * k) w'.bits)

/-- With a SIB byte whose index is none, the scale has no effect on a memory operand's address, and no register but the
base has: index 100B with 32-bit addressing outside 64-bit mode (R223), 0100B, REX.X counted, in 64-bit mode, so that RSP is
never an index; 1100B selects R12, which counts times the scale (R249). -/
def Obligations.NoIndexIgnoresTheScale : Prop :=
  ∀ (s : State) (i : Instr) (next : Word) (o : RmOperand) (base : BitVec 3) (k k' : BitVec 2),
    let ea (s : State) (p : PrefixState) (k : BitVec 2) : Seg × Word :=
      effectiveAddress s p next { o with sib := some ⟨k, 4, base⟩ }
    let p := i.prefixState
    (s.cfg.mode64 = false → addressSize s.cfg p = .w32 →
      ea s p k = ea s p k' ∧ ∀ (m : BitVec 4) (v : Word), m ≠ base.setWidth 4 → ea (s.setGpr m v) p k = ea s p k) ∧
    (s.cfg.mode64 = true → p.rexBits.x = false →
      ea s p k = ea s p k' ∧
      ∀ (m : BitVec 4) (v : Word), m ≠ BitVec.ofBool p.rexBits.b ++ base → ea (s.setGpr m v) p k = ea s p k) ∧
    (s.cfg.mode64 = true → p.rexBits.x = true →
      let top : Nat := if Carries i .addrSize then 2 ^ 32 else 2 ^ 64
      (ea s p k).2.toNat =
        ((ea s { p with rex := some { p.rexBits with x := false } } k).2.toNat +
          (s.gpr 12).toNat * 2 ^ k.toNat) % top)

/-- The effective address of a memory operand outside 64-bit mode with address size 16: the registers of the form, the
displacement, modulo 2^16; where no override stands, in SS where BP takes part, in DS elsewhere (R53, R54, R142, R200, R207,
R208). -/
def Obligations.EffectiveAddress16 : Prop :=
  ∀ (s : State) (i : Instr) (next : Word) (o : RmOperand), s.cfg.mode64 = false →
    (if Carries i .addrSize then s.cfg.defAddrSize.other else s.cfg.defAddrSize) = .d16 →
    o.mod ≠ 3 → o.shapeOk .w16 = true →
    let r (n : BitVec 4) : Int := ((s.gpr n).toNat % 2 ^ 16 : Nat)
    let regs : Int :=
      if o.rm = 0 then r 3 + r 6 else if o.rm = 1 then r 3 + r 7 else if o.rm = 2 then r 5 + r 6
      else if o.rm = 3 then r 5 + r 7 else if o.rm = 4 then r 6 else if o.rm = 5 then r 7
      else if o.rm = 6 then (if o.mod = 0 then 0 else r 5) else r 3
    let e := effectiveAddress s i.prefixState next o
    (e.2.toNat : Int) = (regs + dispInt o.disp) % 2 ^ 16 ∧
    ((∀ g, ¬ Carries i (.seg g)) → e.1 = if o.rm = 2 ∨ o.rm = 3 ∨ (o.rm = 6 ∧ o.mod ≠ 0) then .ss else .ds)

/-- The effective address of a memory operand outside 64-bit mode with address size 32: base, scaled index and
displacement, modulo 2^32; where no override stands, in SS with base ESP or EBP, in DS elsewhere (R53, R54, R142, R200, R215,
R216, R222 to R224). -/
def Obligations.EffectiveAddress32 : Prop :=
  ∀ (s : State) (i : Instr) (next : Word) (o : RmOperand), s.cfg.mode64 = false →
    (if Carries i .addrSize then s.cfg.defAddrSize.other else s.cfg.defAddrSize) = .d32 →
    o.mod ≠ 3 → o.shapeOk .w32 = true →
    let r (n : BitVec 3) : Int := ((s.gpr (n.setWidth 4)).toNat % 2 ^ 32 : Nat)
    let e := effectiveAddress s i.prefixState next o
    match o.sib with
    | none =>
      let base : Int := if o.mod = 0 ∧ o.rm = 5 then 0 else r o.rm
      (e.2.toNat : Int) = (base + dispInt o.disp) % 2 ^ 32 ∧
      ((∀ g, ¬ Carries i (.seg g)) → e.1 = if o.rm = 5 ∧ o.mod ≠ 0 then .ss else .ds)
    | some b =>
      let index : Int := if b.index = 4 then 0 else r b.index * 2 ^ b.scale.toNat
      let base : Int := if b.base = 5 ∧ o.mod = 0 then 0 else r b.base
      (e.2.toNat : Int) = (base + index + dispInt o.disp) % 2 ^ 32 ∧
      ((∀ g, ¬ Carries i (.seg g)) → e.1 = if b.base = 4 ∨ (b.base = 5 ∧ o.mod ≠ 0) then .ss else .ds)

/-- The effective address of a memory operand in 64-bit mode: base, scaled index and displacement, or the next
instruction's address and displacement, modulo 2^64, with 67H from the low halves of the registers and modulo 2^32; where no
override stands, in SS with base RSP or RBP, in DS elsewhere (R54, R142, R200, R247 to R254, R256, R260, R261). -/
def Obligations.EffectiveAddress64 : Prop :=
  ∀ (s : State) (i : Instr) (next : Word) (o : RmOperand), s.cfg.mode64 = true →
    o.mod ≠ 3 → o.shapeOk (if Carries i .addrSize then .w32 else .w64) = true →
    let top : Nat := if Carries i .addrSize then 2 ^ 32 else 2 ^ 64
    let rex := i.prefixState.rexBits
    let r (e : Bool) (n : BitVec 3) : Int := ((s.gpr (BitVec.ofBool e ++ n)).toNat % top : Nat)
    let e := effectiveAddress s i.prefixState next o
    match o.sib with
    | none =>
      let base : Int := if o.mod = 0 ∧ o.rm = 5 then next.toNat else r rex.b o.rm
      (e.2.toNat : Int) = (base + dispInt o.disp) % top ∧
      ((∀ g, ¬ Carries i (.seg g)) → e.1 = if o.rm = 5 ∧ o.mod ≠ 0 ∧ rex.b = false then .ss else .ds)
    | some b =>
      let index : Int := if b.index = 4 ∧ rex.x = false then 0 else r rex.x b.index * 2 ^ b.scale.toNat
      let base : Int := if b.base = 5 ∧ o.mod = 0 then 0 else r rex.b b.base
      (e.2.toNat : Int) = (base + index + dispInt o.disp) % top ∧
      ((∀ g, ¬ Carries i (.seg g)) →
        e.1 = if rex.b = false ∧ (b.base = 4 ∨ (b.base = 5 ∧ o.mod ≠ 0)) then .ss else .ds)

/-- RIP-relative addressing, for INC and DEC in 64-bit mode with mod = 00B and r/m = 101B, whatever the REX: the address
of the byte after the instruction plus the displacement, truncated to 32 bits with 67H (R257, R259, R260). -/
def Obligations.RipRelativeAddress : Prop :=
  ∀ (i : Instr) (o : RmOperand) (s : State), i.body = .incRm o ∨ i.body = .decRm o →
    wellFormed s.cfg i = true → s.cfg.mode64 = true → o.mod = 0 → o.rm = 5 →
    ∃ d : BitVec 32, o.disp = .d32 d ∧
      (effectiveAddress s i.prefixState (nextPc i s) o).2 =
        (if Carries i .addrSize then ((nextPc i s + d.signExtend 64).setWidth 32).setWidth 64
         else nextPc i s + d.signExtend 64)

/-- The operand size: outside 64-bit mode the default, or with 66H the other one of 16 and 32, and there is no REX; in
64-bit mode 64 with REX.W, else 16 with 66H, else 32 (R136, R137). That is the size of every row with a size but these:
a byte row has size 8 whatever 66H and REX.W say (R138; for the m8 string and I/O rows R150 step 4, which the spec derives),
a Jcc has 64 in 64-bit mode (R139 as the spec reads it, decision D16), and of a SIMD row the REX after the mandatory prefix
alone counts, and a mandatory 66H does not (R150 step 4, derived). -/
def Obligations.OperandSizeTable : Prop :=
  (∀ (c : Config) (i : Instr), wellFormed c i = true → c.mode64 = false → ∀ r, Prefix.rex r ∉ i.prefixes) ∧
  (∀ (c : Config) (p : PrefixState), c.mode64 = false →
    operandSize c p =
      match c.defOpSize, decide (Legacy.opSize ∈ p.legacy) with
      | .d16, false => .w16 | .d16, true => .w32 | .d32, false => .w32 | .d32, true => .w16) ∧
  (∀ (c : Config) (p : PrefixState), c.mode64 = true →
    operandSize c p =
      match p.rexBits.w, decide (Legacy.opSize ∈ p.legacy) with
      | true, _ => .w64 | false, true => .w16 | false, false => .w32) ∧
  ∀ (c : Config) (i : Instr),
    ((i.body ∈ [.movsB, .cmpsB, .stosB, .lodsB, .scasB, .insB, .outsB] ∨
        (∃ a, i.body = .movAlMoffs a ∨ i.body = .movMoffsAl a)) →
      i.opSize c = .w8) ∧
    (((∃ cc rel, i.body = .jccRel8 cc rel) ∨ (∃ cc rel, i.body = .jccRel cc rel)) →
      i.opSize c = if c.mode64 then .w64 else operandSize c i.prefixState) ∧
    (∀ rx reg o, i.body = .cvtdq2pd rx reg o ∨ i.body = .phaddw rx reg o →
      i.opSize c = operandSize c { i.prefixState with rex := rx }) ∧
    ((i.body ∈ [.movsV, .cmpsV, .stosV, .lodsV, .scasV, .insV, .outsV] ∨
        (∃ n, i.body = .incR n ∨ i.body = .decR n) ∨ (∃ o, i.body = .incRm o ∨ i.body = .decRm o) ∨
        (∃ a, i.body = .movEaxMoffs a ∨ i.body = .movMoffsEax a) ∨ (∃ n v, i.body = .movRImm n v) ∨
        (∃ m r n, i.body = .movRCr m r n ∨ i.body = .movRDr m r n ∨ i.body = .movCrR m r n ∨ i.body = .movDrR m r n)) →
      i.opSize c = operandSize c i.prefixState)

/-- The address size: outside 64-bit mode the default, or with 67H the other one of 16 and 32; in 64-bit mode 64, with
67H 32 (R140, R141). -/
def Obligations.AddressSizeTable : Prop :=
  ∀ (c : Config) (i : Instr),
    addressSize c i.prefixState =
      match c.mode64, c.defAddrSize, decide (Carries i .addrSize) with
      | true, _, false => .w64 | true, _, true => .w32
      | false, .d16, false => .w16 | false, .d16, true => .w32
      | false, .d32, false => .w32 | false, .d32, true => .w16
end

