-- ==== Sys2Proof/Laws/Instr.lean ====
section
/-! SUPPORT. An instruction is its prefixes and its body: what that makes of its bytes, its length, its
checks and its meaning. -/

namespace Sys2Proof

theorem PrefixState.ofList_append (ps qs : List Prefix) :
    PrefixState.ofList (ps ++ qs) = qs.foldl PrefixState.push (PrefixState.ofList ps) := by
  simp [PrefixState.ofList]

/-- An instruction is its body with its prefixes in front. -/
theorem Instr.withPrefixes_prefixes_body (i : Instr) : Instr.withPrefixes i.prefixes i.body = i := by
  induction i <;> simp_all [Instr.prefixes, Instr.body, Instr.withPrefixes, Prefix.onto]

/-- A body carries no prefix and is its own body. -/
theorem Instr.prefixes_body (i : Instr) : i.body.prefixes = [] := by
  induction i <;> simp_all [Instr.body, Instr.prefixes]

theorem Instr.body_body (i : Instr) : i.body.body = i.body := by
  induction i <;> simp_all [Instr.body]

theorem Prefix.prefixes_onto (p : Prefix) (i : Instr) : (p.onto i).prefixes = p :: i.prefixes := by
  rcases p with (_ | _ | _ | s | _ | _) | r <;> first | rfl | (cases s <;> rfl)

theorem Prefix.body_onto (p : Prefix) (i : Instr) : (p.onto i).body = i.body := by
  rcases p with (_ | _ | _ | s | _ | _) | r <;> first | rfl | (cases s <;> rfl)

theorem Prefix.encode_onto (p : Prefix) (i : Instr) : encode (p.onto i) = p.byte :: encode i := by
  rcases p with (_ | _ | _ | s | _ | _) | r <;> first | rfl | (cases s <;> rfl)

theorem Prefix.length_onto (p : Prefix) (i : Instr) : (p.onto i).length = 1 + i.length := by
  rcases p with (_ | _ | _ | s | _ | _) | r <;> first | rfl | (cases s <;> rfl)

theorem Prefix.execAfter_onto (p : Prefix) (q : PrefixState) (i : Instr) (s : Machine.State) :
    Machine.execAfter q (p.onto i) s = Machine.execAfter (q.push p) i s := by
  rcases p with (_ | _ | _ | g | _ | _) | r <;> first | rfl | (cases g <;> rfl)

/-- Which prefixes a term may carry: REX only in 64-bit mode (R123). -/
def Prefix.allowed (c : Config) : Prefix → Bool
  | .legacy _ => true
  | .rex _ => c.mode64

theorem Prefix.shapeOk_onto (c : Config) (p : Prefix) (q : PrefixState) (i : Instr) :
    shapeOk c q (p.onto i) = (p.allowed c && shapeOk c (q.push p) i) := by
  rcases p with (_ | _ | _ | (_ | _ | _ | _ | _ | _) | _ | _) | r <;>
    simp [Prefix.onto, shapeOk, Prefix.allowed]

theorem Instr.prefixes_withPrefixes (ps : List Prefix) (i : Instr) :
    (Instr.withPrefixes ps i).prefixes = ps ++ i.prefixes := by
  induction ps with
  | nil => rfl
  | cons p ps ih => simp [Instr.withPrefixes, Prefix.prefixes_onto] at ih ⊢; exact ih

theorem Instr.body_withPrefixes (ps : List Prefix) (i : Instr) :
    (Instr.withPrefixes ps i).body = i.body := by
  induction ps with
  | nil => rfl
  | cons p ps ih => simp [Instr.withPrefixes, Prefix.body_onto] at ih ⊢; exact ih

theorem encode_withPrefixes (ps : List Prefix) (i : Instr) :
    encode (Instr.withPrefixes ps i) = ps.map Prefix.byte ++ encode i := by
  induction ps with
  | nil => rfl
  | cons p ps ih => simp [Instr.withPrefixes, Prefix.encode_onto] at ih ⊢; exact ih

theorem length_withPrefixes (ps : List Prefix) (i : Instr) :
    (Instr.withPrefixes ps i).length = ps.length + i.length := by
  induction ps with
  | nil => simp [Instr.withPrefixes]
  | cons p ps ih => simp [Instr.withPrefixes, Prefix.length_onto] at ih ⊢; omega

theorem execAfter_withPrefixes (ps : List Prefix) (q : PrefixState) (i : Instr) (s : Machine.State) :
    Machine.execAfter q (Instr.withPrefixes ps i) s = Machine.execAfter (ps.foldl PrefixState.push q) i s := by
  induction ps generalizing q with
  | nil => rfl
  | cons p ps ih => simpa [Instr.withPrefixes, Prefix.execAfter_onto] using ih (q.push p)

theorem shapeOk_withPrefixes (c : Config) (ps : List Prefix) (q : PrefixState) (i : Instr) :
    shapeOk c q (Instr.withPrefixes ps i) =
      (ps.all (Prefix.allowed c) && shapeOk c (ps.foldl PrefixState.push q) i) := by
  induction ps generalizing q with
  | nil => simp [Instr.withPrefixes]
  | cons p ps ih =>
    have := ih (q.push p)
    simp only [Instr.withPrefixes, List.foldr_cons, Prefix.shapeOk_onto, List.all_cons, List.foldl_cons] at this ⊢
    rw [this, Bool.and_assoc]

/-- The bytes the prefixes take are as many as the prefixes. -/
theorem PrefixState.bytes_ofList (ps : List Prefix) : (PrefixState.ofList ps).bytes = ps.length := by
  have h : ∀ (ps : List Prefix) (q : PrefixState), (ps.foldl PrefixState.push q).bytes = q.bytes + ps.length := by
    intro ps
    induction ps with
    | nil => simp
    | cons p ps ih =>
      intro q
      rw [List.foldl_cons, ih]
      cases p <;> simp [PrefixState.push, PrefixState.bytes] <;> omega
  simpa [PrefixState.ofList, PrefixState.empty, PrefixState.bytes] using h ps .empty

theorem leBytes_length (n v : Nat) : (leBytes n v).length = n := by
  induction n generalizing v with
  | zero => rfl
  | succ n ih => simp [leBytes, ih]

theorem Const.bytes_length (k : Const) : k.bytes.length = k.width.bytes := by
  cases k <;> simp [Const.bytes, leBytes_length, Const.width, Width.bytes]

theorem Disp.bytes_length (d : Disp) : d.bytes.length = d.size := by
  cases d <;> simp [Disp.bytes, leBytes_length, Disp.size]

theorem RmOperand.bytes_length (reg : BitVec 3) (o : RmOperand) : (o.bytes reg).length = o.length := by
  rcases o with ⟨m, r, _ | s, d⟩ <;> simp [RmOperand.bytes, RmOperand.length, Disp.bytes_length] <;> omega

/-- The bytes of an instruction are as many as its length (R151). -/
theorem encode_length (i : Instr) : (encode i).length = i.length := by
  induction i <;>
    simp_all [encode, Instr.length, RmOperand.bytes_length, Const.bytes_length] <;>
    first
    | omega
    | (rename_i rx _ _; cases rx <;> simp [rexBytes] <;> omega)
    | (rename_i b; cases b <;> simp)

/-- An instruction's length is that of its prefixes and its body. -/
theorem Instr.length_eq (i : Instr) : i.length = i.prefixState.bytes + i.body.length := by
  conv_lhs => rw [← i.withPrefixes_prefixes_body]
  rw [length_withPrefixes, Instr.prefixState, PrefixState.bytes_ofList]

namespace Machine

/-- Every instruction runs as its body under all its prefixes, where some bytes decode to it. -/
theorem exec_eq (i : Instr) (s : State) :
    exec i s = guarded i s (execAfter i.prefixState i.body s) := by
  have h : exec i s = guarded i s (execAfter .empty i s) := by cases i <;> rfl
  have h2 := execAfter_withPrefixes i.prefixes .empty i.body s
  rw [Instr.withPrefixes_prefixes_body] at h2
  rw [h, h2]; rfl

/-- A well-formed instruction runs as its body under all its prefixes. -/
theorem exec_of_wellFormed {i : Instr} {s : State} (h : wellFormed s.cfg i = true) :
    exec i s = execAfter i.prefixState i.body s := by
  rw [exec_eq, guarded, if_pos h]

end Machine

end Sys2Proof
end

