-- ==== Sys2Proof/Laws/State.lean ====
section
/-! SUPPORT. What each update of the state does to each field: one lemma per field per update. -/

namespace Sys2Proof.Machine

/-! ## `setPc` -/

@[simp] theorem State.setPc_cfg (s : State) (v : Word) : (s.setPc v).cfg = s.cfg := rfl
@[simp] theorem State.setPc_gprs (s : State) (v : Word) : (s.setPc v).gprs = s.gprs := rfl
@[simp] theorem State.setPc_rflags (s : State) (v : Word) : (s.setPc v).rflags = s.rflags := rfl
@[simp] theorem State.setPc_segSel (s : State) (v : Word) : (s.setPc v).segSel = s.segSel := rfl
@[simp] theorem State.setPc_mmx (s : State) (v : Word) : (s.setPc v).mmx = s.mmx := rfl
@[simp] theorem State.setPc_xmm (s : State) (v : Word) : (s.setPc v).xmm = s.xmm := rfl
@[simp] theorem State.setPc_cr (s : State) (v : Word) : (s.setPc v).cr = s.cr := rfl
@[simp] theorem State.setPc_dr (s : State) (v : Word) : (s.setPc v).dr = s.dr := rfl
@[simp] theorem State.setPc_mem (s : State) (v : Word) : (s.setPc v).mem = s.mem := rfl

/-! ## `setGpr` -/

@[simp] theorem State.setGpr_cfg (s : State) (n : BitVec 4) (v : Word) : (s.setGpr n v).cfg = s.cfg := rfl
@[simp] theorem State.setGpr_rip (s : State) (n : BitVec 4) (v : Word) : (s.setGpr n v).rip = s.rip := rfl
@[simp] theorem State.setGpr_rflags (s : State) (n : BitVec 4) (v : Word) : (s.setGpr n v).rflags = s.rflags := rfl
@[simp] theorem State.setGpr_segSel (s : State) (n : BitVec 4) (v : Word) : (s.setGpr n v).segSel = s.segSel := rfl
@[simp] theorem State.setGpr_mmx (s : State) (n : BitVec 4) (v : Word) : (s.setGpr n v).mmx = s.mmx := rfl
@[simp] theorem State.setGpr_xmm (s : State) (n : BitVec 4) (v : Word) : (s.setGpr n v).xmm = s.xmm := rfl
@[simp] theorem State.setGpr_cr (s : State) (n : BitVec 4) (v : Word) : (s.setGpr n v).cr = s.cr := rfl
@[simp] theorem State.setGpr_dr (s : State) (n : BitVec 4) (v : Word) : (s.setGpr n v).dr = s.dr := rfl
@[simp] theorem State.setGpr_mem (s : State) (n : BitVec 4) (v : Word) : (s.setGpr n v).mem = s.mem := rfl

/-! ## `setArithFlags` -/

@[simp] theorem State.setArithFlags_cfg (s : State) (f : ArithFlags) : (s.setArithFlags f).cfg = s.cfg := rfl
@[simp] theorem State.setArithFlags_gprs (s : State) (f : ArithFlags) : (s.setArithFlags f).gprs = s.gprs := rfl
@[simp] theorem State.setArithFlags_rip (s : State) (f : ArithFlags) : (s.setArithFlags f).rip = s.rip := rfl
@[simp] theorem State.setArithFlags_segSel (s : State) (f : ArithFlags) : (s.setArithFlags f).segSel = s.segSel := rfl
@[simp] theorem State.setArithFlags_mmx (s : State) (f : ArithFlags) : (s.setArithFlags f).mmx = s.mmx := rfl
@[simp] theorem State.setArithFlags_xmm (s : State) (f : ArithFlags) : (s.setArithFlags f).xmm = s.xmm := rfl
@[simp] theorem State.setArithFlags_cr (s : State) (f : ArithFlags) : (s.setArithFlags f).cr = s.cr := rfl
@[simp] theorem State.setArithFlags_dr (s : State) (f : ArithFlags) : (s.setArithFlags f).dr = s.dr := rfl
@[simp] theorem State.setArithFlags_mem (s : State) (f : ArithFlags) : (s.setArithFlags f).mem = s.mem := rfl

/-! ## `writeReg` -/

@[simp] theorem State.writeReg_cfg (s : State) (n : BitVec 4) (w : Width) (v : BitVec w.bits) : (s.writeReg n w v).cfg = s.cfg := rfl
@[simp] theorem State.writeReg_rip (s : State) (n : BitVec 4) (w : Width) (v : BitVec w.bits) : (s.writeReg n w v).rip = s.rip := rfl
@[simp] theorem State.writeReg_rflags (s : State) (n : BitVec 4) (w : Width) (v : BitVec w.bits) : (s.writeReg n w v).rflags = s.rflags := rfl
@[simp] theorem State.writeReg_segSel (s : State) (n : BitVec 4) (w : Width) (v : BitVec w.bits) : (s.writeReg n w v).segSel = s.segSel := rfl
@[simp] theorem State.writeReg_mmx (s : State) (n : BitVec 4) (w : Width) (v : BitVec w.bits) : (s.writeReg n w v).mmx = s.mmx := rfl
@[simp] theorem State.writeReg_xmm (s : State) (n : BitVec 4) (w : Width) (v : BitVec w.bits) : (s.writeReg n w v).xmm = s.xmm := rfl
@[simp] theorem State.writeReg_cr (s : State) (n : BitVec 4) (w : Width) (v : BitVec w.bits) : (s.writeReg n w v).cr = s.cr := rfl
@[simp] theorem State.writeReg_dr (s : State) (n : BitVec 4) (w : Width) (v : BitVec w.bits) : (s.writeReg n w v).dr = s.dr := rfl
@[simp] theorem State.writeReg_mem (s : State) (n : BitVec 4) (w : Width) (v : BitVec w.bits) : (s.writeReg n w v).mem = s.mem := rfl

/-! ## `withFetchWord` -/

@[simp] theorem State.withFetchWord_gprs (s : State) (nbits w : Nat) : (s.withFetchWord nbits w).gprs = s.gprs := rfl
@[simp] theorem State.withFetchWord_rip (s : State) (nbits w : Nat) : (s.withFetchWord nbits w).rip = s.rip := rfl
@[simp] theorem State.withFetchWord_rflags (s : State) (nbits w : Nat) : (s.withFetchWord nbits w).rflags = s.rflags := rfl
@[simp] theorem State.withFetchWord_segSel (s : State) (nbits w : Nat) : (s.withFetchWord nbits w).segSel = s.segSel := rfl
@[simp] theorem State.withFetchWord_mmx (s : State) (nbits w : Nat) : (s.withFetchWord nbits w).mmx = s.mmx := rfl
@[simp] theorem State.withFetchWord_xmm (s : State) (nbits w : Nat) : (s.withFetchWord nbits w).xmm = s.xmm := rfl
@[simp] theorem State.withFetchWord_cr (s : State) (nbits w : Nat) : (s.withFetchWord nbits w).cr = s.cr := rfl
@[simp] theorem State.withFetchWord_dr (s : State) (nbits w : Nat) : (s.withFetchWord nbits w).dr = s.dr := rfl
@[simp] theorem State.withFetchWord_mode64 (s : State) (nbits w : Nat) :
    (s.withFetchWord nbits w).cfg.mode64 = s.cfg.mode64 := rfl
@[simp] theorem State.withFetchWord_pc (s : State) (nbits w : Nat) : (s.withFetchWord nbits w).pc = s.pc := rfl
@[simp] theorem State.withFetchWord_loc (s : State) (nbits w : Nat) (seg : Seg) (off : Word) (k : Nat) :
    (s.withFetchWord nbits w).loc seg off k = s.loc seg off k := rfl

/-! ## Reading what was written -/

@[simp] theorem State.setPc_rip (s : State) (v : Word) :
    (s.setPc v).rip = if s.cfg.mode64 then v else (v.setWidth 32).setWidth 64 := rfl
@[simp] theorem State.setGpr_pc (s : State) (n : BitVec 4) (v : Word) : (s.setGpr n v).pc = s.pc := rfl
@[simp] theorem State.writeReg_pc (s : State) (n : BitVec 4) (w : Width) (v : BitVec w.bits) :
    (s.writeReg n w v).pc = s.pc := rfl
@[simp] theorem State.setArithFlags_pc (s : State) (f : ArithFlags) : (s.setArithFlags f).pc = s.pc := rfl
@[simp] theorem State.setPc_gpr (s : State) (v : Word) (m : BitVec 4) : (s.setPc v).gpr m = s.gpr m := rfl
@[simp] theorem State.setArithFlags_gpr (s : State) (f : ArithFlags) (m : BitVec 4) :
    (s.setArithFlags f).gpr m = s.gpr m := rfl
@[simp] theorem State.setPc_flag (s : State) (v : Word) (f : Flag) : (s.setPc v).flag f = s.flag f := rfl
@[simp] theorem State.setPc_loc (s : State) (v : Word) (seg : Seg) (off : Word) (k : Nat) :
    (s.setPc v).loc seg off k = s.loc seg off k := rfl
@[simp] theorem State.setArithFlags_loc (s : State) (f : ArithFlags) (seg : Seg) (off : Word) (k : Nat) :
    (s.setArithFlags f).loc seg off k = s.loc seg off k := rfl

@[simp] theorem State.setGpr_gpr_same (s : State) (n : BitVec 4) (v : Word) : (s.setGpr n v).gpr n = v := by
  simp [State.setGpr, State.gpr]

theorem State.setGpr_gpr_other (s : State) {n m : BitVec 4} (v : Word) (h : m ≠ n) :
    (s.setGpr n v).gpr m = s.gpr m := by
  have : n.toNat ≠ m.toNat := fun e => h (BitVec.eq_of_toNat_eq e.symm)
  simp [State.setGpr, State.gpr, this]

/-- The instruction pointer reads as the value set, kept to its width. -/
theorem State.setPc_pc_toNat (s : State) (v : Word) : (s.setPc v).pc.toNat = v.toNat % s.cfg.top := by
  have h := v.isLt
  by_cases hm : s.cfg.mode64
  · simp [State.pc, hm, Config.top]; omega
  · simp [State.pc, hm, Config.top]; omega

end Sys2Proof.Machine
end

