-- ==== Sys2Proof/Laws/Memory.lean ====
section
/-! SUPPORT. Memory: reading what was written, what a write leaves alone, the canonical form; and the
locations of an access. -/

namespace Sys2Proof.Machine

/-! ## One byte -/

@[simp] theorem Memory.read_write_same (m : Memory) (a : Nat) (b : Byte) :
    Memory.read (Memory.write m a b) a = some b := by
  induction m with
  | nil => simp [Memory.write, Memory.read]
  | cons c m ih =>
    simp only [Memory.write]
    split
    · simp [Memory.read]
    · split
      · simp [Memory.read]
      · simp [Memory.read, ih, Ne.symm ‹_›]

theorem Memory.read_write_other (m : Memory) {a x : Nat} (b : Byte) (h : x ≠ a) :
    Memory.read (Memory.write m a b) x = Memory.read m x := by
  induction m with
  | nil => simp [Memory.write, Memory.read, Ne.symm h]
  | cons c m ih =>
    simp only [Memory.write]
    split
    · simp [Memory.read, Ne.symm h]
    · split
      · subst_vars; simp [Memory.read, Ne.symm h]
      · simp [Memory.read, ih]

/-- A cell of a written memory is the written one or was there before. -/
theorem Memory.mem_write {m : Memory} {a : Nat} {b : Byte} {c : Host.Cell}
    (h : c ∈ Memory.write m a b) : c = (a, b) ∨ c ∈ m := by
  induction m with
  | nil => simpa [Memory.write] using h
  | cons d m ih =>
    simp only [Memory.write] at h
    split at h
    · simpa using h
    · split at h
      · simp at h ⊢; tauto
      · simp at h ⊢; rcases h with h | h
        · exact .inr (.inl h)
        · rcases ih h with h | h <;> tauto

/-- A write keeps the canonical form. -/
theorem Memory.wf_write {m : Memory} (a : Nat) (b : Byte) (h : Memory.wf m = true) :
    Memory.wf (Memory.write m a b) = true := by
  induction m with
  | nil => simp [Memory.write, Memory.wf]
  | cons c m ih =>
    simp only [Memory.wf, Bool.and_eq_true, List.all_eq_true, decide_eq_true_eq] at h
    simp only [Memory.write]
    split
    · simp only [Memory.wf, Bool.and_eq_true, List.all_eq_true, decide_eq_true_eq]
      refine ⟨fun d hd => ?_, h⟩
      rcases List.mem_cons.1 hd with rfl | hd
      · assumption
      · have := h.1 d hd; omega
    · split
      · subst_vars
        simp only [Memory.wf, Bool.and_eq_true, List.all_eq_true, decide_eq_true_eq]
        exact h
      · simp only [Memory.wf, Bool.and_eq_true, List.all_eq_true, decide_eq_true_eq]
        refine ⟨fun d hd => ?_, ih h.2⟩
        rcases Memory.mem_write hd with rfl | hd
        · simp; omega
        · exact h.1 d hd

/-! ## Several bytes -/

/-- A write of several bytes leaves every other location alone. -/
theorem Memory.read_writeAll_other (m : Memory) (as : List Nat) (bs : List Byte) {x : Nat} (h : x ∉ as) :
    Memory.read (Memory.writeAll m as bs) x = Memory.read m x := by
  induction as generalizing m bs with
  | nil => simp [Memory.writeAll]
  | cons a as ih =>
    simp only [List.mem_cons, not_or] at h
    cases bs with
    | nil => simp [Memory.writeAll]
    | cons b bs => rw [Memory.writeAll, ih _ _ h.2, Memory.read_write_other _ _ h.1]

/-- Reading a location of a write of several bytes gives the byte written there. -/
theorem Memory.read_writeAll_at (m : Memory) (as : List Nat) (bs : List Byte) (hn : as.Nodup)
    (hl : as.length = bs.length) (k : Nat) (hk : k < as.length) :
    Memory.read (Memory.writeAll m as bs) as[k] = some (bs[k]'(hl ▸ hk)) := by
  induction as generalizing m bs k with
  | nil => simp at hk
  | cons a as ih =>
    cases bs with
    | nil => simp at hl
    | cons b bs =>
      simp only [List.nodup_cons] at hn
      rw [Memory.writeAll]
      cases k with
      | zero => simp [Memory.read_writeAll_other _ _ _ hn.1]
      | succ k => simpa using ih _ bs hn.2 (by simpa using hl) k (by simpa using hk)

/-- A write of several bytes keeps the canonical form. -/
theorem Memory.wf_writeAll {m : Memory} (as : List Nat) (bs : List Byte) (h : Memory.wf m = true) :
    Memory.wf (Memory.writeAll m as bs) = true := by
  induction as generalizing m bs with
  | nil => simpa [Memory.writeAll] using h
  | cons a as ih =>
    cases bs with
    | nil => simpa [Memory.writeAll] using h
    | cons b bs => exact ih _ (Memory.wf_write a b h)

/-- A cell of a memory written at several locations lies at one of them or was there before. -/
theorem Memory.mem_writeAll {m : Memory} {as : List Nat} {bs : List Byte} {c : Host.Cell}
    (h : c ∈ Memory.writeAll m as bs) : c.1 ∈ as ∨ c ∈ m := by
  induction as generalizing m bs with
  | nil => exact .inr (by simpa [Memory.writeAll] using h)
  | cons a as ih =>
    cases bs with
    | nil => exact .inr (by simpa [Memory.writeAll] using h)
    | cons b bs =>
      rcases ih h with h | h
      · exact .inl (List.mem_cons_of_mem _ h)
      · rcases Memory.mem_write h with rfl | h
        · exact .inl (by simp)
        · exact .inr h

/-- Several bytes are read where each of them is. -/
theorem Memory.readAll_eq_some_iff (m : Memory) (as : List Nat) (bs : List Byte) :
    Memory.readAll m as = some bs ↔ as.map (Memory.read m) = bs.map some := by
  induction as generalizing bs with
  | nil => cases bs <;> simp [Memory.readAll]
  | cons a as ih =>
    cases hr : Memory.read m a <;> cases ha : Memory.readAll m as <;> cases bs <;>
      simp_all [Memory.readAll]

/-- Several bytes cannot be read exactly where one of them holds no value (R64). -/
theorem Memory.readAll_eq_none_iff (m : Memory) (as : List Nat) :
    Memory.readAll m as = none ↔ ∃ a ∈ as, Memory.read m a = none := by
  induction as with
  | nil => simp [Memory.readAll]
  | cons a as ih =>
    cases hr : Memory.read m a <;> cases ha : Memory.readAll m as <;> simp_all [Memory.readAll]

/-! ## Locations of an access (R56) -/

theorem Config.top_pos (c : Config) : 0 < c.top := by
  unfold Config.top; split <;> omega

theorem State.loc_lt (s : State) (seg : Seg) (off : Word) (k : Nat) : s.loc seg off k < s.cfg.top :=
  Nat.mod_lt _ (Config.top_pos _)

@[simp] theorem State.locs_length (s : State) (seg : Seg) (off : Word) (n : Nat) :
    (s.locs seg off n).length = n := by simp [State.locs]

theorem State.mem_locs (s : State) (seg : Seg) (off : Word) (n a : Nat) :
    a ∈ s.locs seg off n ↔ ∃ k, k < n ∧ a = s.loc seg off k := by
  simp [State.locs, eq_comm]

theorem State.locs_getElem (s : State) (seg : Seg) (off : Word) (n k : Nat) (h : k < (s.locs seg off n).length) :
    (s.locs seg off n)[k] = s.loc seg off k := by simp [State.locs]

/-- Bytes less than 2^32 apart lie at different locations. -/
theorem State.loc_injOn (s : State) (seg : Seg) (off : Word) {j k : Nat} (hj : j < 2 ^ 32) (hk : k < 2 ^ 32)
    (h : s.loc seg off j = s.loc seg off k) : j = k := by
  have ht : 2 ^ 32 ≤ s.cfg.top := by unfold Config.top; split <;> omega
  simp only [State.loc] at h
  have h' : j ≡ k [MOD s.cfg.top] := Nat.ModEq.add_left_cancel' _ h
  exact Nat.ModEq.eq_of_lt_of_lt h' (by omega) (by omega)

/-- The locations of one access are different from one another. -/
theorem State.locs_nodup (s : State) (seg : Seg) (off : Word) {n : Nat} (hn : n ≤ 2 ^ 32) :
    (s.locs seg off n).Nodup := by
  refine List.Nodup.map_on (fun j hj k hk h => ?_) List.nodup_range
  exact s.loc_injOn seg off (by simp at hj; omega) (by simp at hk; omega) h

end Sys2Proof.Machine
end

