-- ==== Sys2Proof/Laws/Ops.lean ====
section
/-! SUPPORT. The shared operations: one lemma for each that says what it can do. -/

namespace Sys2Proof

/-! ## Byte order (R57, R58) -/

theorem leNat_lt (bs : List Byte) : leNat bs < 256 ^ bs.length := by
  induction bs with
  | nil => simp [leNat]
  | cons b bs ih =>
    have := b.isLt
    simp only [leNat, List.length_cons, Nat.pow_succ]; omega

theorem leNat_leBytes (n v : Nat) : leNat (leBytes n v) = v % 256 ^ n := by
  induction n generalizing v with
  | zero => simp [leBytes, leNat, Nat.mod_one]
  | succ n ih =>
    rw [leBytes, leNat, ih, Nat.pow_succ', Nat.mod_mul]
    simp

theorem leBytes_leNat (bs : List Byte) : leBytes bs.length (leNat bs) = bs := by
  induction bs with
  | nil => rfl
  | cons b bs ih =>
    have := b.isLt
    have h1 : BitVec.ofNat 8 (b.toNat + 256 * leNat bs) = b := by
      apply BitVec.eq_of_toNat_eq; simp; omega
    have h2 : (b.toNat + 256 * leNat bs) / 256 = leNat bs := by omega
    simp [leBytes, leNat, h1, h2, ih]

theorem leBytes_getElem (n v k : Nat) (h : k < (leBytes n v).length) :
    (leBytes n v)[k] = BitVec.ofNat 8 (v / 256 ^ k) := by
  induction n generalizing v k with
  | zero => simp [leBytes] at h
  | succ n ih =>
    cases k with
    | zero => simp [leBytes]
    | succ k => simp [leBytes, ih, Nat.pow_succ', Nat.div_div_eq_div_mul]

/-- Byte `k` of a value, counted from the least significant one. -/
theorem ofNat_div_eq_extract {w : Nat} (v : BitVec w) (k : Nat) :
    BitVec.ofNat 8 (v.toNat / 256 ^ k) = v.extractLsb' (8 * k) 8 := by
  apply BitVec.eq_of_toNat_eq
  simp [BitVec.extractLsb'_toNat, Nat.shiftRight_eq_div_pow, Nat.pow_mul]

theorem Width.bits_eq (w : Width) : w.bits = 8 * w.bytes := by cases w <;> rfl

theorem Width.pow_bytes (w : Width) : 256 ^ w.bytes = 2 ^ w.bits := by cases w <;> decide

namespace Machine

/-! ## Reading and writing memory (R56, R58, R64, R71) -/

/-- A read gives a value exactly where the bytes hold it. -/
theorem State.load_eq_ok_iff (s : State) (seg : Seg) (off : Word) (w : Width) (v : BitVec w.bits) :
    s.load seg off w = .ok v ↔ HoldsAt s seg off w v := by
  have key : ∀ bs : List Byte, bs.length = w.bytes →
      (BitVec.ofNat w.bits (leNat bs) = v ↔ bs = leBytes w.bytes v.toNat) := by
    intro bs hl
    constructor
    · rintro rfl
      have hlt := leNat_lt bs
      rw [hl, Width.pow_bytes] at hlt
      rw [BitVec.toNat_ofNat, Nat.mod_eq_of_lt hlt, ← hl, leBytes_leNat]
    · rintro rfl
      rw [leNat_leBytes, Width.pow_bytes]
      apply BitVec.eq_of_toNat_eq; simp
  constructor
  · intro h k hk
    unfold State.load at h
    split at h
    · rename_i bs hbs
      rw [Memory.readAll_eq_some_iff] at hbs
      have hl : bs.length = w.bytes := by simpa using (congrArg List.length hbs).symm
      have hb := (key bs hl).1 (Except.ok.inj h)
      have := congrArg (fun l => l[k]?) hbs
      simp [State.locs, hk, hb, leBytes_length, leBytes_getElem, ofNat_div_eq_extract] at this
      exact this
    · cases h
  · intro h
    have hr : Memory.readAll s.mem (s.locs seg off w.bytes) = some (leBytes w.bytes v.toNat) := by
      rw [Memory.readAll_eq_some_iff]
      apply List.ext_getElem (by simp [leBytes_length])
      intro k h1 h2
      have hk : k < w.bytes := by simpa using h1
      simp [State.locs, leBytes_getElem, ofNat_div_eq_extract, h k hk]
    rw [State.load, hr]
    exact congrArg Except.ok ((key _ (leBytes_length _ _)).2 rfl)

/-- A read is refused exactly where one of its bytes holds no value, and never for another reason (R64). -/
theorem State.load_eq_error_iff (s : State) (seg : Seg) (off : Word) (w : Width) (r : Refusal) :
    s.load seg off w = .error r ↔
      r = .unwrittenMemory s.pc ∧ ∃ k, k < w.bytes ∧ Memory.read s.mem (s.loc seg off k) = none := by
  have hn := Memory.readAll_eq_none_iff s.mem (s.locs seg off w.bytes)
  simp only [State.mem_locs] at hn
  unfold State.load
  split
  · rename_i bs hbs
    simp only [reduceCtorEq, false_iff, not_and]
    rintro - ⟨k, hk, he⟩
    have := hn.2 ⟨_, ⟨k, hk, rfl⟩, he⟩
    simp [hbs] at this
  · rename_i hbs
    obtain ⟨a, ⟨k, hk, rfl⟩, he⟩ := hn.1 hbs
    simp only [Except.error.injEq, eq_comm (a := r)]
    exact ⟨fun h => ⟨h, k, hk, he⟩, fun h => h.1⟩

/-- A write is refused exactly where it touches a byte of the program, and never for another reason (R71). -/
theorem State.store_eq_error_iff (s : State) (seg : Seg) (off : Word) (w : Width) (v : BitVec w.bits)
    (r : Refusal) :
    s.store seg off w v = .error r ↔
      r = .writeToCode s.pc ∧ ∃ k, k < w.bytes ∧ s.loc seg off k ∈ s.cfg.code := by
  unfold State.store
  split
  · rename_i h
    simp only [List.any_eq_true, State.mem_locs, List.contains_iff_mem] at h
    obtain ⟨a, ⟨k, hk, rfl⟩, hm⟩ := h
    simp only [Except.error.injEq, eq_comm (a := r)]
    exact ⟨fun h => ⟨h, k, hk, hm⟩, fun h => h.1⟩
  · rename_i h
    simp only [reduceCtorEq, false_iff, not_and]
    rintro - ⟨k, hk, hm⟩
    exact h (by
      simp only [List.any_eq_true, State.mem_locs, List.contains_iff_mem]
      exact ⟨_, ⟨k, hk, rfl⟩, hm⟩)

/-- The state a write leaves, where it is made. -/
theorem State.store_eq_ok_iff (s : State) (seg : Seg) (off : Word) (w : Width) (v : BitVec w.bits) (t : State) :
    s.store seg off w v = .ok t ↔
      MayStore s seg off w ∧
        t = { s with mem := Memory.writeAll s.mem (s.locs seg off w.bytes) (leBytes w.bytes v.toNat) } := by
  unfold State.store MayStore
  split
  · rename_i h
    simp only [List.any_eq_true, State.mem_locs, List.contains_iff_mem] at h
    obtain ⟨a, ⟨k, hk, rfl⟩, hm⟩ := h
    simp only [reduceCtorEq, false_iff, not_and]
    exact fun h => absurd hm (h k hk)
  · rename_i h
    have hm : ∀ k, k < w.bytes → s.loc seg off k ∉ s.cfg.code := fun k hk hm =>
      h (by
      simp only [List.any_eq_true, State.mem_locs, List.contains_iff_mem]
      exact ⟨_, ⟨k, hk, rfl⟩, hm⟩)
    simp only [Except.ok.injEq, eq_comm (a := t)]
    exact ⟨fun h => ⟨hm, h⟩, fun h => h.2⟩

/-- All that a write does: the bytes of the value, no other byte, and nothing but memory. -/
theorem State.store_spec {s t : State} {seg : Seg} {off : Word} {w : Width} {v : BitVec w.bits}
    (h : s.store seg off w v = .ok t) :
    HoldsAt t seg off w v ∧ SameMemoryBut (s.locs seg off w.bytes) s t ∧ SameRegs s t ∧ SameFlags s t ∧
      SameSpecial s t ∧ t.rip = s.rip := by
  obtain ⟨-, rfl⟩ := (s.store_eq_ok_iff ..).1 h
  refine ⟨fun k hk => ?_, fun a ha => Memory.read_writeAll_other _ _ _ ha,
    fun _ => rfl, rfl, ⟨rfl, rfl, rfl, rfl, rfl, rfl⟩, rfl⟩
  have hb : w.bytes ≤ 2 ^ 32 := by cases w <;> decide
  have := Memory.read_writeAll_at s.mem (s.locs seg off w.bytes) (leBytes w.bytes v.toNat)
    (s.locs_nodup seg off hb) (by simp [leBytes_length]) k (by simpa using hk)
  rw [State.locs_getElem, leBytes_getElem, ofNat_div_eq_extract] at this
  exact this

/-- A write that touches no byte of the program is made. -/
theorem State.store_ok {s : State} {seg : Seg} {off : Word} {w : Width} (v : BitVec w.bits)
    (h : MayStore s seg off w) : ∃ t, s.store seg off w v = .ok t :=
  ⟨_, (s.store_eq_ok_iff ..).2 ⟨h, rfl⟩⟩

/-! ## Registers (R27) -/

theorem getLsbD_append_extract {k n : Nat} (old : Word) (v : BitVec k) (i : Nat) (h : i < k + n) :
    (old.extractLsb' k n ++ v).getLsbD i = if i < k then v.getLsbD i else old.getLsbD i := by
  rw [BitVec.getLsbD_append]
  split
  · rfl
  · rw [BitVec.getLsbD_extractLsb', show k + (i - k) = i by omega]
    simp; omega

/-- What a whole register holds after a write of a width, bit by bit (R27). -/
theorem mergeReg_getLsbD (m64 : Bool) (old : Word) (w : Width) (v : BitVec w.bits) (i : Nat) (hi : i < 64) :
    (mergeReg m64 old w v).getLsbD i =
      if i < w.bits then v.getLsbD i else if w = .w32 ∧ m64 = true then false else old.getLsbD i := by
  cases w
  case w64 => simp only [mergeReg]; rw [BitVec.getLsbD_setWidth]; simp [Width.bits, hi]
  case w32 =>
    cases m64
    · simp only [mergeReg, Bool.false_eq_true, if_false]
      rw [getLsbD_append_extract (n := 32) old (BitVec.setWidth 32 v) i hi, BitVec.getLsbD_setWidth]
      by_cases h : i < 32 <;> simp [Width.bits, h]
    · simp only [mergeReg, if_true]
      rw [BitVec.getLsbD_setWidth]
      by_cases h : i < 32
      · simp [Width.bits, h, hi]
      · rw [BitVec.getLsbD_of_ge v i (by simp [Width.bits]; omega), Bool.and_false]
        simp [Width.bits, h]
  case w16 =>
    simp only [mergeReg]
    rw [getLsbD_append_extract (n := 48) old (BitVec.setWidth 16 v) i hi, BitVec.getLsbD_setWidth]
    by_cases h : i < 16 <;> simp [Width.bits, h]
  case w8 =>
    simp only [mergeReg]
    rw [getLsbD_append_extract (n := 56) old (BitVec.setWidth 8 v) i hi, BitVec.getLsbD_setWidth]
    by_cases h : i < 8 <;> simp [Width.bits, h]

/-- A register after a write of a width, bit by bit: outside 64-bit mode its bits 63:32 stay (R27, log 8). -/
theorem State.writeReg_getLsbD (s : State) (n : BitVec 4) (w : Width) (v : BitVec w.bits) (i : Nat) (hi : i < 64) :
    ((s.writeReg n w v).gpr n).getLsbD i =
      if i < w.bits then v.getLsbD i else if w = .w32 ∧ s.cfg.mode64 = true then false
      else (s.gpr n).getLsbD i := by
  simp [State.writeReg, mergeReg_getLsbD _ _ _ _ _ hi]

/-- A write of a register, bit by bit, and the other registers. -/
theorem State.writeReg_spec (s : State) (n : BitVec 4) (w : Width) (v : BitVec w.bits) :
    WroteReg s (s.writeReg n w v) n w v ∧ SameRegsBut n s (s.writeReg n w v) := by
  have hw : w.bits ≤ 64 := by cases w <;> decide
  refine ⟨⟨fun i hi => ?_, fun hc hm i hi => ?_, fun hc i hi => ?_⟩,
    fun m hm => by simp [State.writeReg, State.setGpr_gpr_other _ _ hm]⟩
  · rw [s.writeReg_getLsbD n w v i (by omega), if_pos hi]
  · subst hc
    by_cases h : i < 64
    · rw [s.writeReg_getLsbD n _ v i h, if_neg (by simp [Width.bits]; omega), if_pos ⟨rfl, hm⟩]
    · exact BitVec.getLsbD_of_ge _ _ (by omega)
  · by_cases h : i < 64
    · rw [s.writeReg_getLsbD n w v i h, if_neg (by omega), if_neg (fun hb => hc hb.1)]
    · rw [BitVec.getLsbD_of_ge _ _ (by omega), BitVec.getLsbD_of_ge _ _ (by omega)]

end Machine

end Sys2Proof
end

