-- ==== Sys2Proof/Laws/Decode.lean ====
section
/-! SUPPORT. The fields of bytes, and what each reader of the decoder makes of the bytes the encoder writes. -/

namespace Sys2Proof

/-! ## Fields -/

theorem hi2_byte233 : ∀ (h : BitVec 2) (m l : BitVec 3), hi2 (byte233 h m l) = h := by decide
theorem mid3_byte233 : ∀ (h : BitVec 2) (m l : BitVec 3), mid3 (byte233 h m l) = m := by decide
theorem lo3_byte233 : ∀ (h : BitVec 2) (m l : BitVec 3), lo3 (byte233 h m l) = l := by decide

/-- A byte is made of its three fields (R209, R220). -/
theorem byte233_fields : ∀ b : Byte, byte233 (hi2 b) (mid3 b) (lo3 b) = b := by decide

theorem Rex.ofByte_byte : ∀ r : Rex, Rex.ofByte r.byte = r := by
  rintro ⟨w, r, x, b⟩; revert w r x b; decide

theorem Rex.byte_ofByte : ∀ b : Byte, b.extractLsb' 4 4 = 0b0100#4 → (Rex.ofByte b).byte = b := by decide

/-- The REX bytes are no legacy prefix. -/
theorem Prefix.ofByte_rex : ∀ r : Rex, Prefix.ofByte true r.byte = some (.rex r) := by
  rintro ⟨w, r, x, b⟩; revert w r x b; decide

theorem Prefix.ofByte_legacy (m64 : Bool) : ∀ l : Legacy, Prefix.ofByte m64 l.byte = some (.legacy l) := by
  revert m64; rintro m64 (_ | _ | _ | (_ | _ | _ | _ | _ | _) | _ | _) <;> cases m64 <;> rfl

/-- The byte of an allowed prefix is read as that prefix. -/
theorem Prefix.ofByte_byte {c : Config} {p : Prefix} (h : p.allowed c = true) :
    Prefix.ofByte c.mode64 p.byte = some p := by
  cases p with
  | legacy l => exact Prefix.ofByte_legacy _ l
  | rex r => simp only [Prefix.allowed] at h; rw [h]; exact Prefix.ofByte_rex r

/-- A byte read as a prefix is that prefix's byte. -/
theorem Prefix.byte_of_ofByte {c : Config} {b : Byte} {p : Prefix} (h : Prefix.ofByte c.mode64 b = some p) :
    p.byte = b ∧ p.allowed c = true := by
  unfold Prefix.ofByte at h
  split at h
  · rename_i l hl
    cases h
    have := List.find?_some hl
    exact ⟨by simpa [Prefix.byte] using this, rfl⟩
  · split at h
    · rename_i hc
      cases h
      simp only [Bool.and_eq_true, beq_iff_eq] at hc
      exact ⟨Rex.byte_ofByte b hc.2, hc.1⟩
    · cases h

/-! ## Constants and displacements -/

theorem takeBytes_append {n : Nat} (bs rest : List Byte) (h : bs.length = n) :
    takeBytes n (bs ++ rest) = .ok (bs, rest) := by
  subst h
  simp [takeBytes]

theorem takeBytes_ok {n : Nat} {bs x rest : List Byte} (h : takeBytes n bs = .ok (x, rest)) :
    bs = x ++ rest ∧ x.length = n := by
  unfold takeBytes at h
  split at h
  · cases h
  · simp only [Except.ok.injEq, Prod.mk.injEq] at h
    obtain ⟨rfl, rfl⟩ := h
    exact ⟨(List.take_append_drop ..).symm, by simp; omega⟩

theorem ofNat_leNat_leBytes {w : Nat} (n : Nat) (v : BitVec w) (h : 256 ^ n = 2 ^ w) :
    BitVec.ofNat w (leNat (leBytes n v.toNat)) = v := by
  rw [leNat_leBytes, h, Nat.mod_eq_of_lt v.isLt]; simp

theorem Const.ofBytes_bytes (k : Const) : Const.ofBytes k.width k.bytes = some k := by
  cases k with
  | c16 v => exact congrArg (fun x => some (Const.c16 x)) (ofNat_leNat_leBytes 2 v rfl)
  | c32 v => exact congrArg (fun x => some (Const.c32 x)) (ofNat_leNat_leBytes 4 v rfl)
  | c64 v => exact congrArg (fun x => some (Const.c64 x)) (ofNat_leNat_leBytes 8 v rfl)

theorem Const.bytes_of_ofBytes {w : Width} {bs : List Byte} {k : Const} (hl : bs.length = w.bytes)
    (h : Const.ofBytes w bs = some k) : k.bytes = bs ∧ k.width = w := by
  have hlt := leNat_lt bs
  rw [hl] at hlt
  cases w with
  | w8 => simp [Const.ofBytes] at h
  | w16 =>
    simp only [Const.ofBytes, Option.some.injEq] at h
    subst h
    refine ⟨?_, rfl⟩
    simp only [Const.bytes, BitVec.toNat_ofNat]
    rw [Nat.mod_eq_of_lt (by simpa [Width.bytes] using hlt)]
    have := leBytes_leNat bs
    rwa [hl] at this
  | w32 =>
    simp only [Const.ofBytes, Option.some.injEq] at h
    subst h
    refine ⟨?_, rfl⟩
    simp only [Const.bytes, BitVec.toNat_ofNat]
    rw [Nat.mod_eq_of_lt (by simpa [Width.bytes] using hlt)]
    have := leBytes_leNat bs
    rwa [hl] at this
  | w64 =>
    simp only [Const.ofBytes, Option.some.injEq] at h
    subst h
    refine ⟨?_, rfl⟩
    simp only [Const.bytes, BitVec.toNat_ofNat]
    rw [Nat.mod_eq_of_lt (by simpa [Width.bytes] using hlt)]
    have := leBytes_leNat bs
    rwa [hl] at this

/-- The bytes of a constant are read as that constant. -/
theorem takeConst_append {w : Width} (k : Const) (rest : List Byte) (h : k.width = w) :
    takeConst w (k.bytes ++ rest) = .ok k := by
  subst h
  simp [takeConst, takeBytes_append _ _ k.bytes_length, Const.ofBytes_bytes, bind, Except.bind]

/-- A constant is read only from its own bytes. -/
theorem takeConst_ok {w : Width} {bs : List Byte} {k : Const} (h : takeConst w bs = .ok k) :
    k.width = w ∧ ∃ rest, bs = k.bytes ++ rest := by
  unfold takeConst at h
  cases hb : takeBytes w.bytes bs with
  | error e => simp [hb, bind, Except.bind] at h
  | ok x =>
    obtain ⟨cs, rest⟩ := x
    obtain ⟨rfl, hl⟩ := takeBytes_ok hb
    simp only [hb, bind, Except.bind] at h
    split at h
    · rename_i k' hk
      cases h
      obtain ⟨h1, h2⟩ := Const.bytes_of_ofBytes hl hk
      exact ⟨h2, rest, by rw [h1]⟩
    · cases h

theorem Disp.ofBytes_bytes (d : Disp) : Disp.ofBytes d.size d.bytes = d := by
  cases d with
  | none => rfl
  | d8 v => exact congrArg Disp.d8 (ofNat_leNat_leBytes 1 v rfl)
  | d16 v => exact congrArg Disp.d16 (ofNat_leNat_leBytes 2 v rfl)
  | d32 v => exact congrArg Disp.d32 (ofNat_leNat_leBytes 4 v rfl)

theorem Disp.bytes_of_ofBytes {n : Nat} {bs : List Byte} (hl : bs.length = n)
    (hn : n = 0 ∨ n = 1 ∨ n = 2 ∨ n = 4) :
    (Disp.ofBytes n bs).bytes = bs ∧ (Disp.ofBytes n bs).size = n := by
  have hlt := leNat_lt bs
  have hb := leBytes_leNat bs
  rw [hl] at hlt hb
  rcases hn with rfl | rfl | rfl | rfl
  · simp [Disp.ofBytes, Disp.bytes, Disp.size, List.length_eq_zero_iff.1 hl]
  · simp only [Disp.ofBytes, if_true, Disp.bytes, Disp.size, BitVec.toNat_ofNat]
    rw [Nat.mod_eq_of_lt (by simpa using hlt)]; exact ⟨hb, trivial⟩
  · simp only [Disp.ofBytes, if_true, Disp.bytes, Disp.size, BitVec.toNat_ofNat, Nat.reduceEqDiff, if_false]
    rw [Nat.mod_eq_of_lt (by simpa using hlt)]; exact ⟨hb, trivial⟩
  · simp only [Disp.ofBytes, if_true, Disp.bytes, Disp.size, BitVec.toNat_ofNat, Nat.reduceEqDiff, if_false]
    rw [Nat.mod_eq_of_lt (by simpa using hlt)]; exact ⟨hb, trivial⟩

/-! ## Operands -/

theorem dispSize_cases (a : Width) (mod : BitVec 2) (rm : BitVec 3) (sib : Option Sib) :
    dispSize a mod rm sib = 0 ∨ dispSize a mod rm sib = 1 ∨ dispSize a mod rm sib = 2 ∨
      dispSize a mod rm sib = 4 := by
  unfold dispSize
  cases sib <;> dsimp only <;> split_ifs <;> simp

theorem takeByte_cons (b : Byte) (bs : List Byte) : takeByte (b :: bs) = .ok (b, bs) := rfl

theorem takeByte_ok {bs rest : List Byte} {b : Byte} (h : takeByte bs = .ok (b, rest)) : bs = b :: rest := by
  cases bs with
  | nil => cases h
  | cons x xs => simp only [takeByte, Except.ok.injEq, Prod.mk.injEq] at h; simp [h]

/-- The bytes of an operand of the right shape are read as that operand. -/
theorem takeOperand_append {a : Width} (reg : BitVec 3) (o : RmOperand) (rest : List Byte)
    (h : o.shapeOk a = true) : takeOperand a (o.bytes reg ++ rest) = .ok (reg, o) := by
  obtain ⟨mod, rm, sib, disp⟩ := o
  simp only [RmOperand.shapeOk, Bool.and_eq_true, beq_iff_eq] at h
  obtain ⟨h1, h2⟩ := h
  have hd := takeBytes_append disp.bytes rest (disp.bytes_length.trans h2)
  have hof := disp.ofBytes_bytes
  rw [h2] at hof
  cases sib with
  | none =>
    simp only [Option.isSome_none] at h1
    simp [takeOperand, RmOperand.bytes, takeByte, bind, Except.bind, hi2_byte233, lo3_byte233, mid3_byte233,
      ← h1, takeSib, hd, hof]
  | some s =>
    simp only [Option.isSome_some] at h1
    simp [takeOperand, RmOperand.bytes, takeByte, bind, Except.bind, hi2_byte233, lo3_byte233, mid3_byte233,
      ← h1, takeSib, hd, hof]

/-- The byte of a SIB, where there is one. -/
def sibBytes : Option Sib → List Byte
  | some s => [byte233 s.scale s.index s.base]
  | none => []

/-- An operand is read only from its own bytes, and has the right shape. -/
theorem takeOperand_ok {a : Width} {bs : List Byte} {reg : BitVec 3} {o : RmOperand}
    (h : takeOperand a bs = .ok (reg, o)) :
    o.shapeOk a = true ∧ ∃ rest, bs = o.bytes reg ++ rest := by
  unfold takeOperand at h
  cases bs with
  | nil => simp [takeByte, bind, Except.bind] at h
  | cons m bs =>
    simp only [takeByte, bind, Except.bind] at h
    cases hs : takeSib (hasSib a (hi2 m) (lo3 m)) bs with
    | error e => simp [hs] at h
    | ok x =>
      obtain ⟨sib, bs'⟩ := x
      simp only [hs] at h
      cases hb : takeBytes (dispSize a (hi2 m) (lo3 m) sib) bs' with
      | error e => simp [hb] at h
      | ok y =>
        obtain ⟨ds, rest⟩ := y
        simp only [hb, Except.ok.injEq, Prod.mk.injEq] at h
        obtain ⟨rfl, rfl⟩ := h
        obtain ⟨rfl, hl⟩ := takeBytes_ok hb
        obtain ⟨d1, d2⟩ := Disp.bytes_of_ofBytes hl (dispSize_cases ..)
        have hsib : sib.isSome = hasSib a (hi2 m) (lo3 m) ∧
            bs = sibBytes sib ++ (ds ++ rest) := by
          unfold takeSib at hs
          split at hs
          · rename_i hp
            cases bs with
            | nil => simp [takeByte, bind, Except.bind] at hs
            | cons s bs =>
              simp only [takeByte, bind, Except.bind, Except.ok.injEq, Prod.mk.injEq] at hs
              obtain ⟨rfl, rfl⟩ := hs
              simp [hp, sibBytes, byte233_fields]
          · rename_i hp
            simp only [Except.ok.injEq, Prod.mk.injEq] at hs
            obtain ⟨rfl, rfl⟩ := hs
            simp [hp, sibBytes]
        refine ⟨?_, rest, ?_⟩
        · simp [RmOperand.shapeOk, hsib.1, d2]
        · rw [hsib.2]; cases sib <;> simp [RmOperand.bytes, sibBytes, byte233_fields, d1]

/-! ## Prefixes -/

/-- How many REX prefixes a list has. -/
theorem PrefixState.rexCount_cons (p : Prefix) (ps : List Prefix) :
    (PrefixState.ofList (p :: ps)).rexCount =
      (match p with | .rex _ => 1 | .legacy _ => 0) + (PrefixState.ofList ps).rexCount := by
  have h : ∀ (ps : List Prefix) (q : PrefixState),
      (ps.foldl PrefixState.push q).rexCount = q.rexCount + (PrefixState.ofList ps).rexCount := by
    intro ps
    induction ps with
    | nil => intro q; simp [PrefixState.ofList, PrefixState.empty]
    | cons p ps ih =>
      intro q
      rw [PrefixState.ofList, List.foldl_cons, List.foldl_cons, ih, ih]
      cases p <;> simp [PrefixState.push, PrefixState.empty]; omega
  rw [PrefixState.ofList, List.foldl_cons, h]
  cases p <;> simp [PrefixState.push, PrefixState.empty]

/-- Allowed prefixes with at most one REX, and a byte that is none, are read as they stand. -/
theorem takePrefixes_append {c : Config} {seen : Bool} {ps : List Prefix} {b : Byte} (rest : List Byte)
    (ha : ps.all (Prefix.allowed c) = true) (hb : Prefix.ofByte c.mode64 b = none)
    (hr : (PrefixState.ofList ps).rexCount + (if seen then 1 else 0) ≤ 1) :
    takePrefixes c.mode64 seen (ps.map Prefix.byte ++ b :: rest) = .ok (ps, b :: rest) := by
  induction ps generalizing seen with
  | nil => simp [takePrefixes, hb]
  | cons p ps ih =>
    simp only [List.all_cons, Bool.and_eq_true] at ha
    rw [PrefixState.rexCount_cons] at hr
    simp only [List.map_cons, List.cons_append, takePrefixes, Prefix.ofByte_byte ha.1]
    cases p with
    | legacy l =>
      simp only [Nat.zero_add] at hr
      simp [ih ha.2 hr, bind, Except.bind]
    | rex r =>
      cases seen with
      | true => simp at hr
      | false =>
        have := ih (seen := true) ha.2 (by simp at hr ⊢; omega)
        simp [this, bind, Except.bind]

/-- Prefixes are read only from their own bytes, with at most one REX, up to a byte that is none. -/
theorem takePrefixes_ok {c : Config} {seen : Bool} {bs rest : List Byte} {ps : List Prefix}
    (h : takePrefixes c.mode64 seen bs = .ok (ps, rest)) :
    bs = ps.map Prefix.byte ++ rest ∧ ps.all (Prefix.allowed c) = true ∧
      (PrefixState.ofList ps).rexCount + (if seen then 1 else 0) ≤ 1 ∧
      ∃ b r, rest = b :: r ∧ Prefix.ofByte c.mode64 b = none := by
  induction bs generalizing seen ps rest with
  | nil => cases h
  | cons b bs ih =>
    simp only [takePrefixes] at h
    split at h
    · rename_i hb
      simp only [Except.ok.injEq, Prod.mk.injEq] at h
      obtain ⟨rfl, rfl⟩ := h
      refine ⟨rfl, rfl, ?_, b, bs, rfl, hb⟩
      simp [PrefixState.ofList, PrefixState.empty]; split <;> omega
    · rename_i l hb
      cases ht : takePrefixes c.mode64 seen bs with
      | error e => simp [ht, bind, Except.bind] at h
      | ok x =>
        simp only [ht, bind, Except.bind, Except.ok.injEq, Prod.mk.injEq] at h
        obtain ⟨rfl, rfl⟩ := h
        obtain ⟨h1, h2, h3, h4⟩ := ih ht
        obtain ⟨e1, e2⟩ := Prefix.byte_of_ofByte hb
        exact ⟨by rw [List.map_cons, List.cons_append, e1, ← h1], by simp [e2, h2],
          by rw [PrefixState.rexCount_cons]; simpa using h3, h4⟩
    · rename_i r hb
      cases seen with
      | true => cases h
      | false =>
        simp only [Bool.false_eq_true, if_false] at h
        cases ht : takePrefixes c.mode64 true bs with
        | error e => simp [ht, bind, Except.bind] at h
        | ok x =>
          simp only [ht, bind, Except.bind, Except.ok.injEq, Prod.mk.injEq] at h
          obtain ⟨rfl, rfl⟩ := h
          obtain ⟨h1, h2, h3, h4⟩ := ih ht
          obtain ⟨e1, e2⟩ := Prefix.byte_of_ofByte hb
          exact ⟨by rw [List.map_cons, List.cons_append, e1, ← h1], by simp [e2, h2],
            by rw [PrefixState.rexCount_cons]; simp at h3 ⊢; omega, h4⟩

end Sys2Proof
end

