-- ==== Sys2Proof/Laws/Effects.lean ====
section
/-! SUPPORT. The flags, and the effects shared by the admitted instructions: reading and writing an operand,
the accumulator moves, and what running an instruction comes to. -/

namespace Sys2Proof.Machine

/-! ## Flags (R33, R284) -/

theorem setBit_getLsbD (r : Word) (i : Nat) (b : Bool) (hi : i < 64) (j : Nat) :
    (setBit r i b).getLsbD j = if j = i then b else r.getLsbD j := by
  unfold setBit
  by_cases hj : j < 64
  · cases b <;> by_cases h : j = i <;> simp [h, hi, hj]
  · have h : j ≠ i := by omega
    rw [BitVec.getLsbD_of_ge _ j (by omega), if_neg h, BitVec.getLsbD_of_ge _ j (by omega)]

/-- The flags written read as given at their bits (R33); every other bit is as before. -/
theorem State.setArithFlags_spec (s : State) (f : ArithFlags) :
    SameFlagsBut5 s (s.setArithFlags f) ∧ (s.setArithFlags f).rflags.getLsbD 6 = f.zf ∧
      (s.setArithFlags f).rflags.getLsbD 7 = f.sf ∧ (s.setArithFlags f).rflags.getLsbD 2 = f.pf ∧
      (s.setArithFlags f).rflags.getLsbD 4 = f.af ∧ (s.setArithFlags f).rflags.getLsbD 11 = f.of := by
  refine ⟨fun i h2 h4 h6 h7 h11 => ?_, ?_, ?_, ?_, ?_, ?_⟩ <;>
    simp only [State.setArithFlags, Flag.bit, setBit_getLsbD, Nat.reduceLT, Nat.reduceEqDiff,
      if_true, if_false, *]

theorem evenParity_eq {w : Nat} (r : BitVec w) :
    evenParity (r.setWidth 8) = decide ((List.range 8).countP (fun i => r.getLsbD i) % 2 = 0) := by
  unfold evenParity
  have : (List.range 8).countP (fun i => (r.setWidth 8).getLsbD i) =
      (List.range 8).countP (fun i => r.getLsbD i) := by
    apply List.countP_congr
    intro i hi
    rw [List.mem_range] at hi
    rw [BitVec.getLsbD_setWidth]; simp [hi]
  rw [this]; rfl

theorem setWidth4_beq {w : Nat} (x : BitVec w) (k : Nat) (hk : k < 16) :
    (x.setWidth 4 == BitVec.ofNat 4 k) = decide (x.toNat % 16 = k) := by
  rw [Bool.eq_iff_iff, beq_iff_eq, decide_eq_true_iff]
  constructor
  · intro h
    have := congrArg BitVec.toNat h
    simpa [Nat.mod_eq_of_lt hk] using this
  · intro h
    apply BitVec.eq_of_toNat_eq
    simpa [Nat.mod_eq_of_lt hk] using h

theorem beq_zero_toNat {w : Nat} (r : BitVec w) : (r == 0#w) = decide (r.toNat = 0) := by
  rw [Bool.eq_iff_iff, beq_iff_eq, decide_eq_true_iff]
  constructor
  · rintro rfl; simp
  · intro h; exact BitVec.eq_of_toNat_eq (by simpa using h)

/-- INC's flags are those of R284. -/
theorem incFlags_setArithFlags {w : Nat} (x : BitVec w) (s : State) :
    IncFlags x (s.setArithFlags (ArithOp.inc.flags x)) := by
  obtain ⟨-, hz, hs, hp, ha, ho⟩ := s.setArithFlags_spec (ArithOp.inc.flags x)
  refine ⟨⟨?_, ?_, ?_⟩, ?_, ?_⟩
  · rw [hz]; exact beq_zero_toNat _
  · rw [hs]; rfl
  · rw [hp]; exact evenParity_eq _
  · rw [ha]; exact setWidth4_beq x 15 (by decide)
  · rw [ho]; rfl

/-- DEC's flags are those of R284. -/
theorem decFlags_setArithFlags {w : Nat} (x : BitVec w) (s : State) :
    DecFlags x (s.setArithFlags (ArithOp.dec.flags x)) := by
  obtain ⟨-, hz, hs, hp, ha, ho⟩ := s.setArithFlags_spec (ArithOp.dec.flags x)
  refine ⟨⟨?_, ?_, ?_⟩, ?_, ?_⟩
  · rw [hz]; exact beq_zero_toNat _
  · rw [hs]; rfl
  · rw [hp]; exact evenParity_eq _
  · rw [ha]; exact setWidth4_beq x 0 (by decide)
  · rw [ho]; rfl

/-! ## Setting the instruction pointer changes nothing else -/

theorem State.setPc_same (s : State) (v : Word) :
    SameRegs s (s.setPc v) ∧ SameFlags s (s.setPc v) ∧ SameMemory s (s.setPc v) ∧ SameSpecial s (s.setPc v) :=
  ⟨fun _ => rfl, rfl, fun _ => rfl, ⟨rfl, rfl, rfl, rfl, rfl, rfl⟩⟩

/-- Writing the flags changes nothing else. -/
theorem State.setArithFlags_same (s : State) (f : ArithFlags) :
    SameRegs s (s.setArithFlags f) ∧ SameMemory s (s.setArithFlags f) ∧ SameSpecial s (s.setArithFlags f) ∧
      (s.setArithFlags f).rip = s.rip :=
  ⟨fun _ => rfl, fun _ => rfl, ⟨rfl, rfl, rfl, rfl, rfl, rfl⟩, rfl⟩

/-- Writing a register changes nothing else. -/
theorem State.writeReg_same (s : State) (n : BitVec 4) (w : Width) (v : BitVec w.bits) :
    SameFlags s (s.writeReg n w v) ∧ SameMemory s (s.writeReg n w v) ∧ SameSpecial s (s.writeReg n w v) ∧
      (s.writeReg n w v).rip = s.rip :=
  ⟨rfl, fun _ => rfl, ⟨rfl, rfl, rfl, rfl, rfl, rfl⟩, rfl⟩

/-! ## INC and DEC on a place (R285) -/

/-- On a register: its value is read, changed, written, and the flags set. -/
theorem incDecPlace_reg (op : ArithOp) (w : Width) (n : BitVec 4) (s : State) :
    incDecPlace op w (.reg n) s =
      .ok ((s.writeReg n w (op.result (s.readReg n w))).setArithFlags (op.flags (s.readReg n w))) := rfl

/-- In memory: exactly where the operand is readable and may be written, the value is changed there and the
flags are set. -/
theorem incDecPlace_mem_ok_iff (op : ArithOp) (w : Width) (seg : Seg) (off : Word) (s t : State) :
    incDecPlace op w (.mem seg off) s = .ok t ↔
      ∃ x s', HoldsAt s seg off w x ∧ s.store seg off w (op.result x) = .ok s' ∧
        t = s'.setArithFlags (op.flags x) := by
  unfold incDecPlace
  simp only [readPlace, writePlace]
  constructor
  · intro h
    split at h
    · cases h
    · rename_i x hx
      split at h
      · cases h
      · rename_i s' hs'
        exact ⟨x, s', (s.load_eq_ok_iff ..).1 hx, hs', (Except.ok.inj h).symm⟩
  · rintro ⟨x, s', hx, hs', rfl⟩
    rw [(s.load_eq_ok_iff ..).2 hx]
    simp only
    rw [hs']

/-! ## The accumulator moves (R302 to R305) -/

/-- A load of the accumulator: exactly where the bytes hold a value, the accumulator takes it. -/
theorem loadAccumulator_ok_iff (p : PrefixState) (w : Width) (a : Const) (s t : State) :
    loadAccumulator p w a s = .ok t ↔ ∃ v, HoldsAt s (segmentFor p .ds) a.zext w v ∧ t = s.writeReg 0 w v := by
  unfold loadAccumulator
  constructor
  · intro h
    split at h
    · cases h
    · rename_i v hv
      exact ⟨v, (s.load_eq_ok_iff ..).1 hv, (Except.ok.inj h).symm⟩
  · rintro ⟨v, hv, rfl⟩
    rw [(s.load_eq_ok_iff ..).2 hv]

/-! ## Running an instruction -/

theorem pcNext_eq (i : Instr) (s : State) : pcNext i.prefixState i.body s = s.pc.toNat + i.length := by
  rw [pcNext, ← i.length_eq]

/-- An admitted instruction goes on exactly where its prefixes are legal, it ends inside the
instruction-pointer range, and its own effect is a state. -/
theorem runAdmitted_eq_next_iff (p : PrefixState) (body : Instr) (s t : State) (act : Except Refusal State) :
    runAdmitted p body s act = .next t ↔
      prefixRefusal (attrs body) p s.pc = none ∧ pcNext p body s ≤ s.cfg.top ∧
        ∃ s', act = .ok s' ∧ t = s'.setPc (BitVec.ofNat 64 (pcNext p body s)) := by
  unfold runAdmitted
  cases prefixRefusal (attrs body) p s.pc with
  | some r => simp
  | none =>
    by_cases h : s.cfg.top < pcNext p body s
    · simp [h]
    · cases act <;> simp [h, Nat.le_of_not_lt h, eq_comm]

/-- An admitted instruction never faults. -/
theorem runAdmitted_ne_fault (p : PrefixState) (body : Instr) (s : State) (act : Except Refusal State) (f : Fault) :
    runAdmitted p body s act ≠ .fault f := by
  unfold runAdmitted
  cases prefixRefusal (attrs body) p s.pc with
  | some r => simp
  | none => by_cases h : s.cfg.top < pcNext p body s <;> cases act <;> simp [h]

/-- A decode-only instruction is refused: by the prefix check, or since the source gives it no meaning. -/
theorem runDecodeOnly_eq (name : String) (p : PrefixState) (body : Instr) (s : State) :
    runDecodeOnly name p body s =
      .refused ((prefixRefusal (attrs body) p s.pc).getD (.semanticsNotInSource name s.pc)) := by
  unfold runDecodeOnly
  cases prefixRefusal (attrs body) p s.pc <;> rfl

/-- A move to or from a control or debug register never goes on. -/
theorem crdrMove_ne_next (impl : Vector Bool 8) (p : PrefixState) (body : Instr) (reg : BitVec 3) (s t : State) :
    crdrMove impl p body reg s ≠ .next t := by
  unfold crdrMove raiseInvalidOpcode
  cases prefixRefusal (attrs body) p s.pc with
  | some r => simp
  | none => dsimp only; split <;> simp

/-- A fault of such a move is #UD at the instruction's address, for a register that is not implemented. -/
theorem crdrMove_eq_fault (impl : Vector Bool 8) (p : PrefixState) (body : Instr) (reg : BitVec 3) (s : State)
    (f : Fault) (h : crdrMove impl p body reg s = .fault f) :
    f = .invalidOpcode s.pc ∧ implemented impl (crdrNumber p reg) = false := by
  unfold crdrMove raiseInvalidOpcode at h
  cases hp : prefixRefusal (attrs body) p s.pc with
  | some r => simp [hp] at h
  | none =>
    simp only [hp] at h
    split at h
    · cases h
    · rename_i hi
      exact ⟨by injection h with h; exact h.symm, by simpa using hi⟩

/-! ## The prefix check (R153) -/

theorem segment_eq_none {p : PrefixState}
    (h : ∀ l ∈ p.legacy, ∀ g, l ≠ .seg g) : p.segment = none := by
  unfold PrefixState.segment
  rw [List.findSome?_eq_none_iff]
  intro l hl
  cases l with
  | seg g => exact absurd rfl (h _ hl g)
  | _ => rfl

/-- Prefixes that an admitted instruction may carry pass the check. -/
theorem prefixRefusal_of_legal {a : RowAttrs} {p : PrefixState} (pc : Word)
    (hs : a.simd = false) (hj : a.jcc = false) (h : legalPrefixes a.mem p.legacy = true) :
    prefixRefusal a p pc = none := by
  simp only [legalPrefixes, List.all_eq_true] at h
  have hl : ∀ l ∈ p.legacy, l ≠ .lock ∧ l ≠ .repne ∧ l ≠ .rep := by
    intro l hm; have := h l hm; cases l <;> simp_all
  have h1 : Legacy.lock ∉ p.legacy := fun hm => (hl _ hm).1 rfl
  have h2 : Legacy.repne ∉ p.legacy := fun hm => (hl _ hm).2.1 rfl
  have h3 : Legacy.rep ∉ p.legacy := fun hm => (hl _ hm).2.2 rfl
  cases hm : a.mem with
  | true => simp [prefixRefusal, *]
  | false =>
    have hseg : p.segment = none := segment_eq_none (by
      rintro l hl' g rfl; have := h _ hl'; simp [hm] at this)
    have h67 : Legacy.addrSize ∉ p.legacy := fun hl' => by have := h _ hl'; simp [hm] at this
    simp [prefixRefusal, PrefixState.has67, *]

/-- Prefixes that pass the check of an admitted instruction are legal. -/
theorem legal_of_prefixRefusal {a : RowAttrs} {p : PrefixState} {pc : Word}
    (hr : a.rep = false) (hj : a.jcc = false) (h : prefixRefusal a p pc = none) :
    legalPrefixes a.mem p.legacy = true := by
  have hseg : ∀ g, .seg g ∈ p.legacy → p.segment.isSome = true := by
    intro g hg
    unfold PrefixState.segment
    rw [List.findSome?_isSome_iff]
    exact ⟨_, hg, rfl⟩
  unfold prefixRefusal at h
  split_ifs at h with c1 c2 c3 c4 c5 c6
  simp only [legalPrefixes, List.all_eq_true]
  intro l hl
  cases l with
  | lock => simp_all
  | repne => simp_all
  | rep => simp_all
  | opSize => rfl
  | seg g => simpa [hseg g hl, hj] using c4
  | addrSize => simpa [PrefixState.has67, hl] using c5

end Sys2Proof.Machine
end

