-- ==== Sys2Proof/Laws/Rows.lean ====
section
/-! SUPPORT. The opcode table as conditions on the opcode bytes (R146 to R149, R152), and what the decoder makes
of prefixes followed by an opcode. -/

namespace Sys2Proof

/-- The rows of one-byte opcodes. -/
def oneByteRow (m64 : Bool) (b : Byte) (reg : BitVec 3) : Option RowKind :=
  if b &&& 0xF8 = 0x40 ∧ m64 = false then some .incR
  else if b &&& 0xF8 = 0x48 ∧ m64 = false then some .decR
  else if b = 0xFF ∧ reg = 0 then some .incRm
  else if b = 0xFF ∧ reg = 1 then some .decRm
  else if b = 0xA0 then some .movAlMoffs
  else if b = 0xA1 then some .movEaxMoffs
  else if b = 0xA2 then some .movMoffsAl
  else if b = 0xA3 then some .movMoffsEax
  else if b &&& 0xF8 = 0xB8 then some .movRImm
  else if b = 0xA4 then some .movsB
  else if b = 0xA5 then some .movsV
  else if b = 0xA6 then some .cmpsB
  else if b = 0xA7 then some .cmpsV
  else if b = 0xAA then some .stosB
  else if b = 0xAB then some .stosV
  else if b = 0xAC then some .lodsB
  else if b = 0xAD then some .lodsV
  else if b = 0xAE then some .scasB
  else if b = 0xAF then some .scasV
  else if b = 0x6C then some .insB
  else if b = 0x6D then some .insV
  else if b = 0x6E then some .outsB
  else if b = 0x6F then some .outsV
  else if b &&& 0xF0 = 0x70 then some .jccRel8
  else none

/-- The rows of two-byte opcodes, by mandatory prefix and second byte. -/
def twoByteRow (mp : Option Legacy) (b : Byte) : Option RowKind :=
  if b = 0xE6 ∧ mp = some .rep then some .cvtdq2pd
  else if mp ≠ none then none
  else if b &&& 0xF0 = 0x80 then some .jccRel
  else if b = 0x20 then some .movRCr
  else if b = 0x21 then some .movRDr
  else if b = 0x22 then some .movCrR
  else if b = 0x23 then some .movDrR
  else none

theorem lookupRow_one : ∀ (m64 : Bool) (b : Byte), b ≠ 0xFF →
    needsDigit m64 [b] = false ∧ lookupRow m64 none [b] 0 = oneByteRow m64 b 0 := by
  decide +kernel

theorem lookupRow_FF : ∀ (m64 : Bool) (reg : BitVec 3),
    needsDigit m64 [0xFF] = true ∧ lookupRow m64 none [0xFF] reg = oneByteRow m64 0xFF reg := by
  decide +kernel

theorem opNumber_two : ∀ b : Byte,
    ((opNumber [0x0F#8, b] &&& 0xFFFF == 0x0FE6) = decide (b = 0xE6)) ∧
    ((opNumber [0x0F#8, b] &&& 0xFFF0 == 0x0F80) = decide (b &&& 0xF0 = 0x80)) ∧
    ((opNumber [0x0F#8, b] &&& 0xFFFF == 0x0F20) = decide (b = 0x20)) ∧
    ((opNumber [0x0F#8, b] &&& 0xFFFF == 0x0F21) = decide (b = 0x21)) ∧
    ((opNumber [0x0F#8, b] &&& 0xFFFF == 0x0F22) = decide (b = 0x22)) ∧
    ((opNumber [0x0F#8, b] &&& 0xFFFF == 0x0F23) = decide (b = 0x23)) := by
  decide +kernel

theorem lookupRow_two (m64 : Bool) (mp : Option Legacy) (b : Byte) (reg : BitVec 3) :
    lookupRow m64 mp [0x0F#8, b] reg = twoByteRow mp b := by
  obtain ⟨h1, h2, h3, h4, h5, h6⟩ := opNumber_two b
  simp only [lookupRow, opRows, List.find?_cons, OpRow.matchesAll, OpRow.matchesOpcode, List.length_cons,
    List.length_nil, Nat.reduceAdd, Nat.reduceBEq, Bool.false_and, Bool.true_and, Bool.false_or, List.find?_nil,
    h1, h2, h3, h4, h5, h6, Bool.and_true, Bool.not_false, twoByteRow]
  cases mp with
  | none => simp; split_ifs <;> simp [*]
  | some l =>
    cases l <;> simp
    all_goals
      first
      | (split_ifs <;> simp [*])
      | (rw [show ∀ g, (Legacy.rep == g) = decide (Legacy.rep = g) from fun _ => rfl]; simp)

/-- The row of three-byte opcodes, by mandatory prefix and third byte. -/
def threeByteRow (mp : Option Legacy) (b2 b3 : Byte) : Option RowKind :=
  if b2 = 0x38 ∧ b3 = 0x01 ∧ mp = some .opSize then some .phaddw else none

theorem opNumber_three : ∀ b : Byte,
    ((opNumber [0x0F#8, 0x38, b] &&& 0xFFFFFF == 0x0F3801) = decide (b = 0x01)) ∧
    ((opNumber [0x0F#8, 0x3A, b] &&& 0xFFFFFF == 0x0F3801) = false) := by
  decide +kernel

theorem lookupRow_three (m64 : Bool) (mp : Option Legacy) (b2 b3 : Byte) (h : b2 = 0x38 ∨ b2 = 0x3A)
    (reg : BitVec 3) : lookupRow m64 mp [0x0F#8, b2, b3] reg = threeByteRow mp b2 b3 := by
  obtain ⟨h1, h2⟩ := opNumber_three b3
  rcases h with rfl | rfl
  · simp only [lookupRow, opRows, List.find?_cons, OpRow.matchesAll, OpRow.matchesOpcode, List.length_cons,
      List.length_nil, Nat.reduceAdd, Nat.reduceBEq, Bool.false_and, Bool.true_and, Bool.false_or, List.find?_nil,
      h1, Bool.and_true, Bool.not_false, threeByteRow, true_and]
    by_cases hm : mp = some .opSize
    · subst hm
      simp only [beq_self_eq_true, Bool.and_true, and_true]
      split_ifs with hb
      · simp only [hb, decide_true, Option.map_some]
      · simp only [hb, decide_false, Option.map_none]
    · have : (some Legacy.opSize == mp) = false := beq_eq_false_iff_ne.2 (Ne.symm hm)
      simp only [this, Bool.and_false, hm, and_false, if_false, Option.map_none]
  · simp only [lookupRow, opRows, List.find?_cons, OpRow.matchesAll, OpRow.matchesOpcode, List.length_cons,
      List.length_nil, Nat.reduceAdd, Nat.reduceBEq, Bool.false_and, Bool.true_and, Bool.false_or, List.find?_nil,
      h2, threeByteRow]
    simp

/-! ## From prefixes to the opcode -/

/-- After legal prefixes the decoder goes on at the opcode. -/
theorem decodeStream_prefixes {c : Config} {ps : List Prefix} {b : Byte} (bs : List Byte)
    (ha : ps.all (Prefix.allowed c) = true) (hg : repeatsGroup (PrefixState.ofList ps).legacy = false)
    (hr : (PrefixState.ofList ps).rexCount ≤ 1) (hb : Prefix.ofByte c.mode64 b = none) :
    decodeStream c (ps.map Prefix.byte ++ b :: bs) =
      if b = 0x0F then decodeEscape c ps bs else decodeOneByte c ps b bs := by
  have := takePrefixes_append (seen := false) bs ha hb (by simpa using hr)
  simp [decodeStream, this, bind, Except.bind, hg, takeByte]

/-- A one-byte opcode other than FFH, whose row is `k`. -/
theorem decodeOneByte_row {c : Config} (ps : List Prefix) {b : Byte} (bs : List Byte) {k : RowKind} (h : b ≠ 0xFF)
    (hk : oneByteRow c.mode64 b 0 = some k) : decodeOneByte c ps b bs = decodeRow c ps k b bs := by
  obtain ⟨h1, h2⟩ := lookupRow_one c.mode64 b h
  rw [hk] at h2
  simp only [decodeOneByte, h1, Bool.false_eq_true, if_false, bind, Except.bind, h2]

/-- Opcode FFH with ModR/M byte `m`, whose row is `k`. -/
theorem decodeOneByte_FF {c : Config} (ps : List Prefix) (m : Byte) (bs : List Byte) {k : RowKind}
    (hk : oneByteRow c.mode64 0xFF (mid3 m) = some k) :
    decodeOneByte c ps 0xFF (m :: bs) = decodeRow c ps k 0xFF (m :: bs) := by
  obtain ⟨h1, h2⟩ := lookupRow_FF c.mode64 (mid3 m)
  rw [hk] at h2
  simp only [decodeOneByte, h1, if_true, takeByte, bind, Except.bind, h2]

/-! ## What the rows say of the opcode bytes -/

/-- What a one-byte row says of the opcode byte. -/
def rowFact (m64 : Bool) (b : Byte) : RowKind → Bool
  | .incR => b &&& 0xF8 = 0x40 && !m64
  | .decR => b &&& 0xF8 = 0x48 && !m64
  | .movRImm => b &&& 0xF8 = 0xB8
  | .jccRel8 => b &&& 0xF0 = 0x70
  | .movAlMoffs => b = 0xA0
  | .movEaxMoffs => b = 0xA1
  | .movMoffsAl => b = 0xA2
  | .movMoffsEax => b = 0xA3
  | .movsB => b = 0xA4
  | .movsV => b = 0xA5
  | .cmpsB => b = 0xA6
  | .cmpsV => b = 0xA7
  | .stosB => b = 0xAA
  | .stosV => b = 0xAB
  | .lodsB => b = 0xAC
  | .lodsV => b = 0xAD
  | .scasB => b = 0xAE
  | .scasV => b = 0xAF
  | .insB => b = 0x6C
  | .insV => b = 0x6D
  | .outsB => b = 0x6E
  | .outsV => b = 0x6F
  | _ => false

/-- A one-byte opcode has the byte of its row. -/
theorem rowFact_of : ∀ (m64 : Bool) (b : Byte), b ≠ 0xFF → ∀ k ∈ oneByteRow m64 b 0,
    rowFact m64 b k = true := by
  decide +kernel

/-- A two-byte opcode has the bytes of its row. -/
theorem twoByte_cases (mp : Option Legacy) (b : Byte) (k : RowKind) (h : twoByteRow mp b = some k) :
    (k = .cvtdq2pd ∧ b = 0xE6 ∧ mp = some .rep) ∨
    (mp = none ∧ ((k = .jccRel ∧ b &&& 0xF0 = 0x80) ∨ (k = .movRCr ∧ b = 0x20) ∨ (k = .movRDr ∧ b = 0x21) ∨
      (k = .movCrR ∧ b = 0x22) ∨ (k = .movDrR ∧ b = 0x23))) := by
  unfold twoByteRow at h
  split at h
  · rename_i hc; injection h with h; exact .inl ⟨h.symm, hc⟩
  · by_cases hm : mp = none
    swap
    · rw [if_pos hm] at h; cases h
    · rw [if_neg (by simpa using hm)] at h
      refine .inr ⟨hm, ?_⟩
      by_cases a1 : b &&& 0xF0 = 0x80
      · rw [if_pos a1] at h; injection h with h; exact .inl ⟨h.symm, a1⟩
      rw [if_neg a1] at h
      by_cases a2 : b = 0x20
      · rw [if_pos a2] at h; injection h with h; exact .inr (.inl ⟨h.symm, a2⟩)
      rw [if_neg a2] at h
      by_cases a3 : b = 0x21
      · rw [if_pos a3] at h; injection h with h; exact .inr (.inr (.inl ⟨h.symm, a3⟩))
      rw [if_neg a3] at h
      by_cases a4 : b = 0x22
      · rw [if_pos a4] at h; injection h with h; exact .inr (.inr (.inr (.inl ⟨h.symm, a4⟩)))
      rw [if_neg a4] at h
      by_cases a5 : b = 0x23
      · rw [if_pos a5] at h; injection h with h; exact .inr (.inr (.inr (.inr ⟨h.symm, a5⟩)))
      rw [if_neg a5] at h; cases h

/-! ## Streams -/

theorem plain_iff (p : PrefixState) :
    shapeOk.plain p = true ↔ repeatsGroup p.legacy = false ∧ p.rexCount ≤ 1 := by
  simp [shapeOk.plain]

/-- Prefixes and a one-byte opcode other than FFH. -/
theorem decodeStream_row {c : Config} {ps : List Prefix} {b : Byte} (bs : List Byte) {k : RowKind}
    (ha : ps.all (Prefix.allowed c) = true) (hg : shapeOk.plain (PrefixState.ofList ps) = true)
    (hff : b ≠ 0xFF) (h0f : b ≠ 0x0F) (hk : oneByteRow c.mode64 b 0 = some k)
    (hb : Prefix.ofByte c.mode64 b = none) :
    decodeStream c (ps.map Prefix.byte ++ b :: bs) = decodeRow c ps k b bs := by
  obtain ⟨h1, h2⟩ := (plain_iff _).1 hg
  rw [decodeStream_prefixes bs ha h1 h2 hb, if_neg h0f, decodeOneByte_row ps bs hff hk]

/-- Prefixes, FFH and a ModR/M byte. -/
theorem decodeStream_FF {c : Config} {ps : List Prefix} (m : Byte) (bs : List Byte) {k : RowKind}
    (ha : ps.all (Prefix.allowed c) = true) (hg : shapeOk.plain (PrefixState.ofList ps) = true)
    (hk : oneByteRow c.mode64 0xFF (mid3 m) = some k) :
    decodeStream c (ps.map Prefix.byte ++ 0xFF :: m :: bs) = decodeRow c ps k 0xFF (m :: bs) := by
  obtain ⟨h1, h2⟩ := (plain_iff _).1 hg
  have hb : ∀ m, Prefix.ofByte m 0xFF = none := by decide
  rw [decodeStream_prefixes _ ha h1 h2 (hb _), if_neg (by decide), decodeOneByte_FF ps m bs hk]

/-- The bytes that can be a mandatory prefix (R105). -/
theorem mandatory_cases (p : PrefixState) :
    p.mandatory = none ∨ p.mandatory = some .opSize ∨ p.mandatory = some .repne ∨ p.mandatory = some .rep := by
  unfold PrefixState.mandatory
  split <;> simp

/-- Prefixes and a two-byte opcode with a row. -/
theorem decodeStream_two {c : Config} {ps : List Prefix} {b2 : Byte} (bs : List Byte) {k : RowKind}
    (ha : ps.all (Prefix.allowed c) = true) (h1 : repeatsGroup (PrefixState.ofList ps).legacy = false)
    (h2 : (PrefixState.ofList ps).rexCount ≤ 1) (h38 : b2 ≠ 0x38) (h3a : b2 ≠ 0x3A)
    (hk : (twoByteRow (PrefixState.ofList ps).mandatory b2).or (twoByteRow none b2) = some k) :
    decodeStream c (ps.map Prefix.byte ++ 0x0F :: b2 :: bs) = decodeRow c ps k b2 bs := by
  have hb : ∀ m, Prefix.ofByte m 0x0F = none := by decide
  rw [decodeStream_prefixes _ ha h1 h2 (hb _), if_pos rfl]
  simp only [decodeEscape, takeByte, bind, Except.bind, beq_iff_eq, Bool.or_eq_true, h38, h3a, or_self, if_false,
    Option.toList_none, lookupRow_two, Option.getD_none]
  cases hm : twoByteRow (PrefixState.ofList ps).mandatory b2 with
  | some k' => rw [hm] at hk; simp at hk; simp [hk]
  | none => rw [hm] at hk; simp at hk; simp [hk]

/-! ## The mandatory prefix of a SIMD row (R105, R124) -/

/-- The mandatory prefix and the REX after it are split off. -/
theorem simd_split (ps : List Prefix) (l : Legacy) (rx : Option Rex) :
    splitMandatory (ps ++ .legacy l :: (rx.map Prefix.rex).toList) = (ps, rx) := by
  cases rx with
  | none => simp [splitMandatory]
  | some r =>
    have : ps ++ [Prefix.legacy l, .rex r] = (ps ++ [.legacy l]) ++ [.rex r] := by simp
    show splitMandatory (ps ++ [Prefix.legacy l, .rex r]) = _
    rw [this, splitMandatory, List.getLast?_concat]
    simp only [List.dropLast_concat]

/-- What prefixes with a mandatory one and the REX after it come to. -/
theorem simd_state (ps : List Prefix) (l : Legacy) (rx : Option Rex) :
    (PrefixState.ofList (ps ++ .legacy l :: (rx.map Prefix.rex).toList)) =
      ⟨(PrefixState.ofList ps).legacy ++ [l], rx,
        (PrefixState.ofList ps).rexCount + (if rx.isSome then 1 else 0)⟩ := by
  cases rx <;> simp [PrefixState.ofList_append, PrefixState.push]

/-- Where there is a mandatory prefix it is the last prefix, or the last before a REX. -/
theorem getLast_of_mandatory {ps : List Prefix} {l : Legacy} (hm : (PrefixState.ofList ps).mandatory = some l)
    (hr : (PrefixState.ofList ps).rexCount ≤ 1) :
    ∃ (qs : List Prefix) (rx : Option Rex), ps = qs ++ .legacy l :: (rx.map Prefix.rex).toList := by
  have hlast : (PrefixState.ofList ps).legacy.getLast? = some l := by
    unfold PrefixState.mandatory at hm
    split at hm <;> simp_all
  rcases List.eq_nil_or_concat ps with rfl | ⟨qs, p, rfl⟩
  · simp [PrefixState.ofList, PrefixState.empty] at hlast
  rw [List.concat_eq_append, PrefixState.ofList_append] at hlast hr
  cases p with
  | legacy l' =>
    simp [PrefixState.push] at hlast
    exact ⟨qs, none, by simp [hlast]⟩
  | rex r =>
    simp [PrefixState.push] at hlast hr
    rcases List.eq_nil_or_concat qs with rfl | ⟨qs', p, rfl⟩
    · simp [PrefixState.ofList, PrefixState.empty] at hlast
    rw [List.concat_eq_append, PrefixState.ofList_append] at hlast hr
    cases p with
    | legacy l' =>
      simp [PrefixState.push] at hlast
      exact ⟨qs', some r, by simp [hlast]⟩
    | rex r' => simp [PrefixState.push] at hr

end Sys2Proof
end

