-- ==== Sys2Proof/Laws/Step.lean ====
section
/-! SUPPORT. What running an instruction and a step can do, said once. -/

namespace Sys2Proof.Machine

/-! ## What each opcode does after the prefixes `p` -/

theorem execAfter_twoByteEscape (p : PrefixState) (b2 : Byte) (b3 : Option Byte) (s : State) :
    execAfter p (.twoByteEscape b2 b3) s =
      .refused (.notShown (0x0F#8 :: b2 :: b3.toList) (p.mandatory.map Legacy.byte) s.pc) := rfl

theorem execAfter_incR (p : PrefixState) (n : BitVec 3) (s : State) :
    execAfter p (.incR n) s = runAdmitted p (.incR n) s
      (incDecPlace .inc (operandSize s.cfg p) (.reg (regNum false n)) s) := rfl

theorem execAfter_decR (p : PrefixState) (n : BitVec 3) (s : State) :
    execAfter p (.decR n) s = runAdmitted p (.decR n) s
      (incDecPlace .dec (operandSize s.cfg p) (.reg (regNum false n)) s) := rfl

theorem execAfter_incRm (p : PrefixState) (o : RmOperand) (s : State) :
    execAfter p (.incRm o) s = runAdmitted p (.incRm o) s
      (incDecPlace .inc (operandSize s.cfg p) (placeOf s p (BitVec.ofNat 64 (pcNext p (.incRm o) s)) o) s) := rfl

theorem execAfter_decRm (p : PrefixState) (o : RmOperand) (s : State) :
    execAfter p (.decRm o) s = runAdmitted p (.decRm o) s
      (incDecPlace .dec (operandSize s.cfg p) (placeOf s p (BitVec.ofNat 64 (pcNext p (.decRm o) s)) o) s) := rfl

theorem execAfter_movAlMoffs (p : PrefixState) (a : Const) (s : State) :
    execAfter p (.movAlMoffs a) s = runAdmitted p (.movAlMoffs a) s (loadAccumulator p .w8 a s) := rfl

theorem execAfter_movEaxMoffs (p : PrefixState) (a : Const) (s : State) :
    execAfter p (.movEaxMoffs a) s = runAdmitted p (.movEaxMoffs a) s (loadAccumulator p (operandSize s.cfg p) a s) := rfl

theorem execAfter_movMoffsAl (p : PrefixState) (a : Const) (s : State) :
    execAfter p (.movMoffsAl a) s = runAdmitted p (.movMoffsAl a) s (storeAccumulator p .w8 a s) := rfl

theorem execAfter_movMoffsEax (p : PrefixState) (a : Const) (s : State) :
    execAfter p (.movMoffsEax a) s = runAdmitted p (.movMoffsEax a) s (storeAccumulator p (operandSize s.cfg p) a s) := rfl

theorem execAfter_movRImm (p : PrefixState) (n : BitVec 3) (v : Const) (s : State) :
    execAfter p (.movRImm n v) s = runAdmitted p (.movRImm n v) s (.ok (s.writeReg
      (regNum p.rexBits.b n) (operandSize s.cfg p) (immediate (operandSize s.cfg p) v))) := rfl

theorem execAfter_cvtdq2pd (p : PrefixState) (rx : Option Rex) (reg : BitVec 3) (o : RmOperand) (s : State) :
    execAfter p (.cvtdq2pd rx reg o) s = runDecodeOnly "CVTDQ2PD" p (.cvtdq2pd rx reg o) s := rfl

theorem execAfter_phaddw (p : PrefixState) (rx : Option Rex) (reg : BitVec 3) (o : RmOperand) (s : State) :
    execAfter p (.phaddw rx reg o) s = runDecodeOnly "PHADDW" p (.phaddw rx reg o) s := rfl

theorem execAfter_movsB (p : PrefixState) (s : State) :
    execAfter p .movsB s = runDecodeOnly "MOVS" p .movsB s := rfl

theorem execAfter_movsV (p : PrefixState) (s : State) :
    execAfter p .movsV s = runDecodeOnly "MOVS" p .movsV s := rfl

theorem execAfter_cmpsB (p : PrefixState) (s : State) :
    execAfter p .cmpsB s = runDecodeOnly "CMPS" p .cmpsB s := rfl

theorem execAfter_cmpsV (p : PrefixState) (s : State) :
    execAfter p .cmpsV s = runDecodeOnly "CMPS" p .cmpsV s := rfl

theorem execAfter_stosB (p : PrefixState) (s : State) :
    execAfter p .stosB s = runDecodeOnly "STOS" p .stosB s := rfl

theorem execAfter_stosV (p : PrefixState) (s : State) :
    execAfter p .stosV s = runDecodeOnly "STOS" p .stosV s := rfl

theorem execAfter_lodsB (p : PrefixState) (s : State) :
    execAfter p .lodsB s = runDecodeOnly "LODS" p .lodsB s := rfl

theorem execAfter_lodsV (p : PrefixState) (s : State) :
    execAfter p .lodsV s = runDecodeOnly "LODS" p .lodsV s := rfl

theorem execAfter_scasB (p : PrefixState) (s : State) :
    execAfter p .scasB s = runDecodeOnly "SCAS" p .scasB s := rfl

theorem execAfter_scasV (p : PrefixState) (s : State) :
    execAfter p .scasV s = runDecodeOnly "SCAS" p .scasV s := rfl

theorem execAfter_insB (p : PrefixState) (s : State) :
    execAfter p .insB s = runDecodeOnly "INS" p .insB s := rfl

theorem execAfter_insV (p : PrefixState) (s : State) :
    execAfter p .insV s = runDecodeOnly "INS" p .insV s := rfl

theorem execAfter_outsB (p : PrefixState) (s : State) :
    execAfter p .outsB s = runDecodeOnly "OUTS" p .outsB s := rfl

theorem execAfter_outsV (p : PrefixState) (s : State) :
    execAfter p .outsV s = runDecodeOnly "OUTS" p .outsV s := rfl

theorem execAfter_jccRel8 (p : PrefixState) (cc : BitVec 4) (rel : BitVec 8) (s : State) :
    execAfter p (.jccRel8 cc rel) s = runDecodeOnly "Jcc" p (.jccRel8 cc rel) s := rfl

theorem execAfter_jccRel (p : PrefixState) (cc : BitVec 4) (rel : Const) (s : State) :
    execAfter p (.jccRel cc rel) s = runDecodeOnly "Jcc" p (.jccRel cc rel) s := rfl

theorem execAfter_movRCr (p : PrefixState) (mod : BitVec 2) (reg rm : BitVec 3) (s : State) :
    execAfter p (.movRCr mod reg rm) s = crdrMove s.cfg.implCR p (.movRCr mod reg rm) reg s := rfl

theorem execAfter_movRDr (p : PrefixState) (mod : BitVec 2) (reg rm : BitVec 3) (s : State) :
    execAfter p (.movRDr mod reg rm) s = crdrMove s.cfg.implDR p (.movRDr mod reg rm) reg s := rfl

theorem execAfter_movCrR (p : PrefixState) (mod : BitVec 2) (reg rm : BitVec 3) (s : State) :
    execAfter p (.movCrR mod reg rm) s = crdrMove s.cfg.implCR p (.movCrR mod reg rm) reg s := rfl

theorem execAfter_movDrR (p : PrefixState) (mod : BitVec 2) (reg rm : BitVec 3) (s : State) :
    execAfter p (.movDrR mod reg rm) s = crdrMove s.cfg.implDR p (.movDrR mod reg rm) reg s := rfl

/-! ## What an instruction can do -/

/-- A width that a register may be written with: 64 bits only in 64-bit mode (R136). -/
def WriteWidth (c : Config) (w : Width) : Prop := c.mode64 = false → w ≠ .w64

theorem writeWidth_operandSize (c : Config) (p : PrefixState) : WriteWidth c (operandSize c p) := by
  intro h
  rw [operandSize, h]
  cases p.has66 <;> cases c.defOpSize <;> simp [DefSize.width, DefSize.other]

/-- The changes an admitted instruction makes before the instruction pointer moves on: a register, a register and
the flags, bytes of memory, bytes of memory and the flags. -/
def Changed (s s' : State) : Prop :=
  (∃ n w v, WriteWidth s.cfg w ∧ s' = s.writeReg n w v) ∨
  (∃ n w v f, WriteWidth s.cfg w ∧ s' = (s.writeReg n w v).setArithFlags f) ∨
  (∃ seg off w v, s.store seg off w v = .ok s') ∨
  (∃ seg off w v s'' f, s.store seg off w v = .ok s'' ∧ s' = s''.setArithFlags f)

theorem changed_incDecPlace {op : ArithOp} {w : Width} {pl : Place} {s s' : State} (hw : WriteWidth s.cfg w)
    (h : incDecPlace op w pl s = .ok s') : Changed s s' := by
  cases pl with
  | reg n =>
    rw [incDecPlace_reg] at h
    injection h with h
    exact .inr (.inl ⟨n, w, _, _, hw, h.symm⟩)
  | mem seg off =>
    obtain ⟨x, s'', -, hs, rfl⟩ := (incDecPlace_mem_ok_iff ..).1 h
    exact .inr (.inr (.inr ⟨seg, off, w, _, s'', _, hs, rfl⟩))

theorem changed_loadAccumulator {p : PrefixState} {w : Width} {a : Const} {s s' : State} (hw : WriteWidth s.cfg w)
    (h : loadAccumulator p w a s = .ok s') : Changed s s' := by
  obtain ⟨v, -, rfl⟩ := (loadAccumulator_ok_iff ..).1 h
  exact .inl ⟨0, w, v, hw, rfl⟩

/-- All that an instruction does when it completes: its body is an admitted one with legal prefixes, it ends inside
the instruction-pointer range, and one change is made before the instruction pointer moves on. -/
theorem exec_eq_next {i : Instr} {s t : State} (h : exec i s = .next t) :
    wellFormed s.cfg i = true ∧ admitted i.body = true ∧
      prefixRefusal (attrs i.body) i.prefixState s.pc = none ∧ s.pc.toNat + i.length ≤ s.cfg.top ∧
      ∃ s', Changed s s' ∧ t = s'.setPc (BitVec.ofNat 64 (s.pc.toNat + i.length)) := by
  have hw : wellFormed s.cfg i = true := by
    by_contra hw
    rw [exec_eq, guarded, if_neg hw] at h
    cases h
  rw [exec_of_wellFormed hw] at h
  have key : ∀ act : Except Refusal State, (∀ s', act = .ok s' → Changed s s') → admitted i.body = true →
      runAdmitted i.prefixState i.body s act = .next t →
      wellFormed s.cfg i = true ∧ admitted i.body = true ∧
        prefixRefusal (attrs i.body) i.prefixState s.pc = none ∧ s.pc.toNat + i.length ≤ s.cfg.top ∧
        ∃ s', Changed s s' ∧ t = s'.setPc (BitVec.ofNat 64 (s.pc.toNat + i.length)) := by
    intro act hc ha hr
    obtain ⟨h1, h2, s', h3, h4⟩ := (runAdmitted_eq_next_iff ..).1 hr
    rw [pcNext_eq] at h2 h4
    exact ⟨hw, ha, h1, h2, s', hc s' h3, h4⟩
  have hb := i.body_body
  generalize hbody : i.body = body at h key hb
  cases body with
  | incR n => rw [execAfter_incR] at h; exact key _ (fun _ => changed_incDecPlace (writeWidth_operandSize _ _)) rfl h
  | decR n => rw [execAfter_decR] at h; exact key _ (fun _ => changed_incDecPlace (writeWidth_operandSize _ _)) rfl h
  | incRm o => rw [execAfter_incRm] at h; exact key _ (fun _ => changed_incDecPlace (writeWidth_operandSize _ _)) rfl h
  | decRm o => rw [execAfter_decRm] at h; exact key _ (fun _ => changed_incDecPlace (writeWidth_operandSize _ _)) rfl h
  | movAlMoffs a => rw [execAfter_movAlMoffs] at h; exact key _ (fun _ => changed_loadAccumulator (fun _ => by simp)) rfl h
  | movEaxMoffs a => rw [execAfter_movEaxMoffs] at h; exact key _ (fun _ => changed_loadAccumulator (writeWidth_operandSize _ _)) rfl h
  | movMoffsAl a =>
    rw [execAfter_movMoffsAl] at h; exact key _ (fun _ hs => .inr (.inr (.inl ⟨_, _, _, _, hs⟩))) rfl h
  | movMoffsEax a =>
    rw [execAfter_movMoffsEax] at h; exact key _ (fun _ hs => .inr (.inr (.inl ⟨_, _, _, _, hs⟩))) rfl h
  | movRImm n v =>
    rw [execAfter_movRImm] at h; exact key _ (fun _ hs => .inl ⟨_, _, _, writeWidth_operandSize _ _, (Except.ok.inj hs).symm⟩) rfl h
  | twoByteEscape b2 b3 => cases h
  | movRCr m r n => rw [execAfter_movRCr] at h; exact (crdrMove_ne_next _ _ _ _ _ _ h).elim
  | movRDr m r n => rw [execAfter_movRDr] at h; exact (crdrMove_ne_next _ _ _ _ _ _ h).elim
  | movCrR m r n => rw [execAfter_movCrR] at h; exact (crdrMove_ne_next _ _ _ _ _ _ h).elim
  | movDrR m r n => rw [execAfter_movDrR] at h; exact (crdrMove_ne_next _ _ _ _ _ _ h).elim
  | lock j | repne j | rep j | csOverride j | ssOverride j | dsOverride j | esOverride j | fsOverride j
  | gsOverride j | opSizeOverride j | addrSizeOverride j =>
    have h1 := congrArg Instr.length hb
    have h2 : j.body.length ≤ j.length := by rw [j.length_eq]; omega
    simp only [Instr.body, Instr.length] at h1
    omega
  | rex r j =>
    have h1 := congrArg Instr.length hb
    have h2 : j.body.length ≤ j.length := by rw [j.length_eq]; omega
    simp only [Instr.body, Instr.length] at h1
    omega
  | cvtdq2pd rx reg o => rw [execAfter_cvtdq2pd, runDecodeOnly_eq] at h; cases h
  | phaddw rx reg o => rw [execAfter_phaddw, runDecodeOnly_eq] at h; cases h
  | movsB => rw [execAfter_movsB, runDecodeOnly_eq] at h; cases h
  | movsV => rw [execAfter_movsV, runDecodeOnly_eq] at h; cases h
  | cmpsB => rw [execAfter_cmpsB, runDecodeOnly_eq] at h; cases h
  | cmpsV => rw [execAfter_cmpsV, runDecodeOnly_eq] at h; cases h
  | stosB => rw [execAfter_stosB, runDecodeOnly_eq] at h; cases h
  | stosV => rw [execAfter_stosV, runDecodeOnly_eq] at h; cases h
  | lodsB => rw [execAfter_lodsB, runDecodeOnly_eq] at h; cases h
  | lodsV => rw [execAfter_lodsV, runDecodeOnly_eq] at h; cases h
  | scasB => rw [execAfter_scasB, runDecodeOnly_eq] at h; cases h
  | scasV => rw [execAfter_scasV, runDecodeOnly_eq] at h; cases h
  | insB => rw [execAfter_insB, runDecodeOnly_eq] at h; cases h
  | insV => rw [execAfter_insV, runDecodeOnly_eq] at h; cases h
  | outsB => rw [execAfter_outsB, runDecodeOnly_eq] at h; cases h
  | outsV => rw [execAfter_outsV, runDecodeOnly_eq] at h; cases h
  | jccRel8 cc rel => rw [execAfter_jccRel8, runDecodeOnly_eq] at h; cases h
  | jccRel cc rel => rw [execAfter_jccRel, runDecodeOnly_eq] at h; cases h

/-! ## Fetching (R59) -/

/-- An instruction byte is one that memory holds at a location of the program (R59, R71, log 6). -/
theorem codeByte_eq_some_iff (s : State) (a : Nat) (b : Byte) :
    s.codeByte a = some b ↔ Memory.read s.mem a = some b ∧ a ∈ s.cfg.code := by
  unfold State.codeByte
  by_cases h : a ∈ s.cfg.code <;> simp [h]

/-- What fetching answers: instruction bytes in order, and why there is no further one: no instruction byte is there
(R59, R64), or the asked number has been read (R82). -/
theorem fetchFrom_spec (s : State) (k n : Nat) :
    (s.fetchFrom k n).1.length ≤ n ∧
    (∀ j (h : j < (s.fetchFrom k n).1.length),
      s.codeByte (s.loc .cs s.pc (k + j)) = some (s.fetchFrom k n).1[j]) ∧
    (s.fetchFrom k n).2 =
      if (s.fetchFrom k n).1.length = n then .tooLong s.pc else .unwrittenMemory s.pc := by
  induction n generalizing k with
  | zero => simp [State.fetchFrom]
  | succ n ih =>
    cases hr : s.codeByte (s.loc .cs s.pc k) with
    | none => simp [State.fetchFrom, hr]
    | some b =>
      have : s.fetchFrom k (n + 1) = (b :: (s.fetchFrom (k + 1) n).1, (s.fetchFrom (k + 1) n).2) := by
        simp [State.fetchFrom, hr]
      obtain ⟨h1, h2, h3⟩ := ih (k + 1)
      rw [this]
      refine ⟨by simpa using h1, fun j hj => ?_, by simpa using h3⟩
      cases j with
      | zero => simpa using hr
      | succ j =>
        have := h2 j (by simpa using hj)
        rw [show k + 1 + j = k + (j + 1) by omega] at this
        simpa using this

/-- Instruction bytes that stand in order are fetched. -/
theorem fetchFrom_of_bytes (s : State) (k n : Nat) (bs : List Byte) (hn : bs.length ≤ n)
    (h : ∀ j (hj : j < bs.length), s.codeByte (s.loc .cs s.pc (k + j)) = some bs[j]) :
    s.fetchFrom k n =
      (bs ++ (s.fetchFrom (k + bs.length) (n - bs.length)).1, (s.fetchFrom (k + bs.length) (n - bs.length)).2) := by
  induction bs generalizing k n with
  | nil => simp
  | cons b bs ih =>
    cases n with
    | zero => simp at hn
    | succ n =>
      have h0 := h 0 (by simp)
      simp only [Nat.add_zero, List.getElem_cons_zero] at h0
      have := ih (k + 1) n (by simpa using hn) (fun j hj => by
        have := h (j + 1) (by simpa using hj)
        rwa [show k + (j + 1) = k + 1 + j by omega, List.getElem_cons_succ] at this)
      have e : s.fetchFrom k (n + 1) = (b :: (s.fetchFrom (k + 1) n).1, (s.fetchFrom (k + 1) n).2) := by
        simp [State.fetchFrom, h0]
      rw [e, this, List.length_cons, show k + 1 + bs.length = k + (bs.length + 1) by omega,
        show n + 1 - (bs.length + 1) = n - bs.length by omega]
      rfl

/-- A step that goes on runs the decoded instruction. -/
theorem step_eq_next {s t : State} (h : step s = .next t) :
    ∃ i, decode s.cfg s.fetch.1 = .ok i ∧ exec i s = .next t := by
  unfold step at h
  split at h
  · cases h
  · exact ⟨_, ‹_›, h⟩

/-! ## The configuration's program (R71) -/

/-- What bytes decode to does not depend on where the program's bytes are. -/
theorem decode_code (c : Config) (as : List Nat) (bs : List Byte) : decode { c with code := as } bs = decode c bs := rfl

/-- Nor does which instructions are well formed. -/
theorem wellFormed_code (c : Config) (as : List Nat) (i : Instr) :
    wellFormed { c with code := as } i = wellFormed c i := by
  have h : ∀ p, shapeOk { c with code := as } p i = shapeOk c p i := by
    induction i with
    | lock i ih | repne i ih | rep i ih | csOverride i ih | ssOverride i ih | dsOverride i ih | esOverride i ih
    | fsOverride i ih | gsOverride i ih | opSizeOverride i ih | addrSizeOverride i ih =>
      intro p; simp only [shapeOk, ih]
    | rex r i ih => intro p; simp only [shapeOk, ih]; rfl
    | _ => intro p; rfl
  rw [wellFormed, h]; rfl

end Sys2Proof.Machine
end

