-- ==== Sys2Proof/Laws/Running.lean ====
section
/-! SUPPORT. What a well-formed instruction's prefixes are, and what running it comes to, said once for every
opcode: a refused prefix, an admitted opcode that is ready, a register or a memory operand. -/

namespace Sys2Proof

/-! ## Prefixes of a well-formed instruction -/

/-- A well-formed instruction: its body has the right shape under its prefixes, and each prefix is allowed. -/
theorem wellFormed_shape {c : Config} {i : Instr} (h : wellFormed c i = true) :
    shapeOk c i.prefixState i.body = true ∧ i.prefixes.all (Prefix.allowed c) = true ∧ i.length ≤ 15 := by
  simp only [wellFormed, Bool.and_eq_true, decide_eq_true_eq] at h
  have := shapeOk_withPrefixes c i.prefixes .empty i.body
  rw [Instr.withPrefixes_prefixes_body] at this
  rw [this, Bool.and_eq_true] at h
  exact ⟨h.1.2, h.1.1, h.2⟩

theorem repeatsGroup_of_append {ls : List Legacy} {l : Legacy} (h : repeatsGroup (ls ++ [l]) = false) :
    repeatsGroup ls = false := by
  induction ls with
  | nil => rfl
  | cons k ks ih =>
    simp only [List.cons_append, repeatsGroup, Bool.or_eq_false_iff, List.any_append] at h ⊢
    exact ⟨h.1.1, ih h.2⟩

/-- A well-formed instruction has no two prefixes of one group (R102) and at most one REX (R135). -/
theorem wellFormed_groups {c : Config} {i : Instr} (h : wellFormed c i = true) :
    repeatsGroup i.prefixState.legacy = false ∧ i.prefixState.rexCount ≤ 1 := by
  have h := (wellFormed_shape h).1
  have hb := i.prefixes_body
  generalize i.prefixState = p at *
  generalize i.body = body at *
  have hp : shapeOk.plain p = true → repeatsGroup p.legacy = false ∧ p.rexCount ≤ 1 := (plain_iff p).1
  have hs : ∀ mp rx, simdPrefixesOk c p mp rx = true → repeatsGroup p.legacy = false ∧ p.rexCount ≤ 1 := by
    intro mp rx h
    simp only [simdPrefixesOk, Bool.and_eq_true, Bool.not_eq_true'] at h
    refine ⟨repeatsGroup_of_append h.1, ?_⟩
    have h2 := h.2
    split at h2
    · simp at h2; omega
    · simpa using h2
  cases body <;> first
    | (simp [Instr.prefixes] at hb; done)
    | (simp only [shapeOk, Bool.and_eq_true] at h
       first | exact hp h | exact hp h.1 | exact hp h.1.1 | exact hs _ _ h.1)

/-- Where no group repeats, two prefixes of one group are one. -/
theorem eq_of_group {ls : List Legacy} (h : repeatsGroup ls = false) {a b : Legacy} (ha : a ∈ ls) (hb : b ∈ ls)
    (hg : a.group = b.group) : a = b := by
  induction ls with
  | nil => simp at ha
  | cons k ks ih =>
    simp only [repeatsGroup, Bool.or_eq_false_iff, List.any_eq_false] at h
    rcases List.mem_cons.1 ha with rfl | ha' <;> rcases List.mem_cons.1 hb with rfl | hb'
    · rfl
    · have := h.1 _ hb'; simp [hg] at this
    · have := h.1 _ ha'; simp [hg] at this
    · exact ih h.2 ha' hb'

/-- The legacy prefixes of two lists of prefixes are those of each. -/
theorem PrefixState.legacy_ofList_append (ps qs : List Prefix) :
    (PrefixState.ofList (ps ++ qs)).legacy = (PrefixState.ofList ps).legacy ++ (PrefixState.ofList qs).legacy := by
  have h : ∀ (qs : List Prefix) (q : PrefixState),
      (qs.foldl PrefixState.push q).legacy = q.legacy ++ (PrefixState.ofList qs).legacy := by
    intro qs
    induction qs with
    | nil => intro q; simp [PrefixState.ofList, PrefixState.empty]
    | cons p qs ih =>
      intro q
      have e : PrefixState.ofList (p :: qs) = qs.foldl PrefixState.push (PrefixState.empty.push p) := rfl
      rw [List.foldl_cons, ih, e, ih]
      cases p <;> simp [PrefixState.push, PrefixState.empty]
  rw [PrefixState.ofList_append, h]

theorem PrefixState.legacy_ofList_cons (l : Legacy) (ps : List Prefix) :
    (PrefixState.ofList (.legacy l :: ps)).legacy = l :: (PrefixState.ofList ps).legacy :=
  PrefixState.legacy_ofList_append [.legacy l] ps

namespace Machine

/-- An instruction carries the prefix put in front of it. -/
theorem carries_onto (l : Legacy) (j : Instr) : Carries ((Prefix.legacy l).onto j) l := by
  unfold Carries Instr.prefixState
  rw [Prefix.prefixes_onto, PrefixState.legacy_ofList_cons]
  exact List.mem_cons_self

theorem has66_eq (i : Instr) : i.prefixState.has66 = decide (Carries i .opSize) := by
  simp [PrefixState.has66, Carries]

theorem has67_eq (i : Instr) : i.prefixState.has67 = decide (Carries i .addrSize) := by
  simp [PrefixState.has67, Carries]

/-- The segment in effect is the one a prefix of the instruction names (R54). -/
theorem segment_eq_some_iff {c : Config} {i : Instr} {g : Seg} (hw : wellFormed c i = true) :
    i.prefixState.segment = some g ↔ Carries i (.seg g) := by
  have find : ∀ g, i.prefixState.segment = some g → Carries i (.seg g) := by
    intro g h
    unfold PrefixState.segment at h
    rw [List.findSome?_eq_some_iff] at h
    obtain ⟨l1, l, l2, h1, h2, h3⟩ := h
    unfold Carries; rw [h1]
    cases l <;> simp at h2 ⊢
    simp [h2]
  refine ⟨find g, fun h => ?_⟩
  have hs : i.prefixState.segment.isSome = true := by
    unfold PrefixState.segment
    rw [List.findSome?_isSome_iff]
    exact ⟨_, h, rfl⟩
  obtain ⟨g', hg'⟩ := Option.isSome_iff_exists.1 hs
  have := eq_of_group (wellFormed_groups hw).1 h (find g' hg') rfl
  cases this; exact hg'

/-! ## Running -/

/-- An instruction that the prefix check refuses (R153) is refused so, whatever its opcode with a row. -/
theorem exec_of_prefixRefusal {i : Instr} {s : State} (hw : wellFormed s.cfg i = true) {r : Refusal}
    (hr : prefixRefusal (attrs i.body) i.prefixState s.pc = some r)
    (he : ∀ b2 b3, i.body ≠ .twoByteEscape b2 b3) : exec i s = .refused r := by
  rw [exec_of_wellFormed hw]
  have hb := i.prefixes_body
  generalize i.body = body at *
  cases body <;> first
    | (simp [Instr.prefixes] at hb; done)
    | exact absurd rfl (he _ _)
    | (simp only [execAfter, incRIn, decRIn, incRmIn, decRmIn, movAlMoffsIn, movEaxMoffsIn, movMoffsAlIn,
        movMoffsEaxIn, movRImmIn, runAdmitted, hr]; done)
    | (simp only [execAfter, cvtdq2pdIn, phaddwIn, movsBIn, movsVIn, cmpsBIn, cmpsVIn, stosBIn, stosVIn, lodsBIn,
        lodsVIn, scasBIn, scasVIn, insBIn, insVIn, outsBIn, outsVIn, jccRel8In, jccRelIn, runDecodeOnly, hr]; done)
    | simp only [execAfter, movRCrIn, movRDrIn, movCrRIn, movDrRIn, crdrMove, hr]

/-- What an admitted instruction that is ready comes to: the refusal of its effect, or the state its effect leaves,
with the instruction pointer moved on. -/
def readyOutcome (i : Instr) (s : State) : Except Refusal State → Outcome
  | .error r => .refused r
  | .ok s' => .next (s'.setPc (nextPc i s))

theorem exec_of_ready {i body : Instr} {s : State} {m : Bool} (hb : i.body = body) (hm : (attrs body).mem = m)
    (hs : (attrs body).simd = false) (hj : (attrs body).jcc = false) (h : Ready m i s) (act : Except Refusal State)
    (hx : execAfter i.prefixState body s = runAdmitted i.prefixState body s act) :
    exec i s = readyOutcome i s act := by
  subst hb
  obtain ⟨hw, hl, ht⟩ := h
  rw [exec_of_wellFormed hw, hx]
  unfold runAdmitted readyOutcome
  rw [prefixRefusal_of_legal s.pc hs hj (by rw [hm]; exact hl), pcNext_eq]
  simp only [if_neg (Nat.not_lt.2 ht)]
  rfl

/-- What R150 step 4 asks of an instruction's row is asked of its opcode. -/
theorem row_body (i : Instr) :
    i.byteOnly = i.body.byteOnly ∧ i.nearBranch = i.body.nearBranch ∧ i.mandatory = i.body.mandatory := by
  induction i <;> first | assumption | exact ⟨rfl, rfl, rfl⟩

/-- The operand size of a byte row (R138). -/
theorem opSize_of_byteOnly {c : Config} {i : Instr} (h : i.body.byteOnly = true) : i.opSize c = .w8 := by
  rw [Instr.opSize, (row_body i).1, if_pos h]

/-- The operand size of a near branch (R139). -/
theorem opSize_of_nearBranch {c : Config} {i : Instr} (hb : i.body.byteOnly = false) (h : i.body.nearBranch = true) :
    i.opSize c = branchSize c i.prefixState := by
  rw [Instr.opSize, (row_body i).1, (row_body i).2.1, hb, h]; rfl

/-- The operand size of a row with a mandatory prefix: the REX after that prefix counts (R150 step 4). -/
theorem opSize_of_mandatory {c : Config} {i : Instr} {mp : Legacy} {rx : Option Rex} (hb : i.body.byteOnly = false)
    (hn : i.body.nearBranch = false) (h : i.body.mandatory = some (mp, rx)) :
    i.opSize c = operandSize c { i.prefixState with rex := rx } := by
  rw [Instr.opSize, Instr.rexInEffect, (row_body i).1, (row_body i).2.1, (row_body i).2.2, hb, hn, h]; rfl

/-- The operand size of every other row: the one its meaning works with (R136, R137). -/
theorem opSize_of_plain {c : Config} {i : Instr} (hb : i.body.byteOnly = false) (hn : i.body.nearBranch = false)
    (h : i.body.mandatory = none) : i.opSize c = operandSize c i.prefixState := by
  rw [Instr.opSize, Instr.rexInEffect, (row_body i).1, (row_body i).2.1, (row_body i).2.2, hb, hn, h]; rfl

/-- The operands of an instruction are those of its opcode after its prefixes (R15). -/
theorem operandsOf_eq (i : Instr) (s : State) :
    operandsOf i s = operandsAfter s i.prefixState (nextPc i s) i.body := by
  have onto : ∀ (p : Prefix) (q : PrefixState) (next : Word) (j : Instr),
      operandsAfter s q next (p.onto j) = operandsAfter s (q.push p) next j := by
    rintro ((_ | _ | _ | g | _ | _) | r) q next j <;> first | rfl | (cases g <;> rfl)
  have all : ∀ (ps : List Prefix) (q : PrefixState) (next : Word) (j : Instr),
      operandsAfter s q next (Instr.withPrefixes ps j) = operandsAfter s (ps.foldl PrefixState.push q) next j := by
    intro ps
    induction ps with
    | nil => intros; rfl
    | cons p ps ih =>
      intro q next j
      exact (onto ..).trans (ih ..)
  have h := all i.prefixes .empty (nextPc i s) i.body
  rw [Instr.withPrefixes_prefixes_body] at h
  exact h

/-- A mod = 3 operand is a register, any other one memory (R112). -/
theorem inMemory_of_mod {o : RmOperand} (h : o.mod ≠ 3) : o.inMemory = true := bne_iff_ne.2 h

theorem not_inMemory_of_mod {o : RmOperand} (h : o.mod = 3) : o.inMemory = false := by
  unfold RmOperand.inMemory; rw [h]; rfl

theorem Config.top_dvd (c : Config) : c.top ≤ 2 ^ 64 ∧ c.top ∣ 2 ^ 64 := by
  unfold Config.top
  split
  · exact ⟨Nat.le_refl _, Nat.dvd_refl _⟩
  · exact ⟨by decide, by decide⟩

/-- The instruction pointer set to the next instruction is kept to its width (R31, R32). -/
theorem setPc_nextPc_toNat {i : Instr} {s s' : State} (hc : s'.cfg = s.cfg) :
    (s'.setPc (nextPc i s)).pc.toNat = (s.pc.toNat + i.length) % s.cfg.top := by
  rw [State.setPc_pc_toNat, hc, nextPc, BitVec.toNat_ofNat, Nat.mod_mod_of_dvd _ (Config.top_dvd _).2]

/-- Setting the instruction pointer to the next instruction is advancing it (R31). -/
theorem advancedBy_setPc {i : Instr} {s s' : State} (hc : s'.cfg = s.cfg) :
    AdvancedBy i s (s'.setPc (nextPc i s)) := fun h => by
  rw [setPc_nextPc_toNat hc, Nat.mod_eq_of_lt h]

/-- The bytes of a constant are those of its zero-extended value, at its size. -/
theorem const_bytes_eq (a : Const) : a.bytes = leBytes a.width.bytes a.zext.toNat := by
  cases a <;> simp [Const.bytes, Const.width, Width.bytes, Const.zext] <;> (congr 1; omega)

/-- A displacement in an address of `n` bits is its signed value modulo 2^n. -/
theorem disp_sext_toNat (d : Disp) (n : Nat) : ((d.sext n).toNat : Int) = dispInt d % 2 ^ n := by
  have key : ∀ {k : Nat} (v : BitVec k), ((v.signExtend n).toNat : Int) = v.toInt % 2 ^ n := by
    intro k v
    rw [BitVec.signExtend, BitVec.toNat_ofInt]
    have : (0 : Int) ≤ v.toInt % 2 ^ n := Int.emod_nonneg _ (by positivity)
    simpa using this
  cases d with
  | none => simp [Disp.sext, dispInt]
  | d8 v => exact key v
  | d16 v => exact key v
  | d32 v => exact key v

end Machine

end Sys2Proof
end

