-- ==== Sys2Proof/Laws/Streams.lean ====
section
/-! SUPPORT. The decoder reads from the front: bytes that follow change nothing but that the bytes ended. -/

namespace Sys2Proof

/-- A reader that reads the same when more bytes follow, unless it had too few. -/
def Mono {α : Type} (f : List Byte → Except DecodeError (α × List Byte)) : Prop :=
  ∀ bs x, f bs = .error .truncated ∨ (∃ e, f bs = .error e ∧ f (bs ++ x) = .error e) ∨
    ∃ a r, f bs = .ok (a, r) ∧ f (bs ++ x) = .ok (a, r ++ x)

/-- The same, for a reader that gives no rest. -/
def MonoE {α : Type} (f : List Byte → Except DecodeError α) : Prop :=
  ∀ bs x, f bs = .error .truncated ∨ f (bs ++ x) = f bs

theorem MonoE.bind {α β : Type} {f : List Byte → Except DecodeError (α × List Byte)}
    {g : α × List Byte → Except DecodeError β} (hf : Mono f) (hg : ∀ a, MonoE fun r => g (a, r)) :
    MonoE fun bs => f bs >>= g := by
  intro bs x
  rcases hf bs x with h | ⟨e, h, h'⟩ | ⟨a, r, h, h'⟩
  · left; simp [h, Bind.bind, Except.bind]
  · right; simp [h, h', Bind.bind, Except.bind]
  · rcases hg a r x with h2 | h2
    · left; simp [h, h2, Bind.bind, Except.bind]
    · right; simp [h, h', h2, Bind.bind, Except.bind]

theorem MonoE.map {α β : Type} {f : List Byte → Except DecodeError α} {g : α → Except DecodeError β}
    (hf : MonoE f) : MonoE fun bs => f bs >>= g := by
  intro bs x
  rcases hf bs x with h | h
  · left; simp [h, Bind.bind, Except.bind]
  · right; simp [h]

theorem Mono.bind {α β : Type} {f : List Byte → Except DecodeError (α × List Byte)}
    {g : α × List Byte → Except DecodeError (β × List Byte)} (hf : Mono f) (hg : ∀ a, Mono fun r => g (a, r)) :
    Mono fun bs => f bs >>= g := by
  intro bs x
  rcases hf bs x with h | ⟨e, h, h'⟩ | ⟨a, r, h, h'⟩
  · left; simp [h, Bind.bind, Except.bind]
  · right; left; exact ⟨e, by simp [h, Bind.bind, Except.bind], by simp [h', Bind.bind, Except.bind]⟩
  · rcases hg a r x with h2 | ⟨e, h2, h2'⟩ | ⟨b, r', h2, h2'⟩
    · left; simp [h, h2, Bind.bind, Except.bind]
    · right; left
      exact ⟨e, by simp [h, h2, Bind.bind, Except.bind], by simp [h', h2', Bind.bind, Except.bind]⟩
    · right; right
      exact ⟨b, r', by simp [h, h2, Bind.bind, Except.bind], by simp [h', h2', Bind.bind, Except.bind]⟩

theorem MonoE.const {β : Type} (v : Except DecodeError β) : MonoE fun _ => v := fun _ _ => .inr rfl

theorem Mono.pure {β : Type} (v : β) : Mono fun bs => .ok (v, bs) := fun bs _ => .inr (.inr ⟨v, bs, rfl, rfl⟩)

theorem mono_takeByte : Mono takeByte := by
  intro bs x
  cases bs with
  | nil => left; rfl
  | cons b bs => right; right; exact ⟨b, bs, rfl, rfl⟩

theorem mono_takeBytes (n : Nat) : Mono (takeBytes n) := by
  intro bs x
  by_cases h : bs.length < n
  · left; simp [takeBytes, h]
  · right; right
    refine ⟨bs.take n, bs.drop n, by simp [takeBytes, h], ?_⟩
    have : ¬ (bs ++ x).length < n := by simp; omega
    rw [takeBytes, if_neg this, List.take_append_of_le_length (by omega), List.drop_append_of_le_length (by omega)]

theorem mono_takeConst (w : Width) : MonoE (takeConst w) := by
  unfold takeConst
  exact MonoE.bind (mono_takeBytes _) fun _ => MonoE.const _

theorem mono_takeSib (b : Bool) : Mono (takeSib b) := by
  unfold takeSib
  cases b
  · exact Mono.pure _
  · simp only [if_true]
    exact Mono.bind mono_takeByte fun s => Mono.pure (some (Sib.mk (hi2 s) (mid3 s) (lo3 s)))

theorem mono_takeOperand (a : Width) : MonoE (takeOperand a) := by
  unfold takeOperand
  refine MonoE.bind mono_takeByte fun m => ?_
  refine MonoE.bind (mono_takeSib _) fun sib => ?_
  exact MonoE.bind (mono_takeBytes _) fun _ => MonoE.const _

theorem mono_takePrefixes (m64 seen : Bool) : Mono (takePrefixes m64 seen) := by
  intro bs x
  induction bs generalizing seen with
  | nil => left; rfl
  | cons b bs ih =>
    simp only [List.cons_append, takePrefixes]
    have step : ∀ (seen : Bool) (p : Prefix),
        let f := fun (s : List Byte) => (takePrefixes m64 seen s >>= fun (ps, rest) => .ok (p :: ps, rest) :
          Except DecodeError (List Prefix × List Byte))
        f bs = .error .truncated ∨ (∃ e, f bs = .error e ∧ f (bs ++ x) = .error e) ∨
          ∃ a r, f bs = .ok (a, r) ∧ f (bs ++ x) = .ok (a, r ++ x) := by
      intro seen p
      rcases ih seen with h | ⟨e, h, h'⟩ | ⟨a, r, h, h'⟩
      · left; simp [h, Bind.bind, Except.bind]
      · right; left; exact ⟨e, by simp [h, Bind.bind, Except.bind], by simp [h', Bind.bind, Except.bind]⟩
      · right; right; exact ⟨p :: a, r, by simp [h, Bind.bind, Except.bind], by simp [h', Bind.bind, Except.bind]⟩
    cases Prefix.ofByte m64 b with
    | none => right; right; exact ⟨[], b :: bs, rfl, rfl⟩
    | some p =>
      cases p with
      | legacy l => exact step seen (.legacy l)
      | rex r =>
        cases seen with
        | true => right; left; exact ⟨.multipleRex, rfl, rfl⟩
        | false => exact step true (.rex r)

theorem mono_decodeRow (c : Config) (ps : List Prefix) (k : RowKind) (b : Byte) : MonoE (decodeRow c ps k b) := by
  have hop : ∀ {g : BitVec 3 × RmOperand → Except DecodeError Instr},
      MonoE fun bs => takeOperand (addressSize c (PrefixState.ofList ps)) bs >>= g :=
    fun {g} => MonoE.map (mono_takeOperand _)
  have hc : ∀ w {g : Const → Except DecodeError Instr}, MonoE fun bs => takeConst w bs >>= g :=
    fun w {g} => MonoE.map (mono_takeConst w)
  cases k <;> unfold decodeRow <;> first
    | exact MonoE.const _
    | exact hop
    | exact hc _
    | exact MonoE.bind mono_takeByte fun _ => MonoE.const _
    | skip
  all_goals
    by_cases h : (c.mode64 && (PrefixState.ofList ps).has66) = true
    · simp only [h, if_true]; exact MonoE.const _
    · simp only [h]
      first
        | exact hc _
        | exact MonoE.bind mono_takeByte fun a => MonoE.const (.ok (Instr.withPrefixes ps (.jccRel8 (lo4 b) a)))

theorem mono_decodeOneByte (c : Config) (ps : List Prefix) (b : Byte) : MonoE (decodeOneByte c ps b) := by
  intro bs x
  unfold decodeOneByte
  by_cases h : needsDigit c.mode64 [b] = true
  · cases bs with
    | nil => left; simp [h, takeByte, bind, Except.bind]
    | cons m bs =>
      simp only [h, if_true, takeByte, bind, Except.bind, List.cons_append]
      cases lookupRow c.mode64 none [b] (mid3 m) with
      | none => right; rfl
      | some k => exact mono_decodeRow c ps k b (m :: bs) x
  · simp only [h, bind, Except.bind]
    cases lookupRow c.mode64 none [b] 0 with
    | none => right; rfl
    | some k => exact mono_decodeRow c ps k b bs x

theorem mono_decodeEscape (c : Config) (ps : List Prefix) : MonoE (decodeEscape c ps) := by
  unfold decodeEscape
  refine MonoE.bind mono_takeByte fun b2 => ?_
  refine MonoE.bind (f := fun bs =>
    (if b2 == 0x38 || b2 == 0x3A then do let (b, rest) ← takeByte bs; .ok (some b, rest)
      else .ok (none, bs) : Except DecodeError (Option Byte × List Byte))) ?_ fun b3 => ?_
  · by_cases h : (b2 == 0x38 || b2 == 0x3A) = true
    · simp only [h, if_true]; exact Mono.bind mono_takeByte fun b => Mono.pure (some b)
    · simp only [h]; exact Mono.pure _
  · intro bs x
    dsimp only
    cases lookupRow c.mode64 (PrefixState.ofList ps).mandatory (0x0F#8 :: b2 :: b3.toList) 0 with
    | some k => exact mono_decodeRow _ _ _ _ _ _
    | none =>
      cases lookupRow c.mode64 none (0x0F#8 :: b2 :: b3.toList) 0 with
      | some k => exact mono_decodeRow _ _ _ _ _ _
      | none => right; rfl

/-- More bytes do not change what the decoder makes of those it has, unless they were too few. -/
theorem mono_decodeStream (c : Config) : MonoE (decodeStream c) := by
  unfold decodeStream
  refine MonoE.bind (mono_takePrefixes _ _) fun ps => ?_
  by_cases h : repeatsGroup (PrefixState.ofList ps).legacy = true
  · simp only [h, if_true]; exact MonoE.const _
  · simp only [h]
    refine MonoE.bind mono_takeByte fun b => ?_
    by_cases hb : (b == 0x0F) = true
    · simp only [hb, if_true]; exact mono_decodeEscape _ _
    · simp only [hb]; exact mono_decodeOneByte _ _ _

end Sys2Proof
end

