-- ==== Sys2Proof/Tests/Slice0.lean ====
section
/-! SUPPORT. Tests: each check of `wellFormed` refuses an ill-formed term; a written-out word of every row decodes to
its instruction; single steps; and for each statement with hypotheses a state and operands that meet them.
Words and results are those of spec/95_test_vectors.md (parts A, B and C) or of the worked example of a rule, but for
words marked "by hand", written from the opcode table. -/

namespace Sys2Proof.Tests
open Sys2Proof Sys2Proof.Machine

/-! ## Helpers -/

/-- A configuration with every segment at 0. -/
def cfg (m : OpMode) (d : DefSize) : Config :=
  { Config.reset with mode := m, defOpSize := d, defAddrSize := d, segBase := ⟨0, 0, 0, 0, 0, 0⟩ }

def c64 : Config := cfg .bits64 .d32
def c32 : Config := cfg .protectedMode .d32
def c16 : Config := cfg .realAddress .d16

/-- Bytes at consecutive locations. -/
def cells (a : Nat) : List Byte → Memory
  | [] => []
  | b :: bs => (a, b) :: cells (a + 1) bs

/-- The machine at 1000H with a program there and some data at 3000H. -/
def at1000 (c : Config) (code data : List Byte) : State :=
  { State.reset with
    cfg := { c with code := List.range' 0x1000 code.length }
    rip := 0x1000
    mem := cells 0x1000 code ++ cells 0x3000 data }

/-- The same with other bytes of memory listed as the program's. -/
def withCode (s : State) (as : List Nat) : State := { s with cfg := { s.cfg with code := as } }

/-- A state with one register and the flags set. -/
def withReg (s : State) (n : BitVec 4) (v flags : Word) : State := { s.setGpr n v with rflags := flags }

/-- The operand size, address size and length the decoder returns. -/
def sizes (c : Config) (bs : List Byte) : Option (Width × Width × Nat) :=
  (decodeRecord c bs).toOption.map fun d => (d.opsize, d.adsize, d.length)

def nextOf (o : Outcome) : Option State := match o with | .next s => some s | _ => none
def refusalOf (o : Outcome) : Option Refusal := match o with | .refused r => some r | _ => none
def faultOf (o : Outcome) : Option Fault := match o with | .fault f => some f | _ => none

/-- An outcome that `nextOf` sees a state in is that state. -/
theorem next_of_isSome {o : Outcome} (h : (nextOf o).isSome = true) : ∃ t, o = .next t := by
  cases o with
  | next s => exact ⟨s, rfl⟩
  | _ => cases h

/-- The five flags INC and DEC write, in the spec's order ZF SF PF AF OF. -/
def flags5 (t : State) : List Bool := [t.flag .zf, t.flag .sf, t.flag .pf, t.flag .af, t.flag .of]

/-- What the decoder reads. -/
def dec (c : Config) (bs : List Byte) : Option Instr := (decode c bs).toOption

def reg (n : BitVec 3) : RmOperand := ⟨3, n, none, .none⟩
def ind (n : BitVec 3) : RmOperand := ⟨0, n, none, .none⟩
def rexW : Rex := ⟨true, false, false, false⟩
def rexR : Rex := ⟨false, true, false, false⟩
def rexB : Rex := ⟨false, false, false, true⟩

/-! ## Each check of `wellFormed` refuses an ill-formed term -/

theorem test_wf_incR_64 : wellFormed c64 (.incR 0) = false := by decide
theorem test_wf_rex_32 : wellFormed c32 (.rex rexW (.incRm (reg 0))) = false := by decide
theorem test_wf_two_rex : wellFormed c64 (.rex rexW (.rex rexB (.incRm (reg 0)))) = false := by decide
theorem test_wf_repeated_group : wellFormed c32 (.csOverride (.dsOverride (.incRm (ind 0)))) = false := by decide
theorem test_wf_lock_rep : wellFormed c32 (.lock (.rep .movsB)) = false := by decide
theorem test_wf_missing_sib : wellFormed c32 (.incRm ⟨0, 4, none, .none⟩) = false := by decide
theorem test_wf_extra_sib : wellFormed c32 (.incRm ⟨0, 0, some ⟨0, 0, 0⟩, .none⟩) = false := by decide
theorem test_wf_missing_disp : wellFormed c32 (.decRm ⟨1, 0, none, .none⟩) = false := by decide
theorem test_wf_long_disp : wellFormed c32 (.decRm ⟨1, 0, none, .d32 0⟩) = false := by decide
theorem test_wf_moffs_size : wellFormed c64 (.movAlMoffs (.c32 0)) = false := by decide
theorem test_wf_imm_size : wellFormed c64 (.movRImm 0 (.c64 0)) = false := by decide
theorem test_wf_jcc_66 : wellFormed c64 (.opSizeOverride (.jccRel8 4 5)) = false := by decide
theorem test_wf_jcc_rel_size : wellFormed c32 (.jccRel 4 (.c16 0)) = false := by decide
theorem test_wf_simd_two_rex : wellFormed c64 (.rex rexW (.cvtdq2pd (some rexB) 0 (reg 1))) = false := by decide
theorem test_wf_simd_rex_32 : wellFormed c32 (.phaddw (some rexB) 0 (reg 1)) = false := by decide
theorem test_wf_simd_group : wellFormed c32 (.opSizeOverride (.phaddw none 0 (reg 1))) = false := by decide
theorem test_wf_simd_operand : wellFormed c32 (.cvtdq2pd none 0 ⟨1, 0, none, .none⟩) = false := by decide
theorem test_wf_escape_with_row : wellFormed c32 (.twoByteEscape 0x20 none) = false := by decide
theorem test_wf_escape_third_byte : wellFormed c32 (.twoByteEscape 0x38 none) = false := by decide
theorem test_wf_too_long :
    wellFormed c32 ((List.replicate 15 (Prefix.legacy .opSize)).foldr Prefix.onto (.incR 0)) = false := by decide

/-! ## A word of every row, written out, decodes to its instruction -/

/-- B6. -/
theorem test_decode_lock : dec c32 [0xF0, 0xFF, 0x00] =
    some (.lock (.incRm (ind 0))) := by decide
/-- B6. -/
theorem test_decode_repne : dec c32 [0xF2, 0xA7] =
    some (.repne .cmpsV) := by decide
/-- B6. -/
theorem test_decode_rep : dec c32 [0xF3, 0xA4] =
    some (.rep .movsB) := by decide
/-- B6. -/
theorem test_decode_csOverride : dec c32 [0x2E, 0xFF, 0x00] =
    some (.csOverride (.incRm (ind 0))) := by decide
/-- B2b. -/
theorem test_decode_ssOverride : dec c32 [0x36, 0xFF, 0x00] =
    some (.ssOverride (.incRm (ind 0))) := by decide
/-- B2a. -/
theorem test_decode_dsOverride : dec c16 [0x3E, 0xFF, 0x46, 0x00] =
    some (.dsOverride (.incRm ⟨1, 6, none, .d8 0⟩)) := by decide
/-- B2b. -/
theorem test_decode_esOverride : dec c32 [0x26, 0xFF, 0x45, 0x00] =
    some (.esOverride (.incRm ⟨1, 5, none, .d8 0⟩)) := by decide
/-- B4. -/
theorem test_decode_fsOverride : dec c32 [0x64, 0xA1, 0x00, 0x00, 0x00, 0x00] =
    some (.fsOverride (.movEaxMoffs (.c32 0))) := by decide
/-- by hand, R92. -/
theorem test_decode_gsOverride : dec c32 [0x65, 0xFF, 0x00] =
    some (.gsOverride (.incRm (ind 0))) := by decide
/-- B1. -/
theorem test_decode_opSizeOverride : dec c32 [0x66, 0x40] =
    some (.opSizeOverride (.incR 0)) := by decide
/-- B1. -/
theorem test_decode_addrSizeOverride : dec c16 [0x67, 0xFF, 0x04, 0x8B] =
    some (.addrSizeOverride (.incRm ⟨0, 4, some ⟨2, 1, 3⟩, .none⟩)) := by decide
/-- B1. -/
theorem test_decode_rex : dec c64 [0x4F, 0xFF, 0xC0] =
    some (.rex ⟨true, true, true, true⟩ (.incRm (reg 0))) := by decide
/-- B3. -/
theorem test_decode_twoByteEscape : dec c32 [0x0F, 0x3A, 0x0F, 0xC1, 0x01] =
    some (.twoByteEscape 0x3A (some 0x0F)) := by decide
/-- B1. -/
theorem test_decode_incR : dec c32 [0x47] =
    some (.incR 7) := by decide
/-- B1. -/
theorem test_decode_decR : dec c32 [0x4F] =
    some (.decR 7) := by decide
/-- B2c. -/
theorem test_decode_incRm : dec c64 [0x42, 0xFF, 0x04, 0x20] =
    some (.rex ⟨false, false, true, false⟩ (.incRm ⟨0, 4, some ⟨0, 4, 0⟩, .none⟩)) := by decide
/-- B1. -/
theorem test_decode_decRm : dec c32 [0xFF, 0xCF] =
    some (.decRm (reg 7)) := by decide
/-- B4. -/
theorem test_decode_movAlMoffs : dec c64 [0xA0, 0x00, 0x20, 0x00, 0x00, 0x00, 0x00, 0x00, 0x00] =
    some (.movAlMoffs (.c64 0x2000)) := by decide
/-- B4. -/
theorem test_decode_movEaxMoffs : dec c64 [0x67, 0xA1, 0x00, 0x20, 0x00, 0x00] =
    some (.addrSizeOverride (.movEaxMoffs (.c32 0x2000))) := by decide
/-- B4. -/
theorem test_decode_movMoffsAl : dec c32 [0x66, 0xA2, 0x10, 0x30, 0x00, 0x00] =
    some (.opSizeOverride (.movMoffsAl (.c32 0x3010))) := by decide
/-- B4. -/
theorem test_decode_movMoffsEax : dec c16 [0xA3, 0x00, 0x20] =
    some (.movMoffsEax (.c16 0x2000)) := by decide
/-- B5. -/
theorem test_decode_movRImm : dec c64 [0x49, 0xBF, 0x01, 0x00, 0x00, 0x00, 0x00, 0x00, 0x00, 0x80] =
    some (.rex ⟨true, false, false, true⟩ (.movRImm 7 (.c64 0x8000000000000001))) := by decide
/-- B3. -/
theorem test_decode_cvtdq2pd : dec c64 [0xF3, 0x45, 0x0F, 0xE6, 0xC1] =
    some (.cvtdq2pd (some ⟨false, true, false, true⟩) 0 (reg 1)) := by decide
/-- B3. -/
theorem test_decode_phaddw : dec c32 [0x66, 0x0F, 0x38, 0x01, 0x04, 0x8B] =
    some (.phaddw none 0 ⟨0, 4, some ⟨2, 1, 3⟩, .none⟩) := by decide
/-- by hand. -/
theorem test_decode_movsB : dec c32 [0xA4] =
    some (.movsB) := by decide
/-- B6. -/
theorem test_decode_movsV : dec c64 [0xF3, 0x48, 0xA5] =
    some (.rep (.rex rexW .movsV)) := by decide
/-- by hand. -/
theorem test_decode_cmpsB : dec c32 [0xA6] =
    some (.cmpsB) := by decide
/-- by hand. -/
theorem test_decode_cmpsV : dec c32 [0xA7] =
    some (.cmpsV) := by decide
/-- by hand. -/
theorem test_decode_stosB : dec c32 [0xAA] =
    some (.stosB) := by decide
/-- by hand. -/
theorem test_decode_stosV : dec c32 [0xAB] =
    some (.stosV) := by decide
/-- by hand. -/
theorem test_decode_lodsB : dec c32 [0xAC] =
    some (.lodsB) := by decide
/-- by hand. -/
theorem test_decode_lodsV : dec c32 [0xAD] =
    some (.lodsV) := by decide
/-- by hand. -/
theorem test_decode_scasB : dec c32 [0xAE] =
    some (.scasB) := by decide
/-- by hand. -/
theorem test_decode_scasV : dec c32 [0xAF] =
    some (.scasV) := by decide
/-- B6. -/
theorem test_decode_insB : dec c32 [0xF3, 0x6C] =
    some (.rep .insB) := by decide
/-- by hand. -/
theorem test_decode_insV : dec c32 [0x6D] =
    some (.insV) := by decide
/-- by hand. -/
theorem test_decode_outsB : dec c32 [0x6E] =
    some (.outsB) := by decide
/-- by hand. -/
theorem test_decode_outsV : dec c32 [0x6F] =
    some (.outsV) := by decide
/-- B6. -/
theorem test_decode_jccRel8 : dec c32 [0x3E, 0x74, 0x05] =
    some (.dsOverride (.jccRel8 4 5)) := by decide
/-- B6. -/
theorem test_decode_jccRel : dec c32 [0x66, 0x0F, 0x84, 0x10, 0x00] =
    some (.opSizeOverride (.jccRel 4 (.c16 0x10))) := by decide
/-- B6. -/
theorem test_decode_movRCr : dec c64 [0x44, 0x0F, 0x20, 0xC8] =
    some (.rex rexR (.movRCr 3 1 0)) := by decide
/-- B6. -/
theorem test_decode_movRDr : dec c64 [0x44, 0x0F, 0x21, 0xC0] =
    some (.rex rexR (.movRDr 3 0 0)) := by decide
/-- B6. -/
theorem test_decode_movCrR : dec c32 [0x0F, 0x22, 0xD8] =
    some (.movCrR 3 3 0) := by decide
/-- B6. -/
theorem test_decode_movDrR : dec c64 [0x44, 0x0F, 0x23, 0xF8] =
    some (.rex rexR (.movDrR 3 7 0)) := by decide

/-- A misplaced REX stays in the bytes and is not in effect (B1). -/
theorem test_decode_misplaced_rex : dec c64 [0x48, 0x66, 0xFF, 0xC0] =
    some (.rex rexW (.opSizeOverride (.incRm (reg 0)))) := by decide
/-- A table word: opcode bytes first byte most significant, with the row's mandatory prefix in front (R152, log 11). -/
theorem test_tableWord_jcc : decodeTableWord 16 0x0F80 = some (.jccRel 0 (.c16 0)) := by decide
theorem test_tableWord_phaddw : decodeTableWord 24 0x0F3801 = some (.phaddw none 0 (ind 0)) := by decide
/-- A placed word is the first instruction after reset. -/
theorem test_withFetchWord : ((nextOf (step (State.reset.withFetchWord 8 0xB8))).map fun t => (t.gpr 0, t.pc)) =
    some (0, 0xFFF3) := by decide

/-! ## Single steps -/

/-- R280: EAX = FFFFFFFFH, byte 40: EAX = 0, ZF 1, SF 0, PF 1, AF 1, OF 0, CF as it was (here 1). -/
theorem test_incR_wraps :
    ((nextOf (step (withReg (at1000 c32 [0x40] []) 0 0xFFFFFFFF 1))).map fun t => (t.gpr 0, flags5 t, t.flag .cf)) =
      some (0, [true, false, true, true, false], true) := by decide
/-- B1x: `66 48` on AABB0000H gives AABBFFFFH, flags 0 1 1 1 0. -/
theorem test_decR_16 :
    ((nextOf (step (withReg (at1000 c32 [0x66, 0x48] []) 0 0xAABB0000 0))).map fun t => (t.gpr 0, flags5 t)) =
      some (0xAABBFFFF, [false, true, true, true, false]) := by decide
/-- P1: `48 FF C0` on 7FFFFFFFFFFFFFFFH. -/
theorem test_incRm_64 :
    ((nextOf (step (withReg (at1000 c64 [0x48, 0xFF, 0xC0] []) 0 0x7FFFFFFFFFFFFFFF 0))).map fun t =>
      (t.gpr 0, flags5 t, t.pc)) = some (0x8000000000000000, [false, true, true, true, true], 0x1003) := by decide
/-- P2: `FF 04 8B` with EBX = 3000H, ECX = 0: the doubleword 0000000FH becomes 00000010H. -/
theorem test_incRm_memory :
    ((nextOf (step (withReg (at1000 c32 [0xFF, 0x04, 0x8B] [0x0F, 0, 0, 0]) 3 0x3000 0))).map fun t =>
      (Memory.read t.mem 0x3000, Memory.read t.mem 0x3001, flags5 t)) =
      some (some 0x10, some 0, [false, false, false, true, false]) := by decide
/-- B1x: `FF C8` on 1122334400000000H in 64-bit mode clears bits 63:32. -/
theorem test_decRm_32_in_64 :
    ((nextOf (step (withReg (at1000 c64 [0xFF, 0xC8] []) 0 0x1122334400000000 0))).map fun t => t.gpr 0) =
      some 0x00000000FFFFFFFF := by decide
/-- R283: `41 FF 4D 00` with the doubleword at R13 80000000H. -/
theorem test_decRm_memory :
    ((nextOf (step (withReg (at1000 c64 [0x41, 0xFF, 0x4D, 0x00] [0, 0, 0, 0x80]) 13 0x3000 0))).map fun t =>
      (Memory.read t.mem 0x3000, Memory.read t.mem 0x3003, flags5 t)) =
      some (some 0xFF, some 0x7F, [false, false, true, true, true]) := by decide
/-- B7: `A0 01 30 00 00` over 78 56 34 12 with EAX = FFFFFFFFH gives FFFFFF56H. -/
theorem test_movAlMoffs :
    ((nextOf (step (withReg (at1000 c32 [0xA0, 0x01, 0x30, 0, 0] [0x78, 0x56, 0x34, 0x12]) 0 0xFFFFFFFF 0))).map
      fun t => t.gpr 0) = some 0xFFFFFF56 := by decide
/-- B7: a misaligned doubleword. -/
theorem test_movEaxMoffs :
    ((nextOf (step (at1000 c32 [0xA1, 0x01, 0x30, 0, 0] [0, 0x56, 0x34, 0x12, 0x9A]))).map fun t => t.gpr 0) =
      some 0x9A123456 := by decide
/-- B7: a doubleword whose last byte holds no value. -/
theorem test_movEaxMoffs_undefined :
    refusalOf (step (at1000 c32 [0xA1, 0x00, 0x30, 0, 0] [1, 2, 3])) = some (.unwrittenMemory 0x1000) := by decide
/-- R304: AL = 5AH, `A2 10 30 00 00`. -/
theorem test_movMoffsAl :
    ((nextOf (step (withReg (at1000 c32 [0xA2, 0x10, 0x30, 0, 0] []) 0 0x11225A 0))).map fun t =>
      (Memory.read t.mem 0x3010, Memory.read t.mem 0x3011, t.pc)) = some (some 0x5A, none, 0x1005) := by decide
/-- R305: `67 66 A3 00 30 00 00` in 16-bit mode, EAX = 12345678H. -/
theorem test_movMoffsEax :
    ((nextOf (step (withReg (at1000 c16 [0x67, 0x66, 0xA3, 0x00, 0x30, 0, 0] []) 0 0x12345678 0))).map fun t =>
      (List.range 4).map fun k => Memory.read t.mem (0x3000 + k)) =
      some [some 0x78, some 0x56, some 0x34, some 0x12] := by decide
/-- R71, B7: a store to its own code. -/
theorem test_movMoffsEax_code :
    refusalOf (step (at1000 c32 [0xA3, 0x00, 0x10, 0, 0] [])) = some (.writeToCode 0x1000) := by decide
/-- R71: a store to a byte of the program that the run has not fetched yet (by hand). -/
theorem test_movMoffsAl_later_code :
    refusalOf (step (at1000 c32 [0xA2, 0x05, 0x10, 0, 0, 0x40] [])) = some (.writeToCode 0x1000) := by decide
/-- R306: the source's example. -/
theorem test_movRImm :
    ((nextOf (step (at1000 c64 [0x48, 0xB8, 0x88, 0x77, 0x66, 0x55, 0x44, 0x33, 0x22, 0x11] []))).map fun t =>
      (t.gpr 0, t.pc)) = some (0x1122334455667788, 0x100A) := by decide
/-- B5: `48 66 B8 34 12` is MOV AX, 1234H, length 5. -/
theorem test_misplaced_rex :
    ((nextOf (step (withReg (at1000 c64 [0x48, 0x66, 0xB8, 0x34, 0x12] []) 0 0xAAAAAAAAAAAAAAAA 0))).map fun t =>
      (t.gpr 0, t.pc)) = some (0xAAAAAAAAAAAA1234, 0x1005) := by decide
/-- B7: `64 A1 10 00 00 00` with SegBase(FS) = 2FF0H. -/
theorem test_fsOverride :
    ((nextOf (step (at1000 { c32 with segBase := ⟨0, 0, 0, 0, 0x2FF0, 0⟩ } [0x64, 0xA1, 0x10, 0, 0, 0]
      [1, 0, 0, 0]))).map fun t => t.gpr 0) = some 1 := by decide
/-- B6: LOCK. -/
theorem test_lock : refusalOf (step (at1000 c32 [0xF0, 0xFF, 0x00] [])) =
    some (.lockLegalityNotInSource 0x1000) := by decide
/-- B6: a repeat prefix on INC, and on a string instruction. -/
theorem test_rep_reserved : refusalOf (step (at1000 c32 [0xF3, 0x40] [])) =
    some (.reservedRepeatPrefix 0x1000) := by decide
theorem test_rep_movs : refusalOf (step (at1000 c32 [0xF3, 0xA4] [])) =
    some (.semanticsNotInSource "MOVS" 0x1000) := by decide
/-- B3: 66H that is not the mandatory prefix. -/
theorem test_cvtdq2pd_66 : refusalOf (step (at1000 c32 [0x66, 0xF3, 0x0F, 0xE6, 0xC1] [])) =
    some (.reserved66 0x1000) := by decide
/-- B3: with REX.R and REX.B the operands are XMM8 and XMM9; a REX before the mandatory prefix does not count. -/
theorem test_simd_operands :
    operandsOf (.cvtdq2pd (some ⟨false, true, false, true⟩) 0 (reg 1)) (at1000 c64 [] []) =
        [.reg (.xmm 8), .reg (.xmm 9)] ∧
      operandsOf (.rex ⟨false, true, false, true⟩ (.cvtdq2pd none 0 (reg 1))) (at1000 c64 [] []) =
        [.reg (.xmm 0), .reg (.xmm 1)] := by decide
/-- B3: `F3 0F E6 46 10` has 8 bytes at [ESI+10H] and `2E 66 0F 38 01 0B` 16 at CS:[EBX] (sizes: R192, R194). -/
theorem test_simd_memory :
    operandsOf (.cvtdq2pd none 0 ⟨1, 6, none, .d8 0x10⟩) ((at1000 c32 [] []).setGpr 6 0x3000) =
        [.reg (.xmm 0), .mem .ds 0x3010 8] ∧
      operandsOf (.csOverride (.phaddw none 1 (ind 3))) ((at1000 c32 [] []).setGpr 3 0x3000) =
        [.reg (.xmm 1), .mem .cs 0x3000 16] := by decide
/-- B3, B4 and B6: the operand size, address size and length that the decoder returns (R150). -/
theorem test_decoded_sizes :
    [(c32, [0xF3, 0xA4]), (c32, [0x67, 0xA4]), (c64, [0xF3, 0x48, 0xA5]), (c64, [0xF3, 0x45, 0x0F, 0xE6, 0xC1]),
      (c16, [0x66, 0x0F, 0x38, 0x01, 0x00]), (c64, [0x74, 0x05]), (c32, [0x66, 0x0F, 0x84, 0x10, 0x00]),
      (c32, [0x66, 0xA2, 0x10, 0x30, 0x00, 0x00])].map (fun v => sizes v.1 v.2) =
    [some (.w8, .w32, 2), some (.w8, .w16, 2), some (.w64, .w64, 3), some (.w32, .w64, 5),
      some (.w16, .w16, 5), some (.w64, .w64, 2), some (.w16, .w32, 5),
      some (.w8, .w32, 6)] := by decide
/-- By hand, R150: `48 F3 49 0F E6 C1` has two REX; of `F3 49 0F E6 C1` the REX is in effect, `P` is F3H alone and the
operand size is 64; `0F 38 01 C1` is no row. -/
theorem test_decoded_record :
    decodeRecord c64 [0x48, 0xF3, 0x49, 0x0F, 0xE6, 0xC1] = .error .multipleRex ∧
      decodeRecord c64 [0xF3, 0x49, 0x0F, 0xE6, 0xC1] =
        .ok { row := .cvtdq2pd (some ⟨true, false, false, true⟩) 0 (reg 1), legacy := [.rep], mandatory := some .rep,
              rex := some ⟨true, false, false, true⟩, opsize := .w64, adsize := .w64, length := 5 } ∧
      decodeRecord c64 [0x0F, 0x38, 0x01, 0xC1] = .error (.notShown [0x0F, 0x38, 0x01] none) := by decide
/-- By hand, R282, R302, R306: the sizes of the admitted instructions' operands. -/
theorem test_admitted_operands :
    operandsOf (.rex rexW (.incRm ⟨0, 0, none, .none⟩)) (at1000 c64 [] []) = [.mem .ds 0 8] ∧
      operandsOf (.opSizeOverride (.movAlMoffs (.c32 0x3010))) (at1000 c32 [] []) =
        [.gpr 0 .w8, .mem .ds 0x3010 1] ∧
      operandsOf (.rex rexB (.movRImm 7 (.c32 1))) (at1000 c64 [] []) = [.gpr 15 .w32, .imm (.c32 1)] := by decide
/-- By hand, R243, R321: `45 0F 23 F8` is MOV DR15, R8. -/
theorem test_crdr_operands :
    operandsOf (.rex ⟨false, true, false, true⟩ (.movDrR 3 7 0)) (at1000 c64 [] []) =
      [.reg (.dr 15), .reg (.gpr 8)] := by decide
/-- B3: PHADDW is refused. -/
theorem test_phaddw : refusalOf (step (at1000 c32 [0x66, 0x0F, 0x38, 0x01, 0xC1] [])) =
    some (.semanticsNotInSource "PHADDW" 0x1000) := by decide
/-- B3: the MMX form is not shown. -/
theorem test_escape_not_shown : refusalOf (step (at1000 c32 [0x0F, 0x38, 0x01, 0xC1] [])) =
    some (.notShown [0x0F, 0x38, 0x01] none 0x1000) := by decide
/-- B6: SS override on a branch; P6: Jcc. -/
theorem test_jcc_ss : refusalOf (step (at1000 c32 [0x36, 0x74, 0x05] [])) =
    some (.reservedSegmentOnBranch 0x1000) := by decide
theorem test_jcc : refusalOf (step (at1000 c32 [0x74, 0x02] [])) =
    some (.semanticsNotInSource "Jcc" 0x1000) := by decide
/-- B6: 66H on Jcc in 64-bit mode. -/
theorem test_jcc_66 : refusalOf (step (at1000 c64 [0x66, 0x74, 0x05] [])) = some (.notInSource 0x1000) := by decide
/-- P5: CR9 raises #UD, CR8 does not. -/
theorem test_movRCr_ud : faultOf (step (at1000 c64 [0x44, 0x0F, 0x20, 0xC8] [])) =
    some (.invalidOpcode 0x1000) := by decide
theorem test_movRCr_cr8 : refusalOf (step (at1000 c64 [0x44, 0x0F, 0x20, 0xC0] [])) =
    some (.semanticsNotInSource "MOV CR/DR" 0x1000) := by decide
/-- B6: DR8 and DR15. -/
theorem test_movRDr_ud : faultOf (step (at1000 c64 [0x44, 0x0F, 0x21, 0xC0] [])) =
    some (.invalidOpcode 0x1000) := by decide
theorem test_movDrR_ud : faultOf (step (at1000 c64 [0x44, 0x0F, 0x23, 0xF8] [])) =
    some (.invalidOpcode 0x1000) := by decide
/-- B6: two prefixes of a group, two REX, FF /2, 67H without memory. -/
theorem test_repeated_group : refusalOf (step (at1000 c32 [0x2E, 0x3E, 0xFF, 0x00] [])) =
    some (.repeatedPrefixGroup 0x1000) := by decide
theorem test_two_rex : refusalOf (step (at1000 c64 [0x48, 0x48, 0xFF, 0xC0] [])) =
    some (.multipleRex 0x1000) := by decide
theorem test_ff_2 : refusalOf (step (at1000 c32 [0xFF, 0x10] [])) = some (.notShown [0xFF] none 0x1000) := by decide
theorem test_67_without_memory : refusalOf (step (at1000 c32 [0x67, 0x40] [])) =
    some (.addrSizeWithoutMemoryOperand 0x1000) := by decide
/-- B6: fifteen prefixes need a sixteenth byte; fourteen and an opcode are refused for the group. -/
theorem test_fifteen_prefixes : refusalOf (step (at1000 c32 (List.replicate 15 0x2E ++ [0x40]) [])) =
    some (.tooLong 0x1000) := by decide
theorem test_fourteen_prefixes : refusalOf (step (at1000 c32 (List.replicate 14 0x2E ++ [0x40]) [])) =
    some (.repeatedPrefixGroup 0x1000) := by decide

/-! ## What meets the hypotheses of each statement -/

/-- Code at 1000H whose bytes are those of an instruction. -/
def running (c : Config) (i : Instr) (data : List Byte) : State := at1000 c (encode i) data

/-- The hypotheses of `UnlistedFFAndFEAreNotShown`, `RepeatedPrefixGroupIsRefused` on a list with no REX. -/
theorem prefixesRead_of_legacy {c : Config} {ps : List Prefix}
    (h : ps.all (fun p => match p with | .legacy _ => true | .rex _ => false) = true)
    (h' : (PrefixState.ofList ps).rexCount ≤ 1) : PrefixesRead c ps := by
  refine ⟨fun r hr => ?_, h'⟩
  rw [List.all_eq_true] at h
  have := h _ hr
  simp at this

theorem witness_DecodeInvertsEncode : wellFormed c64 (.rex rexW (.movRImm 0 (.c64 1))) = true := by decide

theorem witness_DecodedBytesAreTheEncoding : decode c32 [0x40] = .ok (.incR 0) := by rfl

theorem witness_AtMostOneRowMatches :
    let r : OpRow := { kind := .incRm, nbytes := 1, pattern := 0xFF, mask := 0xFF, digit := some 0 }
    r ∈ opRows ∧ r.matchesAll true none [0xFF] 0 = true := by decide

theorem witness_SixteenthByteIsRefused_length : decode c32 [0x40] = .ok (.incR 0) := by rfl
theorem witness_SixteenthByteIsRefused :
    let ps := List.replicate 15 (Prefix.legacy (.seg .cs))
    let s := at1000 c32 (List.replicate 15 0x2E) []
    PrefixesRead s.cfg ps ∧ ps.length = 15 ∧ CodeAt s (ps.map Prefix.byte) :=
  ⟨prefixesRead_of_legacy (by decide) (by decide), by decide, by decide⟩
/-- Fourteen bytes is reached: LOCK, a segment override, 66H, 67H, REX.W, B8H and eight bytes. -/
theorem witness_SixteenthByteIsRefused_fourteen :
    let i : Instr := .lock (.csOverride (.opSizeOverride (.addrSizeOverride (.rex rexW (.movRImm 0 (.c64 0))))))
    shapeOk c64 .empty i = true ∧ i.length = 14 := by decide

theorem witness_RepeatedPrefixGroupIsRefused :
    let ps := [Prefix.legacy (.seg .cs), .legacy (.seg .ds)]
    let s := at1000 c32 [0x2E, 0x3E, 0x40] []
    ps = [] ++ .legacy (.seg .cs) :: [] ++ .legacy (.seg .ds) :: [] ∧ (Legacy.seg .cs).group = (Legacy.seg .ds).group ∧
      PrefixesRead s.cfg ps ∧ Prefix.ofByte s.cfg.mode64 0x40 = none ∧ ps.length < 15 ∧
      CodeAt s (ps.map Prefix.byte ++ [0x40]) :=
  ⟨rfl, rfl, prefixesRead_of_legacy (by decide) (by decide), by decide, by decide, by decide⟩

theorem witness_SecondRexIsRefused :
    let ps := [Prefix.rex rexW]
    let s := at1000 c64 [0x48, 0x41] []
    s.cfg.mode64 = true ∧ PrefixesRead s.cfg ps ∧ Prefix.rex rexW ∈ ps ∧ ps.length < 15 ∧
      CodeAt s (ps.map Prefix.byte ++ [rexB.byte]) :=
  ⟨by decide, ⟨fun _ _ => by decide, by decide⟩, by decide, by decide, by decide⟩

theorem witness_UnlistedFFAndFEAreNotShown :
    PrefixesRead c32 [] ∧ repeatsGroup (PrefixState.ofList []).legacy = false ∧
      2 ≤ (mid3 0x10).toNat ∧ CodeAt (at1000 c32 [0xFF, 0x10] []) [0xFF, 0x10] ∧
      2 ≤ (mid3 0x38).toNat ∧ CodeAt (at1000 c32 [0xFF, 0x38] []) [0xFF, 0x38] ∧
      CodeAt (at1000 c32 [0xFE] []) [0xFE] :=
  ⟨prefixesRead_of_legacy (by decide) (by decide), by decide, by decide, by decide, by decide, by decide, by decide⟩

theorem witness_StepRunsDecodedInstruction :
    wellFormed c32 (.incR 0) = true ∧ CodeAt (running c32 (.incR 0) []) (encode (.incR 0)) := by decide

theorem witness_IllFormedTermsAreRefused : wellFormed c64 (.incR 0) = false := by decide

theorem witness_PlacedWordIsRun : decode State.reset.cfg (tableBytes 8 0x40) = .ok (.incR 0) := by rfl

/-- The last byte of `FF 04 8B` holds no value; or it is no byte of the program. -/
theorem witness_MissingCodeByteIsRefused :
    let i : Instr := .incRm ⟨0, 4, some ⟨2, 1, 3⟩, .none⟩
    let s := at1000 c32 [0xFF, 0x04] []
    wellFormed s.cfg i = true ∧ 2 < i.length ∧ CodeAt s ((encode i).take 2) ∧
      Memory.read s.mem (s.loc .cs s.pc 2) = none := by decide
theorem witness_MissingCodeByteIsRefused_notCode :
    let i : Instr := .incRm ⟨0, 4, some ⟨2, 1, 3⟩, .none⟩
    let s := withCode (at1000 c32 [0xFF, 0x04, 0x8B] []) [0x1000, 0x1001]
    wellFormed s.cfg i = true ∧ 2 < i.length ∧ CodeAt s ((encode i).take 2) ∧
      s.loc .cs s.pc 2 ∉ s.cfg.code := by decide

/-- Two steps that store and then increment, with a program of three instructions. -/
theorem witness_FetchedBytesNeverChange :
    let s := at1000 c32 [0xA2, 0x10, 0x30, 0, 0, 0x40, 0x41] []
    (∃ t, Sys2Proof.core.run 2 s = .next t ∧ 0 < t.fetch.1.length) ∧ 0x1006 ∈ s.cfg.code :=
  ⟨⟨_, rfl, by decide⟩, by decide⟩

/-- An instruction that completes and changes a byte; steps that are refused for a write, one of each storing form. -/
theorem witness_OnlyWritesToTheProgramAreRefused :
    ∃ t, exec (.movMoffsAl (.c32 0x3010)) (at1000 c32 [] []) = .next t ∧
      Memory.read t.mem 0x3010 ≠ Memory.read (at1000 c32 [] []).mem 0x3010 := ⟨_, rfl, by decide⟩
theorem witness_OnlyWritesToTheProgramAreRefused_step :
    step (at1000 c32 [0xA2, 0x00, 0x10, 0, 0] []) = .refused (.writeToCode 0x1000) ∧
      step (at1000 c32 [0xA3, 0xFD, 0x0F, 0, 0] []) = .refused (.writeToCode 0x1000) ∧
      step (at1000 c32 [0xFF, 0x05, 0x02, 0x10, 0, 0] []) = .refused (.writeToCode 0x1000) := ⟨rfl, rfl, rfl⟩

/-- A step that completes from a state with the invariant, outside 64-bit mode: `StepKeepsUntouchedState`,
`StepKeepsTheInvariant`. -/
theorem witness_StepKeepsTheInvariant :
    let s := running c32 (.incRm ⟨0, 5, none, .d32 0x3000⟩) [1, 2, 3, 4]
    s.inv = true ∧ s.cfg.mode64 = false ∧ ∃ t, step s = .next t :=
  ⟨by decide, by decide, next_of_isSome (by decide)⟩

/-- An instruction that completes: `OnlyAdmittedInstructionsComplete`, `CompletionAdvancesThePointer`. -/
theorem witness_exec_next : ∃ t, exec (.incR 0) (at1000 c32 [] []) = .next t := next_of_isSome (by decide)

theorem witness_OnlyControlDebugMovesFault :
    exec (.rex rexR (.movRCr 3 1 0)) (at1000 c64 [] []) = .fault (.invalidOpcode 0x1000) := by rfl

theorem witness_IncRegister :
    Ready false (.incR 0) (at1000 c32 [] []) ∧ Ready false (.opSizeOverride (.incR 7)) (at1000 c16 [] []) := by decide
theorem witness_DecRegister :
    Ready false (.decR 0) (at1000 c16 [] []) ∧ Ready false (.opSizeOverride (.decR 7)) (at1000 c32 [] []) := by decide
theorem witness_IncRmOnRegister :
    Ready false (.incRm (reg 0)) (at1000 c16 [] []) ∧ Ready false (.rex rexB (.incRm (reg 7))) (at1000 c64 [] []) := by
  decide
theorem witness_DecRmOnRegister :
    Ready false (.decRm (reg 0)) (at1000 c16 [] []) ∧ Ready false (.rex rexW (.decRm (reg 7))) (at1000 c64 [] []) := by
  decide

theorem witness_IncRmInMemory :
    let i : Instr := .incRm ⟨0, 5, none, .d32 0x3000⟩
    let s := running c32 i [1, 2, 3, 4]
    Ready true i s ∧ (Seg.ds, 0x3000) = effectiveAddress s i.prefixState (nextPc i s) ⟨0, 5, none, .d32 0x3000⟩ ∧
      HoldsAt s .ds 0x3000 (operandSize s.cfg i.prefixState) 0x04030201#32 ∧
      MayStore s .ds 0x3000 (operandSize s.cfg i.prefixState) ∧
      ¬ MayStore (withCode s [0x3003]) .ds 0x3000 (operandSize s.cfg i.prefixState) := by decide
theorem witness_DecRmInMemory :
    let i : Instr := .decRm ⟨0, 5, none, .d32 0x3000⟩
    let s := running c32 i [1, 2, 3, 4]
    Ready true i s ∧ (Seg.ds, 0x3000) = effectiveAddress s i.prefixState (nextPc i s) ⟨0, 5, none, .d32 0x3000⟩ ∧
      HoldsAt s .ds 0x3000 (operandSize s.cfg i.prefixState) 0x04030201#32 ∧
      MayStore s .ds 0x3000 (operandSize s.cfg i.prefixState) ∧
      ¬ MayStore (withCode s [0x3003]) .ds 0x3000 (operandSize s.cfg i.prefixState) := by decide

theorem witness_MovAlFromMoffset :
    let i : Instr := .movAlMoffs (.c32 0x3000)
    let s := running c32 i [0x5A]
    Ready true i s ∧ HoldsAt s .ds 0x3000 .w8 0x5A := by decide
theorem witness_MovEaxFromMoffset :
    let i : Instr := .movEaxMoffs (.c32 0x3000)
    let s := running c32 i [1, 2, 3, 4]
    Ready true i s ∧ HoldsAt s .ds 0x3000 (operandSize s.cfg i.prefixState) 0x04030201#32 := by decide
theorem witness_MovMoffsetFromAl :
    let i : Instr := .movMoffsAl (.c32 0x3000)
    let s := running c32 i []
    Ready true i s ∧ MayStore s .ds 0x3000 .w8 ∧ ¬ MayStore (withCode s [0x3000]) .ds 0x3000 .w8 := by decide
theorem witness_MovMoffsetFromEax :
    let i : Instr := .movMoffsEax (.c32 0x3000)
    let s := running c32 i []
    Ready true i s ∧ MayStore s .ds 0x3000 (operandSize s.cfg i.prefixState) ∧
      ¬ MayStore (withCode s [0x3003]) .ds 0x3000 (operandSize s.cfg i.prefixState) := by decide
theorem witness_MovRegisterImmediate :
    Ready false (.movRImm 0 (.c16 1)) (at1000 c16 [] []) ∧
      Ready false (.rex ⟨true, false, false, true⟩ (.movRImm 7 (.c64 1))) (at1000 c64 [] []) := by decide

theorem witness_UndefinedMemoryIsRefused :
    Ready true (.movAlMoffs (.c32 0x3000)) (at1000 c32 [] []) ∧
      Ready true (.movEaxMoffs (.c32 0x3000)) (at1000 c32 [] [1, 2, 3]) ∧
      Ready true (.incRm ⟨0, 5, none, .d32 0x3000⟩) (at1000 c32 [] [1, 2, 3]) ∧
      Ready true (.decRm ⟨0, 5, none, .d32 0x3000⟩) (at1000 c32 [] [1, 2, 3]) ∧
      (let s := at1000 c32 [] [1, 2, 3]
       Memory.read s.mem (s.loc .ds 0x3000 3) = none ∧
       effectiveAddress s .empty 0x1006 ⟨0, 5, none, .d32 0x3000⟩ = (.ds, 0x3000)) := by decide

/-- `40` at the last byte of the 32-bit range is ready; `48 FF C0` two bytes below 2^64 passes the top (B7). -/
theorem witness_FetchWrapIsRefused :
    Ready false (.incR 0) { at1000 c32 [] [] with rip := 0xFFFFFFFF } ∧
    (let s := { at1000 c64 [] [] with rip := 0xFFFFFFFFFFFFFFFE }
     let i : Instr := .rex rexW (.incRm (reg 0))
     wellFormed s.cfg i = true ∧ admitted i.body = true ∧
       legalPrefixes (attrs i.body).mem i.prefixState.legacy = true ∧ s.cfg.top < s.pc.toNat + i.length) := by decide

theorem witness_SegmentOverridesReplaceTheDefault :
    let j : Instr := .movAlMoffs (.c32 0x3000)
    let s := at1000 c32 [] [0x5A]
    Ready true (.csOverride j) s ∧ Ready true (.ssOverride j) s ∧ Ready true (.dsOverride j) s ∧
      Ready true (.esOverride j) s ∧ Ready true (.fsOverride j) s ∧ Ready true (.gsOverride j) s ∧
      HoldsAt s .cs 0x3000 .w8 0x5A ∧ HoldsAt s .ss 0x3000 .w8 0x5A ∧ HoldsAt s .ds 0x3000 .w8 0x5A ∧
      HoldsAt s .es 0x3000 .w8 0x5A ∧ HoldsAt s .fs 0x3000 .w8 0x5A ∧ HoldsAt s .gs 0x3000 .w8 0x5A ∧
      Carries (.gsOverride j) (.seg .gs) := by decide
theorem witness_OperandSizeOverride :
    Ready false (.opSizeOverride (.movRImm 0 (.c16 1))) (at1000 c32 [] []) ∧
      Ready false (.opSizeOverride (.rex rexW (.movRImm 0 (.c64 1)))) (at1000 c64 [] []) := by decide
theorem witness_AddressSizeOverride :
    let s := at1000 c64 [] [0x5A]
    Ready true (.addrSizeOverride (.movAlMoffs (.c32 0x3000))) s ∧ HoldsAt s .ds 0x3000 .w8 0x5A := by decide
theorem witness_RexBeforeTheOpcode :
    Ready false (.rex rexW (.movRImm 0 (.c64 1))) (at1000 c64 [] []) ∧
      Ready false (.rex rexB (.movRImm 7 (.c32 1))) (at1000 c64 [] []) := by decide
theorem witness_MisplacedRexIsIgnored :
    let j : Instr := .opSizeOverride (.movRImm 0 (.c16 0x1234))
    let s := at1000 c64 [] []
    wellFormed s.cfg (.rex rexW j) = true ∧ j.prefixes = .legacy .opSize :: [] ∧
      s.pc.toNat + (Instr.rex rexW j).length ≤ s.cfg.top ∧
      (nextOf (exec (.rex rexW j) s)).isSome = true := by decide
/-- The REX bytes 48H and 4EH (R and X set too) agree in W and B, and the instruction completes (B1). -/
theorem witness_UnusedRexBitsAreIgnored :
    let r' : Rex := ⟨true, true, true, false⟩
    rexW.w = r'.w ∧ rexW.b = r'.b ∧ (nextOf (exec (.rex r' (.incRm (reg 0))) (at1000 c64 [] []))).isSome = true := by
  decide

theorem witness_LockIsRefused :
    let i : Instr := .csOverride (.lock (.incRm (ind 0)))
    wellFormed c32 i = true ∧ Carries i .lock ∧ wellFormed c32 (.lock (.incR 0)) = true := by decide
theorem witness_not_escape : ∀ b2 b3, (Instr.lock (.incR 0)).body ≠ .twoByteEscape b2 b3 := by
  intro b2 b3 h; cases h
theorem witness_RepeatPrefixIsReserved :
    wellFormed c32 (.rep (.incR 0)) = true ∧ Carries (.rep (.incR 0)) .rep ∧
      wellFormed c32 (.repne (.incR 0)) = true ∧ Carries (.repne (.incR 0)) .repne ∧ stringOrIo (.incR 0) = false := by
  decide
theorem witness_StringInstructionsAreRefused :
    wellFormed c32 .movsB = true ∧ ¬ Carries .movsB .lock ∧ wellFormed c32 (.rep .movsB) = true ∧
      wellFormed c32 (.repne .cmpsV) = true := by decide
theorem witness_UnlistedOpcodesAreNotShown :
    wellFormed c32 (.twoByteEscape 0x00 none) = true ∧ wellFormed c32 (.twoByteEscape 0x38 (some 0x01)) = true ∧
      wellFormed c32 (.rep (.twoByteEscape 0x3A (some 0x0F))) = true := by decide
/-- 90H, B0H and B7H with no prefix, and B0H after 66H; 8FH. -/
theorem witness_UnlistedOpcodesAreNotShown_oneByte :
    (∀ b ∈ [(0x90 : Byte), 0xB0, 0xB7, 0x8F], Prefix.ofByte c64.mode64 b = none ∧ b ≠ 0x0F ∧ b ≠ 0xFF ∧
      ¬ (0x40 ≤ b ∧ b ≤ 0x4F) ∧ ¬ (0x6C ≤ b ∧ b ≤ 0x7F) ∧ ¬ (0xA0 ≤ b ∧ b ≤ 0xA7) ∧ ¬ (0xAA ≤ b ∧ b ≤ 0xAF) ∧
      ¬ (0xB8 ≤ b ∧ b ≤ 0xBF) ∧ CodeAt (at1000 c64 [b] []) [b]) ∧
    PrefixesRead c64 [.legacy .opSize] ∧ repeatsGroup (PrefixState.ofList [.legacy .opSize]).legacy = false ∧
      CodeAt (at1000 c64 [0x66, 0xB0] []) [0x66, 0xB0] :=
  ⟨by decide, prefixesRead_of_legacy (by decide) (by decide), by decide, by decide⟩
theorem witness_JccIsRefused :
    wellFormed c32 (.ssOverride (.jccRel8 4 5)) = true ∧ Carries (.ssOverride (.jccRel8 4 5)) (.seg .ss) ∧
      wellFormed c32 (.addrSizeOverride (.jccRel 4 (.c32 0))) = true ∧
      wellFormed c32 (.csOverride (.jccRel8 4 5)) = true ∧ ¬ Carries (.csOverride (.jccRel8 4 5)) .addrSize ∧
      ¬ Carries (.csOverride (.jccRel8 4 5)) .lock ∧ ¬ Carries (.csOverride (.jccRel8 4 5)) .repne ∧
      ¬ Carries (.csOverride (.jccRel8 4 5)) .rep := by decide
/-- `66 74` and `66 0F 84` in 64-bit mode. -/
theorem witness_JccIsRefused_66 :
    let ps := [Prefix.legacy .opSize]
    c64.mode64 = true ∧ PrefixesRead c64 ps ∧ repeatsGroup (PrefixState.ofList ps).legacy = false ∧
      Prefix.legacy .opSize ∈ ps ∧ CodeAt (at1000 c64 [0x66, 0x74] []) (ps.map Prefix.byte ++ [0x70#8 + (4#4).setWidth 8]) ∧
      CodeAt (at1000 c64 [0x66, 0x0F, 0x84] []) (ps.map Prefix.byte ++ [0x0F, 0x80#8 + (4#4).setWidth 8]) :=
  ⟨by decide, prefixesRead_of_legacy (by decide) (by decide), by decide, by decide, by decide, by decide⟩
theorem witness_BranchHintHasNoEffect :
    wellFormed c32 (.csOverride (.jccRel8 4 5)) = true ∧ wellFormed c64 (.dsOverride (.jccRel 4 (.c32 0))) = true := by
  decide
theorem witness_SimdIsRefused :
    let i : Instr := .opSizeOverride (.cvtdq2pd none 0 (reg 1))
    wellFormed c32 i = true ∧ Carries i .opSize ∧ legalPrefixes false i.prefixState.legacy = true ∧
      wellFormed c32 (.cvtdq2pd none 0 (ind 0)) = true ∧ wellFormed c32 (.csOverride (.phaddw none 0 (ind 3))) = true ∧
      legalPrefixes true [.seg .cs] = true := by decide
theorem witness_PrefixNeedsAMemoryOperand :
    wellFormed c32 (.csOverride (.incR 0)) = true ∧ wellFormed c32 (.addrSizeOverride (.decR 0)) = true ∧
      wellFormed c32 (.dsOverride (.movRImm 0 (.c32 1))) = true ∧ wellFormed c32 (.csOverride (.incRm (reg 0))) = true ∧
      wellFormed c32 (.addrSizeOverride (.decRm (reg 0))) = true ∧
      wellFormed c32 (.csOverride (.phaddw none 0 (reg 1))) = true ∧
      wellFormed c32 (.csOverride (.movRCr 3 0 0)) = true ∧ wellFormed c32 (.addrSizeOverride (.movDrR 3 0 0)) = true := by
  decide

/-- CR9, CR15, DR8 and DR15 by default; CR8 where the configuration has it unimplemented. -/
theorem witness_UnimplementedRegisterRaisesUd :
    wellFormed c64 (.rex rexR (.movRCr 3 1 0)) = true ∧ legalPrefixes false [] = true ∧
      (regNum true 0).toNat = 8 + 0 ∧ (regNum true 1).toNat = 8 + 1 ∧ (regNum true 7).toNat = 8 + 7 ∧
      c64.implCR[1] = false ∧ c64.implCR[7] = false ∧ c64.implDR[0] = false ∧ c64.implDR[7] = false ∧
      (let c : Config := { c64 with implCR := #v[false, false, false, false, false, false, false, false] }
       wellFormed c (.rex rexR (.movRCr 3 0 0)) = true ∧ c.implCR[0] = false) := by decide
/-- CR0, CR7 and CR8, DR0. -/
theorem witness_ControlDebugMoveIsRefused :
    wellFormed c32 (.movRCr 3 0 0) = true ∧ wellFormed c32 (.movCrR 3 7 0) = true ∧
      wellFormed c64 (.rex rexR (.movRCr 3 0 0)) = true ∧ c64.implCR[0] = true ∧
      wellFormed c32 (.movRDr 3 0 0) = true ∧ (∀ k : Fin 8, (regNum false 7).toNat ≠ 8 + k.val) := by decide

theorem witness_LoadSeesStoredBytes : ∃ t, (at1000 c32 [] []).store .ds 0x3000 .w32 0x12345678 = .ok t := ⟨_, rfl⟩
theorem witness_NoIndexIgnoresTheScale :
    c32.mode64 = false ∧ addressSize c32 (Instr.prefixState (.incR 0)) = .w32 ∧ c64.mode64 = true ∧
      (Instr.prefixState (.incRm (reg 0))).rexBits.x = false ∧
      (Instr.prefixState (.rex ⟨false, false, true, false⟩ (.incRm (reg 0)))).rexBits.x = true := by decide
theorem witness_EffectiveAddress16 :
    c16.mode64 = false ∧ c16.defAddrSize = .d16 ∧ c32.defAddrSize.other = .d16 ∧ ¬ Carries (.incRm (ind 0)) .addrSize ∧
      Carries (.addrSizeOverride (.incRm (ind 0))) .addrSize ∧ (∀ g, ¬ Carries (.incRm (ind 0)) (.seg g)) := by
  refine ⟨by decide, by decide, by decide, by decide, by decide, fun g => ?_⟩
  cases g <;> decide
theorem witness_EffectiveAddress16_shape :
    (RmOperand.shapeOk .w16 ⟨0, 6, none, .d16 1⟩ ∧ RmOperand.shapeOk .w16 ⟨1, 6, none, .d8 1⟩ ∧
      RmOperand.shapeOk .w16 ⟨2, 7, none, .d16 1⟩) := by decide
theorem witness_EffectiveAddress32 :
    c32.mode64 = false ∧ c32.defAddrSize = .d32 ∧ c16.defAddrSize.other = .d32 := by decide
theorem witness_EffectiveAddress32_shape :
    (RmOperand.shapeOk .w32 ⟨0, 5, none, .d32 1⟩ ∧ RmOperand.shapeOk .w32 ⟨1, 5, none, .d8 1⟩ ∧
      RmOperand.shapeOk .w32 ⟨0, 4, some ⟨3, 4, 5⟩, .d32 1⟩ ∧ RmOperand.shapeOk .w32 ⟨2, 4, some ⟨3, 1, 4⟩, .d32 1⟩) := by
  decide
theorem witness_EffectiveAddress64 :
    (c64.mode64 = true ∧ RmOperand.shapeOk .w64 ⟨0, 5, none, .d32 1⟩ ∧ RmOperand.shapeOk .w64 ⟨0, 4, some ⟨3, 4, 5⟩, .d32 1⟩ ∧
      RmOperand.shapeOk .w32 ⟨1, 4, some ⟨3, 1, 4⟩, .d8 1⟩) := by decide
theorem witness_RipRelativeAddress :
    let i : Instr := .addrSizeOverride (.incRm ⟨0, 5, none, .d32 0xFFFFFFF0⟩)
    wellFormed c64 i = true ∧ c64.mode64 = true ∧ Carries i .addrSize := by decide
/-- A17, B2c: `67 FF 05 F0 FF FF FF` at 0 addresses FFFFFFF7H. -/
theorem test_rip_truncated :
    let i : Instr := .addrSizeOverride (.incRm ⟨0, 5, none, .d32 0xFFFFFFF0⟩)
    let s := { at1000 c64 [] [] with rip := 0 }
    effectiveAddress s i.prefixState (nextPc i s) ⟨0, 5, none, .d32 0xFFFFFFF0⟩ = (.ds, 0xFFFFFFF7) := by decide
theorem witness_OperandSizeTable :
    c32.mode64 = false ∧ wellFormed c32 (.incR 0) = true ∧ c64.mode64 = true ∧
      (Instr.rex rexW .outsB).body = .outsB ∧ (Instr.opSizeOverride (.movAlMoffs (.c32 0))).body = .movAlMoffs (.c32 0) ∧
      (Instr.rex rexW (.jccRel8 0 0)).body = .jccRel8 0 0 ∧ (Instr.rex rexW .outsV).body = .outsV ∧
      (Instr.rex rexB (.phaddw none 0 (reg 1))).body = .phaddw none 0 (reg 1) ∧
      (Instr.opSizeOverride (.movRImm 0 (.c16 1))).body = .movRImm 0 (.c16 1) := by decide

end Sys2Proof.Tests
end

section
/-! The address size of an instruction (R140, R141). -/

namespace Sys2Proof

/-- In 64-bit mode 67H turns the address size from 64 to 32, whatever the default size (R141). -/
theorem addressSize_of_mode64 {c : Config} (h : c.mode64 = true) (p : PrefixState) :
    addressSize c p = if p.has67 then .w32 else .w64 := by
  rw [addressSize, if_pos h]

/-- Outside 64-bit mode 67H selects the size that is not the default (R140). -/
theorem addressSize_of_not_mode64 {c : Config} (h : c.mode64 = false) (p : PrefixState) :
    addressSize c p = (if p.has67 then c.defAddrSize.other else c.defAddrSize).width := by
  rw [addressSize, if_neg (by simp [h])]

namespace Machine

/-- Settles O60, by the mode: in 64-bit mode the default does not count, outside it 67H exchanges the two
sizes. -/
theorem addressSizeTable : Obligations.AddressSizeTable := by
  unfold Obligations.AddressSizeTable
  intro c i
  cases hm : c.mode64 with
  | true =>
    rw [addressSize_of_mode64 hm, has67_eq]
    cases decide (Carries i .addrSize) <;> rfl
  | false =>
    rw [addressSize_of_not_mode64 hm, has67_eq]
    cases c.defAddrSize <;> cases decide (Carries i .addrSize) <;> rfl

end Machine

end Sys2Proof
end

section
/-! SIB addresses with index field 100B: no index, or R12 (R223, R249). -/

namespace Sys2Proof.Machine

/-! ## Registers that form an address -/

theorem regNum_false (f : BitVec 3) : regNum false f = f.setWidth 4 := by
  revert f; decide

theorem State.readReg_setGpr_other (s : State) {n m : BitVec 4} (v : Word) (w : Width) (h : m ≠ n) :
    (s.setGpr n v).readReg m w = s.readReg m w := by
  unfold State.readReg
  rw [State.setGpr_gpr_other s v h]

theorem addrReg_setGpr_other (s : State) {n m : BitVec 4} (v : Word) (a : Width) (h : m ≠ n) :
    addrReg (s.setGpr n v) a m = addrReg s a m := by
  unfold addrReg
  rw [State.setGpr_gpr_other s v h]

/-- The modulus of an address in 64-bit mode (R253, R260, R261). -/
def addrModulus (a : Width) : Nat := if a = .w32 then 2 ^ 32 else 2 ^ 64

theorem addrModulus_dvd (a : Width) : addrModulus a ∣ 2 ^ 64 := by
  unfold addrModulus
  split
  · exact Nat.pow_dvd_pow 2 (by decide)
  · exact Nat.dvd_refl _

theorem addrReg_toNat (s : State) (a : Width) (n : BitVec 4) :
    (addrReg s a n).toNat = (s.gpr n).toNat % addrModulus a := by
  unfold addrReg addrModulus
  split
  · simp; omega
  · exact (Nat.mod_eq_of_lt (s.gpr n).isLt).symm

theorem ea64_offset_toNat (s : State) (rex : Rex) (a : Width) (next : Word) (o : RmOperand) :
    (ea64 s rex a next o).2.toNat = (ea64Sum s rex a next o).2.toNat % addrModulus a := by
  unfold ea64 addrModulus
  split
  · simp; omega
  · exact (Nat.mod_eq_of_lt (BitVec.isLt _)).symm

/-! ## The table an address size selects (R142, R285) -/

theorem effectiveAddress_of_mode64 {s : State} (h : s.cfg.mode64 = true) (p : PrefixState) (next : Word)
    (o : RmOperand) :
    effectiveAddress s p next o =
      (segmentFor p (ea64 s p.rexBits (addressSize s.cfg p) next o).1,
        (ea64 s p.rexBits (addressSize s.cfg p) next o).2) := by
  simp only [effectiveAddress, if_pos h]

theorem effectiveAddress_of_w32 {s : State} (h : s.cfg.mode64 = false) {p : PrefixState}
    (ha : addressSize s.cfg p = .w32) (next : Word) (o : RmOperand) :
    effectiveAddress s p next o = (segmentFor p (ea32 s o).1, (ea32 s o).2) := by
  simp [effectiveAddress, h, ha]

/-! ## Index none: neither the scale nor a register other than the base occurs -/

/-- With index 100B the address is base and displacement (R223). -/
theorem ea32_noIndex (s : State) (o : RmOperand) (k : BitVec 2) (base : BitVec 3) :
    ea32 s { o with sib := some ⟨k, 4, base⟩ } =
      if base == 5 && o.mod == 0 then (.ds, (o.disp.sext 32).setWidth 64)
      else (segOfBase (regNum false base), (s.readReg (regNum false base) .w32 + o.disp.sext 32).setWidth 64) := by
  simp [ea32]

/-- With index 0100B the sum is base and displacement (R249). -/
theorem ea64Sum_noIndex (s : State) {rex : Rex} (hx : rex.x = false) (a : Width) (next : Word) (o : RmOperand)
    (k : BitVec 2) (base : BitVec 3) :
    ea64Sum s rex a next { o with sib := some ⟨k, 4, base⟩ } =
      if base == 5 && o.mod == 0 then (.ds, o.disp.sext 64)
      else (segOfBase (regNum rex.b base), addrReg s a (regNum rex.b base) + o.disp.sext 64) := by
  simp [ea64Sum, hx, regNum]

theorem ea32_noIndex_scale (s : State) (o : RmOperand) (k k' : BitVec 2) (base : BitVec 3) :
    ea32 s { o with sib := some ⟨k, 4, base⟩ } = ea32 s { o with sib := some ⟨k', 4, base⟩ } := by
  rw [ea32_noIndex, ea32_noIndex]

theorem ea32_noIndex_setGpr (s : State) (o : RmOperand) (k : BitVec 2) {base : BitVec 3} {m : BitVec 4} (v : Word)
    (h : m ≠ regNum false base) :
    ea32 (s.setGpr m v) { o with sib := some ⟨k, 4, base⟩ } = ea32 s { o with sib := some ⟨k, 4, base⟩ } := by
  rw [ea32_noIndex, ea32_noIndex, State.readReg_setGpr_other s v .w32 h.symm]

theorem ea64_noIndex_scale (s : State) {rex : Rex} (hx : rex.x = false) (a : Width) (next : Word) (o : RmOperand)
    (k k' : BitVec 2) (base : BitVec 3) :
    ea64 s rex a next { o with sib := some ⟨k, 4, base⟩ } =
      ea64 s rex a next { o with sib := some ⟨k', 4, base⟩ } := by
  rw [ea64, ea64, ea64Sum_noIndex s hx, ea64Sum_noIndex s hx]

theorem ea64_noIndex_setGpr (s : State) {rex : Rex} (hx : rex.x = false) (a : Width) (next : Word) (o : RmOperand)
    (k : BitVec 2) {base : BitVec 3} {m : BitVec 4} (v : Word) (h : m ≠ regNum rex.b base) :
    ea64 (s.setGpr m v) rex a next { o with sib := some ⟨k, 4, base⟩ } =
      ea64 s rex a next { o with sib := some ⟨k, 4, base⟩ } := by
  rw [ea64, ea64, ea64Sum_noIndex _ hx, ea64Sum_noIndex _ hx, addrReg_setGpr_other s v a h.symm]

/-! ## Index R12 -/

/-- REX.X makes index 100B name R12, which the sum then holds beside base and displacement (R249). -/
theorem ea64Sum_indexR12 (s : State) {rex : Rex} (hx : rex.x = true) (a : Width) (next : Word) (o : RmOperand)
    (k : BitVec 2) (base : BitVec 3) :
    (ea64Sum s rex a next { o with sib := some ⟨k, 4, base⟩ }).2 =
      (ea64Sum s { rex with x := false } a next { o with sib := some ⟨k, 4, base⟩ }).2 +
        addrReg s a 12 <<< k.toNat := by
  have hidx : regNum true 4 = 12#4 := by decide
  rw [ea64Sum_noIndex s (rex := { rex with x := false }) rfl]
  simp only [ea64Sum, hx, hidx]
  split
  · exact add_comm _ _
  · exact add_right_comm _ _ _

/-- A sum of words modulo `t`, one of them shifted and known modulo `t`. -/
theorem toNat_add_shiftLeft_mod {t : Nat} (ht : t ∣ 2 ^ 64) (u v : Word) {g : Nat} (hv : v.toNat = g % t) (n : Nat) :
    (u + v <<< n).toNat % t = (u.toNat % t + g * 2 ^ n) % t := by
  rw [BitVec.toNat_add, BitVec.toNat_shiftLeft, Nat.shiftLeft_eq, Nat.add_mod_mod, Nat.mod_mod_of_dvd _ ht, hv]
  exact ((Nat.mod_modEq _ t).symm.add ((Nat.mod_modEq g t).mul_right _))

theorem ea64_indexR12_toNat (s : State) {rex : Rex} (hx : rex.x = true) (a : Width) (next : Word) (o : RmOperand)
    (k : BitVec 2) (base : BitVec 3) :
    (ea64 s rex a next { o with sib := some ⟨k, 4, base⟩ }).2.toNat =
      ((ea64 s { rex with x := false } a next { o with sib := some ⟨k, 4, base⟩ }).2.toNat +
        (s.gpr 12).toNat * 2 ^ k.toNat) % addrModulus a := by
  rw [ea64_offset_toNat, ea64_offset_toNat, ea64Sum_indexR12 s hx]
  exact toNat_add_shiftLeft_mod (addrModulus_dvd a) _ _ (addrReg_toNat s a 12) _

/-- The modulus in 64-bit mode is 2^32 just when the instruction carries 67H (R141). -/
theorem addrModulus_addressSize {c : Config} (h : c.mode64 = true) (i : Instr) :
    addrModulus (addressSize c i.prefixState) = if Carries i .addrSize then 2 ^ 32 else 2 ^ 64 := by
  rw [addressSize_of_mode64 h, has67_eq]
  by_cases hc : Carries i .addrSize <;> simp [hc, addrModulus]

/-- Settles O54, by the three cases of the statement: with no index the address is base and displacement, and with
REX.X the index is R12. -/
theorem noIndexIgnoresTheScale : Obligations.NoIndexIgnoresTheScale := by
  unfold Obligations.NoIndexIgnoresTheScale
  intro s i next o base k k'
  dsimp only
  refine ⟨fun hm ha => ⟨?_, fun m v hne => ?_⟩, fun hm hx => ⟨?_, fun m v hne => ?_⟩, fun hm hx => ?_⟩
  · rw [effectiveAddress_of_w32 hm ha, effectiveAddress_of_w32 hm ha, ea32_noIndex_scale s o k k']
  · rw [← regNum_false] at hne
    rw [effectiveAddress_of_w32 (s := s.setGpr m v) hm ha, effectiveAddress_of_w32 hm ha,
      ea32_noIndex_setGpr s o k v hne]
  · rw [effectiveAddress_of_mode64 hm, effectiveAddress_of_mode64 hm, ea64_noIndex_scale s hx _ next o k k']
  · rw [effectiveAddress_of_mode64 (s := s.setGpr m v) hm, effectiveAddress_of_mode64 hm, State.setGpr_cfg,
      ea64_noIndex_setGpr s hx _ next o k v hne]
  · rw [effectiveAddress_of_mode64 hm, effectiveAddress_of_mode64 hm, ← addrModulus_addressSize hm]
    exact ea64_indexR12_toNat s hx _ next o k base

end Sys2Proof.Machine
end

section
/-! RIP-relative addresses, with and without 67H (R257, R259, R260). -/

namespace Sys2Proof.Machine

/-! ## The shape of an operand with mod = 00B and r/m = 101B -/

/-- The operand of INC and DEC r/m has the shape that the address size of the instruction calls for. -/
theorem wellFormed_incDecRm_shapeOk {c : Config} {i : Instr} {o : RmOperand}
    (hb : i.body = .incRm o ∨ i.body = .decRm o) (hw : wellFormed c i = true) :
    o.shapeOk (addressSize c i.prefixState) = true := by
  obtain ⟨hs, -, -⟩ := wellFormed_shape hw
  rcases hb with hb | hb <;>
  · rw [hb, shapeOk, Bool.and_eq_true] at hs
    exact hs.2

/-- 64-bit mode has no 16-bit addresses (R141). -/
theorem addressSize_ne_w16_of_mode64 {c : Config} (h : c.mode64 = true) (p : PrefixState) :
    addressSize c p ≠ .w16 := by
  rw [addressSize_of_mode64 h]
  split <;> decide

theorem disp_size_eq_four_iff {d : Disp} : d.size = 4 ↔ ∃ v, d = .d32 v := by
  cases d <;> simp [Disp.size]

/-- Under a 32- or 64-bit address size this form is a 32-bit displacement with no SIB byte (R210, R259). -/
theorem shapeOk_mod0_rm5 {a : Width} {o : RmOperand} (ha : a ≠ .w16) (hmod : o.mod = 0) (hrm : o.rm = 5)
    (hs : o.shapeOk a = true) : o.sib = none ∧ ∃ d, o.disp = .d32 d := by
  obtain ⟨hsib, hdisp⟩ : o.sib.isSome = hasSib a o.mod o.rm ∧ o.disp.size = dispSize a o.mod o.rm o.sib := by
    simpa [RmOperand.shapeOk] using hs
  have hnone : o.sib = none := by simpa [hasSib, hrm] using hsib
  have hfour : o.disp.size = 4 := by simpa [dispSize, hmod, hrm, hnone, ha] using hdisp
  exact ⟨hnone, disp_size_eq_four_iff.1 hfour⟩

/-! ## Its address -/

/-- No register takes part, whatever the REX (R257, R259). -/
theorem ea64Sum_ripRelative (s : State) (rex : Rex) (a : Width) (next : Word) {o : RmOperand} (hmod : o.mod = 0)
    (hrm : o.rm = 5) (hsib : o.sib = none) : ea64Sum s rex a next o = (.ds, next + o.disp.sext 64) := by
  simp [ea64Sum, hsib, hmod, hrm]

/-- In 64-bit mode 67H truncates the offset to 32 bits and does nothing else to the sum (R260, R261). -/
theorem effectiveAddress_offset_of_mode64 {s : State} (h : s.cfg.mode64 = true) (i : Instr) (next : Word)
    (o : RmOperand) :
    (effectiveAddress s i.prefixState next o).2 =
      (let sum := (ea64Sum s i.prefixState.rexBits (addressSize s.cfg i.prefixState) next o).2
       if Carries i .addrSize then (sum.setWidth 32).setWidth 64 else sum) := by
  have h32 : addressSize s.cfg i.prefixState = .w32 ↔ Carries i .addrSize := by
    rw [addressSize_of_mode64 h, has67_eq]
    by_cases hc : Carries i .addrSize <;> simp [hc]
  rw [effectiveAddress_of_mode64 h]
  simp only [ea64, h32]

/-- Settles O58: the shape leaves a displacement of 32 bits and no SIB byte, so the sum is the next pointer plus the
displacement, and 67H only truncates it. -/
theorem ripRelativeAddress : Obligations.RipRelativeAddress := by
  unfold Obligations.RipRelativeAddress
  intro i o s hb hw hm hmod hrm
  have hshape := wellFormed_incDecRm_shapeOk hb hw
  obtain ⟨hsib, d, hd⟩ := shapeOk_mod0_rm5 (addressSize_ne_w16_of_mode64 hm _) hmod hrm hshape
  refine ⟨d, hd, ?_⟩
  rw [effectiveAddress_offset_of_mode64 hm, ea64Sum_ripRelative s _ _ _ hmod hrm hsib, hd]
  rfl

end Sys2Proof.Machine
end

section
/-! Opcodes that no row has: FFH with a reg field of 2 to 7, and FEH (R152, R287). -/

namespace Sys2Proof

/-! ## One-byte opcodes without a row (R152) -/

/-- A one-byte opcode other than FFH that has no row is not shown, with nothing read after it. -/
theorem decodeOneByte_noRow {c : Config} (ps : List Prefix) {b : Byte} (bs : List Byte) (hff : b ≠ 0xFF)
    (hk : oneByteRow c.mode64 b 0 = none) : decodeOneByte c ps b bs = .error (.notShown [b] none) := by
  obtain ⟨hdigit, hrow⟩ := lookupRow_one c.mode64 b hff
  rw [hk] at hrow
  simp only [decodeOneByte, hdigit, Bool.false_eq_true, if_false, bind, Except.bind, hrow]

/-- Opcode FFH with a ModR/M byte whose digit has no row is not shown; the digit is all that is read of the byte. -/
theorem decodeOneByte_FF_noRow {c : Config} (ps : List Prefix) (m : Byte) (bs : List Byte)
    (hk : oneByteRow c.mode64 0xFF (mid3 m) = none) :
    decodeOneByte c ps 0xFF (m :: bs) = .error (.notShown [0xFF] none) := by
  obtain ⟨hdigit, hrow⟩ := lookupRow_FF c.mode64 (mid3 m)
  rw [hk] at hrow
  simp only [decodeOneByte, hdigit, if_true, takeByte, bind, Except.bind, hrow]

/-- Of the eight digits of FFH only 0 (INC) and 1 (DEC) have a row (R287). -/
theorem oneByteRow_FF_eq_none_iff : ∀ (m64 : Bool) (reg : BitVec 3),
    oneByteRow m64 0xFF reg = none ↔ 2 ≤ reg.toNat := by
  decide

/-- The byte-sized INC and DEC have no row (R287). -/
theorem oneByteRow_FE (m64 : Bool) (reg : BitVec 3) : oneByteRow m64 0xFE reg = none := by
  revert m64 reg; decide

theorem ofByte_FF (m64 : Bool) : Prefix.ofByte m64 0xFF = none := by
  revert m64; decide

theorem ofByte_FE (m64 : Bool) : Prefix.ofByte m64 0xFE = none := by
  revert m64; decide

/-! ## A stream that is refused before it runs out -/

/-- An error other than that the bytes ended stands whatever follows them. -/
theorem decode_append_of_error {c : Config} {bs : List Byte} {e : DecodeError} (rest : List Byte)
    (hlen : bs.length ≤ 15) (h : decodeStream c bs = .error e) (he : e ≠ .truncated) :
    decode c (bs ++ rest) = .error e := by
  have hmore : decodeStream c ((bs ++ rest).take 15) = .error e := by
    rw [List.take_append, List.take_of_length_le hlen]
    rcases mono_decodeStream c bs (rest.take (15 - bs.length)) with htrunc | hsame
    · rw [h] at htrunc
      exact absurd (Except.error.inj htrunc) he
    · rw [hsame, h]
  unfold decode
  split
  · rename_i htrunc
    rw [hmore] at htrunc
    exact absurd (Except.error.inj htrunc) he
  · exact hmore

namespace Machine

/-- The prefixes that an instruction may begin with are those the decoder allows (R123). -/
theorem PrefixesRead.all_allowed {c : Config} {ps : List Prefix} (h : PrefixesRead c ps) :
    ps.all (Prefix.allowed c) = true := by
  rw [List.all_eq_true]
  intro p hp
  cases p with
  | legacy l => rfl
  | rex r => exact h.1 r hp

/-- The program's bytes at the instruction pointer are the first that are fetched. -/
theorem fetch_of_codeAt {s : State} {bs : List Byte} (h : CodeAt s bs) (hlen : bs.length ≤ 15) :
    ∃ rest, s.fetch.1 = bs ++ rest := by
  have hbytes : ∀ j (hj : j < bs.length), s.codeByte (s.loc .cs s.pc (0 + j)) = some bs[j] := by
    intro j hj
    rw [Nat.zero_add, codeByte_eq_some_iff]
    exact h j hj
  exact ⟨_, by rw [State.fetch, fetchFrom_of_bytes s 0 15 bs hlen hbytes]⟩

/-- A step at bytes that the decoder rejects for what they say is refused for that. -/
theorem step_of_codeAt_error {s : State} {bs : List Byte} {e : DecodeError} (hcode : CodeAt s bs)
    (hlen : bs.length ≤ 15) (h : decodeStream s.cfg bs = .error e) (he : e ≠ .truncated) :
    step s = .refused (decodeRefusal s.pc s.fetch.2 e) := by
  obtain ⟨rest, hfetch⟩ := fetch_of_codeAt hcode hlen
  have hdec : decode s.cfg s.fetch.1 = .error e := by
    rw [hfetch, decode_append_of_error rest hlen h he]
  simp only [step, hdec]

/-- After readable prefixes, an opcode byte that the decoder does not show is refused at the instruction's
own address. -/
theorem step_notShown {s : State} {ps : List Prefix} {b : Byte} {bs : List Byte} (hps : PrefixesRead s.cfg ps)
    (hgroups : repeatsGroup (PrefixState.ofList ps).legacy = false) (hb : Prefix.ofByte s.cfg.mode64 b = none)
    (h0f : b ≠ 0x0F) (hrow : decodeOneByte s.cfg ps b bs = .error (.notShown [b] none))
    (hlen : (ps.map Prefix.byte ++ b :: bs).length ≤ 15) (hcode : CodeAt s (ps.map Prefix.byte ++ b :: bs)) :
    step s = .refused (.notShown [b] none s.pc) := by
  have hstream : decodeStream s.cfg (ps.map Prefix.byte ++ b :: bs) = .error (.notShown [b] none) := by
    rw [decodeStream_prefixes bs hps.all_allowed hgroups hps.2 hb, if_neg h0f, hrow]
  exact step_of_codeAt_error hcode hlen hstream (by simp)

/-- Settles O8: neither FFH with a digit from 2 on nor FEH has a row, so that the decoder stops at the opcode,
whatever prefixes it read and whatever bytes follow. -/
theorem unlistedFFAndFEAreNotShown : Obligations.UnlistedFFAndFEAreNotShown := by
  unfold Obligations.UnlistedFFAndFEAreNotShown
  intro s ps hps hgroups
  refine ⟨fun m hdigit hlen hcode => ?_, fun hlen hcode => ?_⟩
  · have hrow := decodeOneByte_FF_noRow (c := s.cfg) ps m [] ((oneByteRow_FF_eq_none_iff _ _).2 hdigit)
    exact step_notShown hps hgroups (ofByte_FF _) (by decide) hrow (by simpa using hlen) hcode
  · have hrow := decodeOneByte_noRow (c := s.cfg) ps [] (by decide) (oneByteRow_FE _ 0)
    exact step_notShown hps hgroups (ofByte_FE _) (by decide) hrow (by simpa using hlen) hcode

end Machine

end Sys2Proof
end

section
/-! MOV AL, moffs8 and MOV r, imm: a register takes a value, and nothing else but the instruction pointer changes
(R302, R306). -/

namespace Sys2Proof

/-! ## The constants of a well-formed MOV -/

/-- The offset of MOV AL, moffs8 has the address size (R300). -/
theorem wellFormed_movAlMoffs_width {c : Config} {i : Instr} {a : Const} (hb : i.body = .movAlMoffs a)
    (hw : wellFormed c i = true) : a.width = addressSize c i.prefixState := by
  obtain ⟨hs, -, -⟩ := wellFormed_shape hw
  rw [hb, shapeOk, Bool.and_eq_true, beq_iff_eq] at hs
  exact hs.2

/-- The immediate of MOV r, imm has the operand size (R306). -/
theorem wellFormed_movRImm_width {c : Config} {i : Instr} {n : BitVec 3} {v : Const} (hb : i.body = .movRImm n v)
    (hw : wellFormed c i = true) : v.width = operandSize c i.prefixState := by
  obtain ⟨hs, -, -⟩ := wellFormed_shape hw
  rw [hb, shapeOk, Bool.and_eq_true, beq_iff_eq] at hs
  exact hs.2

/-- The opcode B8H + n is five fixed bits above the register field. -/
theorem movRImm_opcode (n : BitVec 3) : (0b10111#5) ++ n = 0xB8#8 + n.setWidth 8 := by
  revert n; decide

namespace Machine

/-! ## A register takes a value -/

/-- Writing a register and moving the instruction pointer on is all that `LoadReg` says. -/
theorem loadReg_writeReg_setPc (i : Instr) (s : State) (n : BitVec 4) (w : Width) (v : BitVec w.bits) :
    LoadReg n w v i s ((s.writeReg n w v).setPc (nextPc i s)) := by
  obtain ⟨hwrote, hregs⟩ := s.writeReg_spec n w v
  obtain ⟨hflags, hmem, hspecial, -⟩ := s.writeReg_same n w v
  -- `setPc` keeps every field that these speak of.
  exact ⟨hwrote, hregs, hflags, hmem, hspecial, advancedBy_setPc hspecial.1⟩

/-- A load of the accumulator takes the value that the bytes hold. -/
theorem loadAccumulator_of_holdsAt {p : PrefixState} {w : Width} {a : Const} {s : State} {v : BitVec w.bits}
    (h : HoldsAt s (p.segment.getD .ds) a.zext w v) : loadAccumulator p w a s = .ok (s.writeReg 0 w v) :=
  (loadAccumulator_ok_iff ..).2 ⟨v, h, rfl⟩

/-- MOV AL, moffs8 that is ready, where its byte holds a value, completes. -/
theorem exec_movAlMoffs {i : Instr} {a : Const} {s : State} {v : BitVec 8} (hb : i.body = .movAlMoffs a)
    (hr : Ready true i s) (hv : HoldsAt s (i.prefixState.segment.getD .ds) a.zext .w8 v) :
    exec i s = .next ((s.writeReg 0 .w8 v).setPc (nextPc i s)) := by
  rw [exec_of_ready hb rfl rfl rfl hr _ (execAfter_movAlMoffs ..), loadAccumulator_of_holdsAt hv, readyOutcome]

/-- MOV r, imm that is ready completes. -/
theorem exec_movRImm {i : Instr} {n : BitVec 3} {v : Const} {s : State} (hb : i.body = .movRImm n v)
    (hr : Ready false i s) :
    exec i s = .next ((s.writeReg (regNum i.prefixState.rexBits.b n) (operandSize s.cfg i.prefixState)
      (immediate (operandSize s.cfg i.prefixState) v)).setPc (nextPc i s)) := by
  rw [exec_of_ready hb rfl rfl rfl hr _ (execAfter_movRImm ..), readyOutcome]

/-! ## The statements -/

/-- Settles O29: the offset has the address size, the load gives the byte held, and AL takes it. -/
theorem movAlFromMoffset : Obligations.MovAlFromMoffset := by
  unfold Obligations.MovAlFromMoffset
  intro i a s v hb hr hv
  refine ⟨?_, _, exec_movAlMoffs hb hr hv, loadReg_writeReg_setPc i s 0 .w8 v⟩
  rw [encode, const_bytes_eq, wellFormed_movAlMoffs_width hb hr.1]

/-- Settles O33: the immediate has the operand size, and the register that REX.B extends takes it. -/
theorem movRegisterImmediate : Obligations.MovRegisterImmediate := by
  unfold Obligations.MovRegisterImmediate
  intro i n v s hb hr w
  have hwidth : v.width = w := wellFormed_movRImm_width hb hr.1
  refine ⟨hwidth, ?_, _, exec_movRImm hb hr, loadReg_writeReg_setPc i s _ w (immediate w v)⟩
  rw [encode, const_bytes_eq, hwidth, movRImm_opcode]

end Machine

end Sys2Proof
end

section
/-! Moves to and from control and debug registers: #UD for a register that is not implemented, a refusal for every
other, and their operands (R320 to R323). -/

namespace Sys2Proof.Machine

/-! ## Which registers are implemented (R323) -/

/-- Of the registers numbered 8 to 15 the configuration says which are implemented. -/
theorem implemented_of_toNat {n : BitVec 4} {k : Fin 8} (impl : Vector Bool 8) (h : n.toNat = 8 + k) :
    implemented impl n = impl[k] := by
  have hlow : ¬ n.toNat < 8 := by omega
  have hmod : n.toNat % 8 = k := by omega
  simp [implemented, hlow, hmod]

/-- A register below number 8 is not asked about (R320). -/
theorem implemented_iff (impl : Vector Bool 8) (n : BitVec 4) :
    implemented impl n = true ↔ ∀ k : Fin 8, n.toNat = 8 + k → impl[k] = true := by
  by_cases hlow : n.toNat < 8
  · have hnone : ∀ k : Fin 8, n.toNat ≠ 8 + k := fun k => by omega
    simp [implemented, hlow, hnone]
  · have hn := n.isLt
    obtain ⟨k, hk⟩ : ∃ k : Fin 8, n.toNat = 8 + k := ⟨⟨n.toNat - 8, by omega⟩, by simp; omega⟩
    rw [implemented_of_toNat impl hk]
    refine ⟨fun h j hj => ?_, fun h => h k hk⟩
    rwa [show j = k by omega]

/-- By default CR8 alone is implemented (R323). -/
theorem reset_implemented :
    ∀ k : Fin 8, Config.reset.implCR[k] = decide (k = 0) ∧ Config.reset.implDR[k] = false := by
  decide

/-! ## Running a move -/

/-- What a move with legal prefixes comes to, by the number of its control or debug register. -/
def crdrOutcome (impl : Vector Bool 8) (n : BitVec 4) (s : State) : Outcome :=
  if implemented impl n then .refused (.semanticsNotInSource "MOV CR/DR" s.pc) else .fault (.invalidOpcode s.pc)

theorem crdrMove_of_legal {p : PrefixState} {body : Instr} (impl : Vector Bool 8) (reg : BitVec 3) (s : State)
    (ha : attrs body = {}) (hl : legalPrefixes false p.legacy = true) :
    crdrMove impl p body reg s = crdrOutcome impl (regNum p.rexBits.r reg) s := by
  have hcheck : prefixRefusal (attrs body) p s.pc = none := by
    rw [ha]; exact prefixRefusal_of_legal s.pc rfl rfl hl
  simp only [crdrMove, hcheck]
  rfl

theorem exec_movCr {i : Instr} {mod : BitVec 2} {reg rm : BitVec 3} {s : State} (hw : wellFormed s.cfg i = true)
    (hl : legalPrefixes false i.prefixState.legacy = true)
    (hb : i.body = .movRCr mod reg rm ∨ i.body = .movCrR mod reg rm) :
    exec i s = crdrOutcome s.cfg.implCR (regNum i.prefixState.rexBits.r reg) s := by
  rw [exec_of_wellFormed hw]
  rcases hb with hb | hb
  · rw [hb, execAfter_movRCr, crdrMove_of_legal _ _ _ rfl hl]
  · rw [hb, execAfter_movCrR, crdrMove_of_legal _ _ _ rfl hl]

theorem exec_movDr {i : Instr} {mod : BitVec 2} {reg rm : BitVec 3} {s : State} (hw : wellFormed s.cfg i = true)
    (hl : legalPrefixes false i.prefixState.legacy = true)
    (hb : i.body = .movRDr mod reg rm ∨ i.body = .movDrR mod reg rm) :
    exec i s = crdrOutcome s.cfg.implDR (regNum i.prefixState.rexBits.r reg) s := by
  rw [exec_of_wellFormed hw]
  rcases hb with hb | hb
  · rw [hb, execAfter_movRDr, crdrMove_of_legal _ _ _ rfl hl]
  · rw [hb, execAfter_movDrR, crdrMove_of_legal _ _ _ rfl hl]

theorem crdrOutcome_unimplemented {impl : Vector Bool 8} {n : BitVec 4} {k : Fin 8} (s : State)
    (hn : n.toNat = 8 + k) (hk : impl[k] = false) : crdrOutcome impl n s = .fault (.invalidOpcode s.pc) := by
  simp [crdrOutcome, implemented_of_toNat impl hn, hk]

theorem crdrOutcome_implemented {impl : Vector Bool 8} {n : BitVec 4} (s : State)
    (h : ∀ k : Fin 8, n.toNat = 8 + k → impl[k] = true) :
    crdrOutcome impl n s = .refused (.semanticsNotInSource "MOV CR/DR" s.pc) := by
  rw [crdrOutcome, if_pos ((implemented_iff impl n).2 h)]

/-! ## The statements -/

/-- Settles O50: legal prefixes pass the check, so that the outcome turns on the register's number alone, and a number
from 8 on is looked up in the configuration. -/
theorem unimplementedRegisterRaisesUd : Obligations.UnimplementedRegisterRaisesUd := by
  unfold Obligations.UnimplementedRegisterRaisesUd
  refine ⟨fun i mod reg rm k s hw hl hn => ⟨fun hk hb => ?_, fun hk hb => ?_⟩, reset_implemented⟩
  · rw [exec_movCr hw hl hb, crdrOutcome_unimplemented s hn hk]
  · rw [exec_movDr hw hl hb, crdrOutcome_unimplemented s hn hk]

/-- Settles O51: the outcome for an implemented register, and the operands of each of the four rows after the
instruction's prefixes. -/
theorem controlDebugMoveIsRefused : Obligations.ControlDebugMoveIsRefused := by
  unfold Obligations.ControlDebugMoveIsRefused
  intro i mod reg rm s
  refine ⟨fun hw hl => ⟨fun hb himpl => ?_, fun hb himpl => ?_⟩, fun hb => ?_, fun hb => ?_, fun hb => ?_,
    fun hb => ?_⟩
  · rw [exec_movCr hw hl hb, crdrOutcome_implemented s himpl]
  · rw [exec_movDr hw hl hb, crdrOutcome_implemented s himpl]
  all_goals
    rw [operandsOf_eq, hb]
    rfl

end Sys2Proof.Machine
end

section
/-! The values at reset (R323, R360). -/

namespace Sys2Proof.Machine

theorem reset_segBase (g : Seg) : State.reset.cfg.segBase.base g = if g = .cs then 0xFFFF0000 else 0 := by
  cases g <;> rfl

/-- RDX alone of the general registers is not 0. -/
theorem reset_gpr (n : BitVec 4) : State.reset.gpr n = if n = 2 then 0x600 else 0 := by
  revert n; decide

theorem reset_mmx_xmm :
    (∀ k : Fin 8, State.reset.mmx[k] = 0) ∧ (∀ k : Fin 16, State.reset.xmm[k] = 0) := by
  decide

theorem reset_cr : ∀ k : Fin 16, State.reset.cr[k] = if k = 0 then 0x60000010 else 0 := by
  decide

theorem reset_dr : ∀ k : Fin 16,
    State.reset.dr[k] = if k = 6 then 0xFFFF0FF0 else if k = 7 then 0x400 else 0 := by
  decide

/-- The instruction pointer has 16 bits at reset, so that keeping it to 32 leaves it alone. -/
theorem reset_pc : State.reset.pc = 0xFFF0 := by
  decide

/-- Settles O22, register class by register class; the other fields stand in `State.reset` as they are stated. -/
theorem resetValues : Obligations.ResetValues := by
  unfold Obligations.ResetValues
  obtain ⟨hmmx, hxmm⟩ := reset_mmx_xmm
  exact ⟨rfl, rfl, rfl, rfl, reset_segBase, reset_implemented, rfl, rfl, rfl, reset_pc, rfl, rfl, reset_gpr, hmmx,
    hxmm, reset_cr, reset_dr⟩

end Sys2Proof.Machine
end

section
/-! Words of every row of the opcode table, decoded: what the decoder makes of the row of an opcode, the families of
opcodes under every configuration that has them, and the words of the statement as cases of them (R146 to R152). -/

namespace Sys2Proof

/-! ## From the row of an opcode to the decoder's answer -/

/-- What is read from at most fifteen bytes is what the decoder answers (R82). -/
theorem decode_of_decodeStream {c : Config} {bs : List Byte} {i : Instr} (hlen : bs.length ≤ 15)
    (h : decodeStream c bs = .ok i) : decode c bs = .ok i := by
  rw [decode, List.take_of_length_le hlen, h]

/-- A one-byte opcode with a row is no prefix and not the escape byte (R147). -/
theorem opcode_of_oneByteRow : ∀ (m64 : Bool) (b : Byte), (oneByteRow m64 b 0).isSome = true →
    Prefix.ofByte m64 b = none ∧ b ≠ 0x0F := by
  decide +kernel

/-- The second byte of a two-byte opcode with a row does not announce a third (R148). -/
theorem opcode_of_twoByteRow {mp : Option Legacy} {b : Byte} {k : RowKind} (h : twoByteRow mp b = some k) :
    b ≠ 0x38 ∧ b ≠ 0x3A := by
  refine ⟨?_, ?_⟩ <;>
  · rintro rfl
    simp [twoByteRow] at h

theorem ofByte_escape (m64 : Bool) : Prefix.ofByte m64 0x0F = none := by
  revert m64; decide

/-- The bytes of a constant, with nothing after them, are read as that constant. -/
theorem takeConst_bytes {w : Width} {k : Const} (h : k.width = w) : takeConst w k.bytes = .ok k := by
  simpa using takeConst_append k [] h

section
variable {c : Config} {ps : List Prefix} {b b2 b3 : Byte} {bs : List Byte} {i : Instr}

/-- Prefixes and a one-byte opcode other than FFH: what its row makes of the bytes that follow. -/
theorem decode_oneByte (ha : ps.all (Prefix.allowed c) = true) (hg : shapeOk.plain (PrefixState.ofList ps) = true)
    (hlen : (ps.map Prefix.byte ++ b :: bs).length ≤ 15) (hff : b ≠ 0xFF)
    (h : (oneByteRow c.mode64 b 0).map (decodeRow c ps · b bs) = some (.ok i)) :
    decode c (ps.map Prefix.byte ++ b :: bs) = .ok i := by
  obtain ⟨k, hk, hrow⟩ := Option.map_eq_some_iff.1 h
  obtain ⟨hb, h0f⟩ := opcode_of_oneByteRow c.mode64 b (by rw [hk]; rfl)
  exact decode_of_decodeStream hlen (by rw [decodeStream_row bs ha hg hff h0f hk hb, hrow])

/-- Prefixes, FFH and a ModR/M byte: what the row of its digit makes of them. -/
theorem decode_FF (ha : ps.all (Prefix.allowed c) = true) (hg : shapeOk.plain (PrefixState.ofList ps) = true)
    (hlen : (ps.map Prefix.byte ++ 0xFF :: b :: bs).length ≤ 15)
    (h : (oneByteRow c.mode64 0xFF (mid3 b)).map (decodeRow c ps · 0xFF (b :: bs)) = some (.ok i)) :
    decode c (ps.map Prefix.byte ++ 0xFF :: b :: bs) = .ok i := by
  obtain ⟨k, hk, hrow⟩ := Option.map_eq_some_iff.1 h
  exact decode_of_decodeStream hlen (by rw [decodeStream_FF b bs ha hg hk, hrow])

/-- Prefixes and a two-byte opcode: what the row with the mandatory prefix, else the one without, makes of the bytes
that follow. -/
theorem decode_twoByte (ha : ps.all (Prefix.allowed c) = true) (hg : shapeOk.plain (PrefixState.ofList ps) = true)
    (hlen : (ps.map Prefix.byte ++ 0x0F :: b2 :: bs).length ≤ 15)
    (h : ((twoByteRow (PrefixState.ofList ps).mandatory b2).or (twoByteRow none b2)).map (decodeRow c ps · b2 bs) =
      some (.ok i)) :
    decode c (ps.map Prefix.byte ++ 0x0F :: b2 :: bs) = .ok i := by
  obtain ⟨k, hk, hrow⟩ := Option.map_eq_some_iff.1 h
  obtain ⟨hgroups, hrex⟩ := (plain_iff _).1 hg
  obtain ⟨h38, h3a⟩ : b2 ≠ 0x38 ∧ b2 ≠ 0x3A := by
    rcases Option.or_eq_some_iff.1 hk with hk | ⟨-, hk⟩ <;> exact opcode_of_twoByteRow hk
  exact decode_of_decodeStream hlen (by rw [decodeStream_two bs ha hgroups hrex h38 h3a hk, hrow])

/-- Prefixes and a three-byte opcode: what its row makes of the bytes that follow, or the instruction of the escape
row (log 10). -/
theorem decode_threeByte (ha : ps.all (Prefix.allowed c) = true) (hg : shapeOk.plain (PrefixState.ofList ps) = true)
    (hlen : (ps.map Prefix.byte ++ 0x0F :: b2 :: b3 :: bs).length ≤ 15) (hb2 : b2 = 0x38 ∨ b2 = 0x3A)
    (h : (threeByteRow (PrefixState.ofList ps).mandatory b2 b3).elim
      (.ok (Instr.withPrefixes ps (.twoByteEscape b2 (some b3)))) (decodeRow c ps · b3 bs) = .ok i) :
    decode c (ps.map Prefix.byte ++ 0x0F :: b2 :: b3 :: bs) = .ok i := by
  obtain ⟨hgroups, hrex⟩ := (plain_iff _).1 hg
  have hthird : (b2 == 0x38 || b2 == 0x3A) = true := by simpa using hb2
  have hnone : threeByteRow none b2 b3 = none := by simp [threeByteRow]
  refine decode_of_decodeStream hlen ?_
  rw [decodeStream_prefixes _ ha hgroups hrex (ofByte_escape _), if_pos rfl, ← h]
  simp only [decodeEscape, takeByte, bind, Except.bind, hthird, if_true, Option.toList_some,
    lookupRow_three _ _ _ _ hb2, hnone, Option.getD_some]
  cases threeByteRow (PrefixState.ofList ps).mandatory b2 b3 <;> rfl

end

/-! ## Families of opcodes, under every configuration that has them -/

theorem decode_legacy_movsB (c : Config) (l : Legacy) :
    decode c [l.byte, 0xA4] = .ok ((Prefix.legacy l).onto .movsB) :=
  decode_oneByte (ps := [.legacy l]) rfl rfl (by simp) (by decide) rfl

/-- INC r has a row outside 64-bit mode only (R280). -/
theorem decode_incR {c : Config} (hm : c.mode64 = false) (n : BitVec 3) :
    decode c [0x40#8 + n.setWidth 8] = .ok (.incR n) := by
  have hop : ∀ n : BitVec 3, oneByteRow false (0x40#8 + n.setWidth 8) 0 = some .incR ∧
    lo3 (0x40#8 + n.setWidth 8) = n ∧ 0x40#8 + n.setWidth 8 ≠ 0xFF := by decide
  obtain ⟨hrow, hn, hff⟩ := hop n
  refine decode_oneByte (ps := []) rfl rfl (by simp) hff ?_
  rw [hm, hrow, Option.map_some, decodeRow, hn]
  rfl

/-- DEC r has a row outside 64-bit mode only (R281). -/
theorem decode_decR {c : Config} (hm : c.mode64 = false) (n : BitVec 3) :
    decode c [0x48#8 + n.setWidth 8] = .ok (.decR n) := by
  have hop : ∀ n : BitVec 3, oneByteRow false (0x48#8 + n.setWidth 8) 0 = some .decR ∧
    lo3 (0x48#8 + n.setWidth 8) = n ∧ 0x48#8 + n.setWidth 8 ≠ 0xFF := by decide
  obtain ⟨hrow, hn, hff⟩ := hop n
  refine decode_oneByte (ps := []) rfl rfl (by simp) hff ?_
  rw [hm, hrow, Option.map_some, decodeRow, hn]
  rfl

/-- MOV r, imm takes a constant of the operand size (R306). -/
theorem decode_movRImm {c : Config} (n : BitVec 3) (v : Const) (hv : v.width = operandSize c .empty) :
    decode c ((0xB8#8 + n.setWidth 8) :: v.bytes) = .ok (.movRImm n v) := by
  have hop : ∀ (m64 : Bool) (n : BitVec 3), oneByteRow m64 (0xB8#8 + n.setWidth 8) 0 = some .movRImm ∧
    lo3 (0xB8#8 + n.setWidth 8) = n ∧ 0xB8#8 + n.setWidth 8 ≠ 0xFF := by decide
  obtain ⟨hrow, hn, hff⟩ := hop c.mode64 n
  have hlen : v.bytes.length ≤ 8 := by rw [v.bytes_length]; cases v <;> simp [Const.width, Width.bytes]
  have htake : takeConst (operandSize c (PrefixState.ofList [])) v.bytes = .ok v := takeConst_bytes hv
  refine decode_oneByte (ps := []) rfl rfl (by simp; omega) hff ?_
  rw [hrow, Option.map_some, decodeRow, htake, hn]
  rfl

theorem decode_jccRel8 (c : Config) (cc : BitVec 4) (rel : Byte) :
    decode c [0x70#8 + cc.setWidth 8, rel] = .ok (.jccRel8 cc rel) := by
  have hop : ∀ (m64 : Bool) (cc : BitVec 4), oneByteRow m64 (0x70#8 + cc.setWidth 8) 0 = some .jccRel8 ∧
    lo4 (0x70#8 + cc.setWidth 8) = cc ∧ 0x70#8 + cc.setWidth 8 ≠ 0xFF := by decide
  obtain ⟨hrow, hcc, hff⟩ := hop c.mode64 cc
  have h66 : (c.mode64 && (PrefixState.ofList []).has66) = false := Bool.and_false _
  refine decode_oneByte (ps := []) rfl rfl (by simp) hff ?_
  simp only [hrow, Option.map_some, decodeRow, h66, hcc]
  rfl

/-- The displacement of the two-byte Jcc has the size that the operand size gives it (R179). -/
theorem decode_jccRel {c : Config} (cc : BitVec 4) (rel : Const) (hrel : rel.width = relSize c .empty) :
    decode c (0x0F :: (0x80#8 + cc.setWidth 8) :: rel.bytes) = .ok (.jccRel cc rel) := by
  have hop : ∀ cc : BitVec 4, twoByteRow none (0x80#8 + cc.setWidth 8) = some .jccRel ∧
    lo4 (0x80#8 + cc.setWidth 8) = cc := by decide
  obtain ⟨hrow, hcc⟩ := hop cc
  have h66 : (c.mode64 && (PrefixState.ofList []).has66) = false := Bool.and_false _
  have hlen : rel.bytes.length ≤ 8 := by rw [rel.bytes_length]; cases rel <;> simp [Const.width, Width.bytes]
  have htake : takeConst (relSize c (PrefixState.ofList [])) rel.bytes = .ok rel := takeConst_bytes hrel
  refine decode_twoByte (ps := []) rfl rfl (by simp; omega) ?_
  have hmandatory : (PrefixState.ofList []).mandatory = none := rfl
  simp only [hmandatory, hrow, Option.or_some, Option.map_some, decodeRow, h66, htake, hcc]
  rfl

/-- The string and I/O instructions, one opcode byte each (R172 to R178). -/
theorem decode_stringOrIo (c : Config) :
    ∀ x ∈ [((0xA4 : Byte), Instr.movsB), (0xA5, .movsV), (0xA6, .cmpsB), (0xA7, .cmpsV), (0xAA, .stosB), (0xAB, .stosV),
      (0xAC, .lodsB), (0xAD, .lodsV), (0xAE, .scasB), (0xAF, .scasV), (0x6C, .insB), (0x6D, .insV), (0x6E, .outsB),
      (0x6F, .outsV)],
    decode c [x.1] = .ok x.2 := by
  intro x hx
  have hop : x.1 ≠ 0xFF ∧ (oneByteRow c.mode64 x.1 0).map (decodeRow c [] · x.1 []) = some (.ok x.2) := by
    fin_cases hx <;> exact ⟨by decide, rfl⟩
  exact decode_oneByte (ps := []) rfl rfl (by simp) hop.1 hop.2

/-- The moves to and from control and debug registers, after at most a REX; ModR/M is read as its three fields, whatever
mod is (R320). -/
theorem decode_crdr {c : Config} {rx : Option Rex} (hm : rx = none ∨ c.mode64 = true) (m : Byte) :
    let word := fun op : Byte => rexBytes rx ++ [0x0F, op, m]
    let after := Instr.withPrefixes (rx.map Prefix.rex).toList
    decode c (word 0x20) = .ok (after (.movRCr (hi2 m) (mid3 m) (lo3 m))) ∧
    decode c (word 0x21) = .ok (after (.movRDr (hi2 m) (mid3 m) (lo3 m))) ∧
    decode c (word 0x22) = .ok (after (.movCrR (hi2 m) (mid3 m) (lo3 m))) ∧
    decode c (word 0x23) = .ok (after (.movDrR (hi2 m) (mid3 m) (lo3 m))) := by
  cases rx with
  | none =>
    refine ⟨?_, ?_, ?_, ?_⟩ <;> exact decode_twoByte (ps := []) rfl rfl (by simp) rfl
  | some r =>
    have ha : [Prefix.rex r].all (Prefix.allowed c) = true := by simpa [Prefix.allowed] using hm
    refine ⟨?_, ?_, ?_, ?_⟩ <;> exact decode_twoByte (ps := [.rex r]) ha rfl (by simp) rfl

/-! ## The statement -/

/-- Settles O9: the families above, and for the other rows what the row of each word makes of its bytes. -/
theorem writtenBytesDecode : Obligations.WrittenBytesDecode := by
  unfold Obligations.WrittenBytesDecode
  intro c64 c32
  obtain ⟨hmovRCr, -⟩ := decode_crdr (c := c64) (rx := some ⟨false, true, false, false⟩) (.inr rfl) 0xC8
  obtain ⟨-, hmovRDr, -⟩ := decode_crdr (c := c32) (rx := none) (.inl rfl) 0xF8
  obtain ⟨-, -, hmovCrR, -⟩ := decode_crdr (c := c32) (rx := none) (.inl rfl) 0xD8
  obtain ⟨-, -, -, hmovDrR⟩ := decode_crdr (c := c32) (rx := none) (.inl rfl) 0xC1
  refine ⟨fun x hx => ?legacy, ?incRm, ?escape, decode_incR rfl, decode_decR rfl, ?decRm, ?movAlMoffs, ?movEaxMoffs,
    ?movMoffsAl, ?movMoffsEax, fun n => decode_movRImm n (.c32 0x12345678) rfl, ?movRImm64, ?cvtdq2pd, ?phaddw,
    decode_stringOrIo c32, fun cc => ⟨decode_jccRel8 c32 cc 5, decode_jccRel cc (.c32 0x10) rfl⟩,
    hmovRCr, hmovRDr, hmovCrR, hmovDrR⟩
  case legacy =>
    obtain ⟨l, hprefix, hbyte⟩ : ∃ l, x.2 = .legacy l ∧ x.1 = l.byte := by fin_cases hx <;> exact ⟨_, rfl, rfl⟩
    rw [hprefix, hbyte]
    exact decode_legacy_movsB c32 l
  case incRm => exact decode_FF (ps := [.rex ⟨true, false, false, false⟩]) rfl rfl (by simp) rfl
  case escape => exact decode_threeByte (ps := []) rfl rfl (by simp) (.inr rfl) rfl
  case decRm => exact decode_FF (ps := [.rex ⟨false, false, false, true⟩]) rfl rfl (by simp) rfl
  case movAlMoffs | movEaxMoffs | movMoffsAl | movMoffsEax =>
    exact decode_oneByte (ps := []) rfl rfl (by simp) (by decide) rfl
  case movRImm64 =>
    exact decode_oneByte (ps := [.rex ⟨true, false, false, false⟩]) rfl rfl (by simp) (by decide) rfl
  case cvtdq2pd => exact decode_twoByte (ps := [.legacy .rep]) rfl rfl (by simp) rfl
  case phaddw =>
    exact decode_threeByte (ps := [.legacy .opSize, .rex ⟨false, true, false, true⟩]) rfl rfl (by simp) (.inl rfl) rfl

end Sys2Proof
end

section
/-! What a completed instruction leaves as it was: the invariant, the configuration and the special registers, the
program, and where the instruction pointer comes to. -/

namespace Sys2Proof.Machine

/-! ## The one change an instruction makes -/

theorem changed_special {s s' : State} (h : Changed s s') : SameSpecial s s' := by
  rcases h with ⟨n, w, v, -, rfl⟩ | ⟨n, w, v, f, -, rfl⟩ | ⟨seg, off, w, v, hs⟩ | ⟨seg, off, w, v, s'', f, hs, rfl⟩
  · exact (s.writeReg_same n w v).2.2.1
  · exact (s.writeReg_same n w v).2.2.1
  · obtain ⟨-, -, -, -, hspecial, -⟩ := State.store_spec hs
    exact hspecial
  · obtain ⟨-, -, -, -, hspecial, -⟩ := State.store_spec hs
    exact hspecial

/-- The general registers stay, or one of them is written at a width of the mode. -/
theorem changed_gpr {s s' : State} (h : Changed s s') :
    SameRegs s s' ∨ ∃ n w v, WriteWidth s.cfg w ∧ ∀ m, s'.gpr m = (s.writeReg n w v).gpr m := by
  rcases h with ⟨n, w, v, hw, rfl⟩ | ⟨n, w, v, f, hw, rfl⟩ | ⟨seg, off, w, v, hs⟩ | ⟨seg, off, w, v, s'', f, hs, rfl⟩
  · exact .inr ⟨n, w, v, hw, fun _ => rfl⟩
  · exact .inr ⟨n, w, v, hw, fun _ => rfl⟩
  · obtain ⟨-, -, hregs, -⟩ := State.store_spec hs
    exact .inl hregs
  · obtain ⟨-, -, hregs, -⟩ := State.store_spec hs
    exact .inl hregs

/-- Memory stays, or bytes are written at the locations of one access, none of them the program's. -/
theorem changed_mem {s s' : State} (h : Changed s s') :
    s'.mem = s.mem ∨ ∃ seg off w bs, MayStore s seg off w ∧
      s'.mem = Memory.writeAll s.mem (s.locs seg off w.bytes) bs := by
  rcases h with ⟨n, w, v, -, rfl⟩ | ⟨n, w, v, f, -, rfl⟩ | ⟨seg, off, w, v, hs⟩ | ⟨seg, off, w, v, s'', f, hs, rfl⟩
  · exact .inl rfl
  · exact .inl rfl
  · obtain ⟨hmay, rfl⟩ := (s.store_eq_ok_iff ..).1 hs
    exact .inr ⟨seg, off, w, _, hmay, rfl⟩
  · obtain ⟨hmay, rfl⟩ := (s.store_eq_ok_iff ..).1 hs
    exact .inr ⟨seg, off, w, _, hmay, rfl⟩

/-! ## The invariant -/

theorem State.inv_iff (s : State) :
    s.inv = true ↔ Memory.wf s.mem = true ∧ (∀ c ∈ s.mem, c.1 < s.cfg.top) ∧
      (s.cfg.mode64 = false → s.rip.toNat < 2 ^ 32) := by
  cases hm : s.cfg.mode64 <;> simp [State.inv, hm, and_assoc]

/-- A change keeps memory in its canonical form inside the address space. -/
theorem changed_mem_inv {s s' : State} (h : Changed s s') (hwf : Memory.wf s.mem = true)
    (htop : ∀ c ∈ s.mem, c.1 < s.cfg.top) : Memory.wf s'.mem = true ∧ ∀ c ∈ s'.mem, c.1 < s.cfg.top := by
  rcases changed_mem h with hmem | ⟨seg, off, w, bs, -, hmem⟩ <;> rw [hmem]
  · exact ⟨hwf, htop⟩
  · refine ⟨Memory.wf_writeAll _ _ hwf, fun c hc => ?_⟩
    rcases Memory.mem_writeAll hc with hloc | hold
    · obtain ⟨k, -, hk⟩ := (s.mem_locs ..).1 hloc
      rw [hk]
      exact s.loc_lt seg off k
    · exact htop c hold

/-- Outside 64-bit mode the instruction pointer is set to 32 bits (R32). -/
theorem State.setPc_rip_lt (s : State) (v : Word) (h : s.cfg.mode64 = false) : (s.setPc v).rip.toNat < 2 ^ 32 := by
  simp only [State.setPc_rip, h, Bool.false_eq_true, if_false, BitVec.toNat_setWidth]
  omega

/-- Settles O20: a step makes one change and sets the instruction pointer; the change keeps memory in its form, and the
instruction pointer is set to its width. -/
theorem stepKeepsTheInvariant : Obligations.StepKeepsTheInvariant := by
  unfold Obligations.StepKeepsTheInvariant
  intro s t hs hstep
  obtain ⟨hwf, htop, -⟩ := s.inv_iff.1 hs
  obtain ⟨i, -, hexec⟩ := step_eq_next hstep
  obtain ⟨-, -, -, -, s', hchanged, rfl⟩ := exec_eq_next hexec
  obtain ⟨hcfg, -⟩ := changed_special hchanged
  obtain ⟨hwf', htop'⟩ := changed_mem_inv hchanged hwf htop
  rw [State.inv_iff, State.setPc_cfg, State.setPc_mem]
  exact ⟨hwf', fun c hc => hcfg ▸ htop' c hc, State.setPc_rip_lt s' _⟩

/-- Settles O21: at reset memory lists nothing, and the instruction pointer has 16 bits. -/
theorem resetHasTheInvariant : Obligations.ResetHasTheInvariant := by
  unfold Obligations.ResetHasTheInvariant
  rw [State.inv_iff]
  exact ⟨rfl, fun c hc => absurd hc List.not_mem_nil, fun _ => by decide⟩

/-! ## What no step changes -/

/-- Outside 64-bit mode a change leaves bits 63:32 of every general register (log 8). -/
theorem changed_gpr_high {s s' : State} (h : Changed s s') (hm : s.cfg.mode64 = false) (n : BitVec 4) (k : Nat)
    (hk : 32 ≤ k) : (s'.gpr n).getLsbD k = (s.gpr n).getLsbD k := by
  rcases changed_gpr h with hsame | ⟨m, w, v, hw, hgpr⟩
  · rw [hsame]
  rw [hgpr]
  by_cases hlt : k < 64
  swap
  · rw [BitVec.getLsbD_of_ge _ k (by omega), BitVec.getLsbD_of_ge _ k (by omega)]
  by_cases hn : n = m
  · subst hn
    have hbits : ¬ k < w.bits := by
      have := hw hm
      cases w <;> simp [Width.bits] at this ⊢ <;> omega
    rw [s.writeReg_getLsbD n w v k hlt, if_neg hbits, if_neg (by simp [hm])]
  · rw [(s.writeReg_spec m w v).2 n hn]

/-- Settles O16: a step makes one change and sets the instruction pointer, and neither touches these. -/
theorem stepKeepsUntouchedState : Obligations.StepKeepsUntouchedState := by
  unfold Obligations.StepKeepsUntouchedState
  intro s t hstep
  obtain ⟨i, -, hexec⟩ := step_eq_next hstep
  obtain ⟨-, -, -, -, s', hchanged, rfl⟩ := exec_eq_next hexec
  obtain ⟨hcfg, hseg, hmmx, hxmm, hcr, hdr⟩ := changed_special hchanged
  exact ⟨hcfg, hseg, hmmx, hxmm, hcr, hdr, fun hm n k hk => changed_gpr_high hchanged hm n k hk⟩

/-- An instruction that completes keeps the configuration and changes no byte of the program (R71). -/
theorem exec_next_code {i : Instr} {s t : State} (h : exec i s = .next t) :
    t.cfg = s.cfg ∧ ∀ a, a ∈ s.cfg.code → Memory.read t.mem a = Memory.read s.mem a := by
  obtain ⟨-, -, -, -, s', hchanged, rfl⟩ := exec_eq_next h
  refine ⟨(changed_special hchanged).1, fun a ha => ?_⟩
  rw [State.setPc_mem]
  rcases changed_mem hchanged with hmem | ⟨seg, off, w, bs, hmay, hmem⟩ <;> rw [hmem]
  refine Memory.read_writeAll_other _ _ _ fun hloc => ?_
  obtain ⟨k, hk, rfl⟩ := (s.mem_locs ..).1 hloc
  exact hmay k hk ha

/-- In any number of steps the configuration stays and no byte of the program changes. -/
theorem run_code (n : Nat) {s t : State} (h : Sys2Proof.core.run n s = .next t) :
    t.cfg = s.cfg ∧ ∀ a, a ∈ s.cfg.code → Memory.read t.mem a = Memory.read s.mem a := by
  induction n generalizing s with
  | zero =>
    cases h
    exact ⟨rfl, fun _ _ => rfl⟩
  | succ n ih =>
    simp only [Host.Core.run] at h
    split at h
    · rename_i s' hstep
      obtain ⟨i, -, hexec⟩ := step_eq_next hstep
      obtain ⟨hcfg, hread⟩ := exec_next_code hexec
      obtain ⟨hcfg', hread'⟩ := ih h
      refine ⟨hcfg'.trans hcfg, fun a ha => ?_⟩
      rw [hread' a (by rw [hcfg]; exact ha), hread a ha]
    · cases h
    · cases h

/-- A fetched byte is one of the program's, with the value that memory holds. -/
theorem fetch_getElem (s : State) (k : Nat) (h : k < s.fetch.1.length) :
    Memory.read s.mem (s.loc .cs s.pc k) = some s.fetch.1[k] ∧ s.loc .cs s.pc k ∈ s.cfg.code := by
  obtain ⟨-, hbytes, -⟩ := fetchFrom_spec s 0 15
  have hbyte := hbytes k h
  rw [Nat.zero_add, codeByte_eq_some_iff] at hbyte
  exact hbyte

/-- Settles O14, by induction on the number of steps: each keeps the program, from which alone bytes are fetched. -/
theorem fetchedBytesNeverChange : Obligations.FetchedBytesNeverChange := by
  unfold Obligations.FetchedBytesNeverChange
  intro n s t h
  obtain ⟨hcfg, hread⟩ := run_code n h
  refine ⟨fun a ha => ⟨by rw [hcfg]; exact ha, hread a ha⟩, fun k hk => ?_⟩
  obtain ⟨hbyte, hcode⟩ := fetch_getElem t k hk
  rw [hcfg] at hcode
  exact ⟨hcode, by rw [← hread _ hcode]; exact hbyte⟩

/-! ## Which instructions complete, and where the pointer comes to -/

/-- An admitted opcode takes no repeat prefix, is no branch and has no mandatory prefix. -/
theorem attrs_of_admitted {body : Instr} (h : admitted body = true) :
    (attrs body).rep = false ∧ (attrs body).jcc = false ∧ (attrs body).simd = false := by
  cases body <;> first | exact ⟨rfl, rfl, rfl⟩ | cases h

/-- Settles O17: what completes has passed the prefix check, which for an admitted opcode is legality. -/
theorem onlyAdmittedInstructionsComplete : Obligations.OnlyAdmittedInstructionsComplete := by
  unfold Obligations.OnlyAdmittedInstructionsComplete
  intro i s t h
  obtain ⟨hw, hadmitted, hcheck, -, -⟩ := exec_eq_next h
  obtain ⟨hrep, hjcc, -⟩ := attrs_of_admitted hadmitted
  exact ⟨hadmitted, hw, legal_of_prefixRefusal hrep hjcc hcheck⟩

/-- Settles O18: the instruction pointer is set to the next instruction, kept to its width. -/
theorem completionAdvancesThePointer : Obligations.CompletionAdvancesThePointer := by
  unfold Obligations.CompletionAdvancesThePointer
  intro i s t h
  obtain ⟨-, -, -, htop, s', hchanged, rfl⟩ := exec_eq_next h
  exact ⟨setPc_nextPc_toNat (changed_special hchanged).1, htop⟩

end Sys2Proof.Machine
end

section
/-! Decoding inverts encoding (R80, R150): each opcode with the bytes that follow it is read as its row. -/

namespace Sys2Proof

/-! ## The opcode bytes of the encoder in the opcode table -/

theorem oneByteRow_incR : ∀ n : BitVec 3, oneByteRow false ((0b01000#5) ++ n) 0 = some .incR ∧
    lo3 ((0b01000#5) ++ n) = n ∧ (0b01000#5) ++ n ≠ 0xFF := by decide

theorem oneByteRow_decR : ∀ n : BitVec 3, oneByteRow false ((0b01001#5) ++ n) 0 = some .decR ∧
    lo3 ((0b01001#5) ++ n) = n ∧ (0b01001#5) ++ n ≠ 0xFF := by decide

theorem oneByteRow_movRImm : ∀ (m64 : Bool) (n : BitVec 3), oneByteRow m64 ((0b10111#5) ++ n) 0 = some .movRImm ∧
    lo3 ((0b10111#5) ++ n) = n ∧ (0b10111#5) ++ n ≠ 0xFF := by decide

theorem oneByteRow_jccRel8 : ∀ (m64 : Bool) (cc : BitVec 4), oneByteRow m64 ((0b0111#4) ++ cc) 0 = some .jccRel8 ∧
    lo4 ((0b0111#4) ++ cc) = cc ∧ (0b0111#4) ++ cc ≠ 0xFF#8 := by decide

theorem twoByteRow_jccRel : ∀ cc : BitVec 4, twoByteRow none ((0b1000#4) ++ cc) = some .jccRel ∧
    lo4 ((0b1000#4) ++ cc) = cc := by decide

/-- A row that takes no mandatory prefix is found whatever legacy prefix comes last (R150 step 3). -/
theorem twoByteRow_or_none {mp : Option Legacy} {b : Byte} {k : RowKind} (h : twoByteRow none b = some k) :
    (twoByteRow mp b).or (twoByteRow none b) = some k := by
  cases mp with
  | none => rw [h]; rfl
  | some l =>
    have hE6 : b ≠ 0xE6 := by rintro rfl; simp [twoByteRow] at h
    have hnone : twoByteRow (some l) b = none := by
      rw [twoByteRow, if_neg (fun hsimd => hE6 hsimd.1), if_pos (Option.some_ne_none l)]
    rw [hnone, h]; rfl

/-- The two-byte opcodes with a row, under the last legacy prefix or under none. -/
theorem escapeHasRow_two (mp : Option Legacy) (b : Byte) :
    escapeHasRow mp b none = ((twoByteRow mp b).or (twoByteRow none b)).isSome := by
  have hnone : ∀ b : Byte, (twoByteRow none b).isSome = (b.extractLsb' 4 4 == 8#4 || b.extractLsb' 2 6 == 8#6) := by
    decide +kernel
  rw [Option.isSome_or, hnone, escapeHasRow]
  by_cases hsimd : b = 0xE6 ∧ mp = some .rep
  · simp [twoByteRow, hsimd]
  · have hno : (b == 0xE6 && mp == some .rep) = false := by simpa using hsimd
    rw [hno, Bool.false_or]
    cases mp with
    | none => rw [hnone, Bool.or_self]
    | some l => rw [twoByteRow, if_neg hsimd, if_pos (Option.some_ne_none l)]; rfl

theorem escapeHasRow_three (mp : Option Legacy) (b2 b3 : Byte) :
    escapeHasRow mp b2 (some b3) = (threeByteRow mp b2 b3).isSome := by
  rw [Bool.eq_iff_iff]
  simp only [escapeHasRow, threeByteRow, Bool.and_eq_true, beq_iff_eq, and_assoc]
  split <;> simp_all

/-! ## The escape byte: the row of its opcode, or the escape row (R150 step 3, log 10) -/

theorem decodeEscape_two (c : Config) (ps : List Prefix) {b2 : Byte} (bs : List Byte)
    (hthird : (b2 == 0x38 || b2 == 0x3A) = false) :
    decodeEscape c ps (b2 :: bs) = ((twoByteRow (PrefixState.ofList ps).mandatory b2).or (twoByteRow none b2)).elim
      (.ok (Instr.withPrefixes ps (.twoByteEscape b2 none))) (decodeRow c ps · b2 bs) := by
  simp only [decodeEscape, takeByte, bind, Except.bind, hthird, Bool.false_eq_true, if_false, Option.toList_none,
    lookupRow_two, Option.getD_none]
  cases twoByteRow (PrefixState.ofList ps).mandatory b2 <;> cases twoByteRow none b2 <;> rfl

theorem decodeEscape_three (c : Config) (ps : List Prefix) {b2 : Byte} (b3 : Byte) (bs : List Byte)
    (hthird : b2 = 0x38 ∨ b2 = 0x3A) :
    decodeEscape c ps (b2 :: b3 :: bs) = (threeByteRow (PrefixState.ofList ps).mandatory b2 b3).elim
      (.ok (Instr.withPrefixes ps (.twoByteEscape b2 (some b3)))) (decodeRow c ps · b3 bs) := by
  have hb2 : (b2 == 0x38 || b2 == 0x3A) = true := by simpa using hthird
  have hnone : threeByteRow none b2 b3 = none := by simp [threeByteRow]
  simp only [decodeEscape, takeByte, bind, Except.bind, hb2, if_true, Option.toList_some,
    lookupRow_three _ _ _ _ hthird, hnone, Option.getD_some]
  cases threeByteRow (PrefixState.ofList ps).mandatory b2 b3 <;> rfl

/-- Prefixes and a two-byte opcode with no row. -/
theorem decode_twoByteEscape {c : Config} {ps : List Prefix} {b2 : Byte} (ha : ps.all (Prefix.allowed c) = true)
    (hg : shapeOk.plain (PrefixState.ofList ps) = true) (hlen : (ps.map Prefix.byte ++ [0x0F, b2]).length ≤ 15)
    (hthird : (b2 == 0x38 || b2 == 0x3A) = false)
    (h : escapeHasRow (PrefixState.ofList ps).mandatory b2 none = false) :
    decode c (ps.map Prefix.byte ++ [0x0F, b2]) = .ok (Instr.withPrefixes ps (.twoByteEscape b2 none)) := by
  obtain ⟨hgroups, hrex⟩ := (plain_iff _).1 hg
  rw [escapeHasRow_two, Option.isSome_eq_false_iff, Option.isNone_iff_eq_none] at h
  refine decode_of_decodeStream hlen ?_
  rw [decodeStream_prefixes _ ha hgroups hrex (ofByte_escape _), if_pos rfl, decodeEscape_two c ps [] hthird, h]
  rfl

/-! ## Each opcode -/

section
variable {c : Config} {ps : List Prefix}

/-- The prefixes of a SIMD row, its mandatory one and the REX after it among them, pass the decoder's checks exactly
where the row's do (R102, R135). -/
theorem simdPrefixes_readable_iff {l : Legacy} {rx : Option Rex} :
    (ps ++ .legacy l :: (rx.map Prefix.rex).toList).all (Prefix.allowed c) = true ∧
      shapeOk.plain (PrefixState.ofList (ps ++ .legacy l :: (rx.map Prefix.rex).toList)) = true ↔
    ps.all (Prefix.allowed c) = true ∧ simdPrefixesOk c (PrefixState.ofList ps) l rx = true := by
  rw [plain_iff, simd_state]
  cases rx with
  | none => simp [simdPrefixesOk, Prefix.allowed]
  | some r =>
    simp [simdPrefixesOk, Prefix.allowed]
    tauto

/-- 67H selects the address size, which a mandatory prefix and a REX leave alone. -/
theorem addressSize_simd {l : Legacy} (hl : l ≠ .addrSize) (rx : Option Rex) :
    addressSize c (PrefixState.ofList (ps ++ .legacy l :: (rx.map Prefix.rex).toList)) =
      addressSize c (PrefixState.ofList ps) := by
  have h67 : (PrefixState.ofList (ps ++ .legacy l :: (rx.map Prefix.rex).toList)).has67 =
      (PrefixState.ofList ps).has67 := by
    rw [simd_state]
    simp [PrefixState.has67, hl.symm]
  simp only [addressSize, h67]

/-- The bytes of a mandatory prefix and the REX after it are those of two prefixes. -/
theorem map_byte_simd (l : Legacy) (rx : Option Rex) :
    (ps ++ .legacy l :: (rx.map Prefix.rex).toList).map Prefix.byte =
      ps.map Prefix.byte ++ l.byte :: rexBytes rx := by
  cases rx <;> simp [rexBytes, Prefix.byte]

theorem mandatory_simd {l : Legacy} (hl : l = .rep ∨ l = .opSize) (rx : Option Rex) :
    (PrefixState.ofList (ps ++ .legacy l :: (rx.map Prefix.rex).toList)).mandatory = some l := by
  rw [simd_state, PrefixState.mandatory, List.getLast?_concat]
  rcases hl with rfl | rfl <;> rfl

theorem takeOperand_bytes {a : Width} (reg : BitVec 3) {o : RmOperand} (h : o.shapeOk a = true) :
    takeOperand a (o.bytes reg) = .ok (reg, o) := by
  simpa using takeOperand_append reg o [] h

/-- A one-byte opcode whose row reads a constant of size `w`. -/
theorem decode_constRow {b : Byte} {k : RowKind} {w : Width} {v : Const} {row : Const → Instr}
    (ha : ps.all (Prefix.allowed c) = true) (hg : shapeOk.plain (PrefixState.ofList ps) = true)
    (hlen : (ps.map Prefix.byte ++ b :: v.bytes).length ≤ 15) (hff : b ≠ 0xFF)
    (hrow : oneByteRow c.mode64 b 0 = some k)
    (hread : ∀ bs, decodeRow c ps k b bs = takeConst w bs >>= fun v => .ok (Instr.withPrefixes ps (row v)))
    (hv : v.width = w) : decode c (ps.map Prefix.byte ++ b :: v.bytes) = .ok (Instr.withPrefixes ps (row v)) := by
  refine decode_oneByte ha hg hlen hff ?_
  rw [hrow, Option.map_some, hread, takeConst_bytes hv]
  rfl

/-- A two-byte opcode whose row reads ModR/M as its three fields. -/
theorem decode_modRmRow {b2 : Byte} {k : RowKind} {mod : BitVec 2} {reg rm : BitVec 3}
    {row : BitVec 2 → BitVec 3 → BitVec 3 → Instr}
    (ha : ps.all (Prefix.allowed c) = true) (hg : shapeOk.plain (PrefixState.ofList ps) = true)
    (hlen : (ps.map Prefix.byte ++ [0x0F, b2, byte233 mod reg rm]).length ≤ 15)
    (hrow : twoByteRow none b2 = some k)
    (hread : ∀ m, decodeRow c ps k b2 [m] = .ok (Instr.withPrefixes ps (row (hi2 m) (mid3 m) (lo3 m)))) :
    decode c (ps.map Prefix.byte ++ [0x0F, b2, byte233 mod reg rm]) = .ok (Instr.withPrefixes ps (row mod reg rm)) := by
  refine decode_twoByte ha hg hlen ?_
  rw [twoByteRow_or_none hrow, Option.map_some, hread, hi2_byte233, mid3_byte233, lo3_byte233]

/-- The bytes of an opcode and its operands, after readable prefixes, are read as that opcode. -/
theorem decode_encode_body {body : Instr} (hbody : body.prefixes = []) (ha : ps.all (Prefix.allowed c) = true)
    (hs : shapeOk c (PrefixState.ofList ps) body = true) (hlen : (ps.map Prefix.byte ++ encode body).length ≤ 15) :
    decode c (ps.map Prefix.byte ++ encode body) = .ok (Instr.withPrefixes ps body) := by
  cases body with
  | lock | repne | rep | csOverride | ssOverride | dsOverride | esOverride | fsOverride | gsOverride
  | opSizeOverride | addrSizeOverride | rex => cases hbody
  | movsB | movsV | cmpsB | cmpsV | stosB | stosV | lodsB | lodsV | scasB | scasV | insB | insV | outsB | outsV =>
    exact decode_oneByte ha hs hlen (by decide) rfl
  | incR n =>
    obtain ⟨hplain, hm⟩ : shapeOk.plain (PrefixState.ofList ps) = true ∧ c.mode64 = false := by
      simpa [shapeOk] using hs
    obtain ⟨hrow, hn, hff⟩ := oneByteRow_incR n
    exact decode_oneByte ha hplain hlen hff (by rw [hm, hrow, Option.map_some, decodeRow, hn])
  | decR n =>
    obtain ⟨hplain, hm⟩ : shapeOk.plain (PrefixState.ofList ps) = true ∧ c.mode64 = false := by
      simpa [shapeOk] using hs
    obtain ⟨hrow, hn, hff⟩ := oneByteRow_decR n
    exact decode_oneByte ha hplain hlen hff (by rw [hm, hrow, Option.map_some, decodeRow, hn])
  | incRm o =>
    obtain ⟨hplain, ho⟩ := Bool.and_eq_true_iff.1 hs
    refine decode_FF ha hplain hlen ?_
    rw [mid3_byte233, show oneByteRow c.mode64 0xFF 0 = some .incRm from rfl, Option.map_some, decodeRow]
    exact congrArg (fun x => some (x >>= fun y => .ok (Instr.withPrefixes ps (.incRm y.2)))) (takeOperand_bytes 0 ho)
  | decRm o =>
    obtain ⟨hplain, ho⟩ := Bool.and_eq_true_iff.1 hs
    refine decode_FF ha hplain hlen ?_
    rw [mid3_byte233, show oneByteRow c.mode64 0xFF 1 = some .decRm from rfl, Option.map_some, decodeRow]
    exact congrArg (fun x => some (x >>= fun y => .ok (Instr.withPrefixes ps (.decRm y.2)))) (takeOperand_bytes 1 ho)
  | movAlMoffs a | movEaxMoffs a | movMoffsAl a | movMoffsEax a =>
    obtain ⟨hplain, hw⟩ := Bool.and_eq_true_iff.1 hs
    exact decode_constRow ha hplain hlen (by decide) rfl (fun _ => rfl) (beq_iff_eq.1 hw)
  | movRImm n v =>
    obtain ⟨hplain, hw⟩ := Bool.and_eq_true_iff.1 hs
    obtain ⟨hrow, hn, hff⟩ := oneByteRow_movRImm c.mode64 n
    refine decode_constRow ha hplain hlen hff hrow (fun _ => ?_) (beq_iff_eq.1 hw)
    rw [decodeRow, hn]
  | jccRel8 cc rel =>
    obtain ⟨hplain, h66⟩ := Bool.and_eq_true_iff.1 hs
    rw [Bool.not_eq_true'] at h66
    obtain ⟨hrow, hcc, hff⟩ := oneByteRow_jccRel8 c.mode64 cc
    refine decode_oneByte ha hplain hlen hff ?_
    simp only [hrow, Option.map_some, decodeRow, h66, hcc]
    rfl
  | jccRel cc rel =>
    obtain ⟨hs, hw⟩ := Bool.and_eq_true_iff.1 hs
    obtain ⟨hplain, h66⟩ := Bool.and_eq_true_iff.1 hs
    rw [Bool.not_eq_true'] at h66
    obtain ⟨hrow, hcc⟩ := twoByteRow_jccRel cc
    refine decode_twoByte ha hplain hlen ?_
    simp only [twoByteRow_or_none hrow, Option.map_some, decodeRow, h66, hcc, takeConst_bytes (beq_iff_eq.1 hw)]
    rfl
  | movRCr mod reg rm | movRDr mod reg rm | movCrR mod reg rm | movDrR mod reg rm =>
    exact decode_modRmRow ha hs hlen rfl (fun _ => rfl)
  | cvtdq2pd rx reg o =>
    obtain ⟨hsimd, ho⟩ := Bool.and_eq_true_iff.1 hs
    obtain ⟨ha', hplain⟩ := simdPrefixes_readable_iff.2 ⟨ha, hsimd⟩
    have hbytes : ps.map Prefix.byte ++ encode (.cvtdq2pd rx reg o) =
        (ps ++ .legacy .rep :: (rx.map Prefix.rex).toList).map Prefix.byte ++ 0x0F :: 0xE6 :: o.bytes reg := by
      rw [map_byte_simd]; simp [encode, Legacy.byte]
    rw [hbytes] at hlen ⊢
    refine decode_twoByte ha' hplain hlen ?_
    rw [mandatory_simd (.inl rfl), show (twoByteRow (some .rep) 0xE6).or (twoByteRow none 0xE6) = some .cvtdq2pd from rfl,
      Option.map_some, decodeRow, addressSize_simd (by decide), takeOperand_bytes reg ho, simd_split]
    rfl
  | phaddw rx reg o =>
    obtain ⟨hsimd, ho⟩ := Bool.and_eq_true_iff.1 hs
    obtain ⟨ha', hplain⟩ := simdPrefixes_readable_iff.2 ⟨ha, hsimd⟩
    have hbytes : ps.map Prefix.byte ++ encode (.phaddw rx reg o) =
        (ps ++ .legacy .opSize :: (rx.map Prefix.rex).toList).map Prefix.byte ++ 0x0F :: 0x38 :: 0x01 :: o.bytes reg := by
      rw [map_byte_simd]; simp [encode, Legacy.byte]
    rw [hbytes] at hlen ⊢
    refine decode_threeByte ha' hplain hlen (.inl rfl) ?_
    rw [mandatory_simd (.inr rfl), show threeByteRow (some .opSize) 0x38 0x01 = some .phaddw from rfl,
      Option.elim_some, decodeRow, addressSize_simd (by decide), takeOperand_bytes reg ho, simd_split]
    rfl
  | twoByteEscape b2 b3 =>
    obtain ⟨hs, hrow⟩ := Bool.and_eq_true_iff.1 hs
    obtain ⟨hplain, hthird⟩ := Bool.and_eq_true_iff.1 hs
    rw [Bool.not_eq_true'] at hrow
    rw [beq_iff_eq] at hthird
    cases b3 with
    | none => exact decode_twoByteEscape ha hplain hlen hthird.symm hrow
    | some b3 =>
      rw [escapeHasRow_three, Option.isSome_eq_false_iff, Option.isNone_iff_eq_none] at hrow
      exact decode_threeByte ha hplain hlen (by simpa using hthird.symm) (by rw [hrow]; rfl)

end

/-- Bytes that decode decode to the same when others follow. -/
theorem decode_append {c : Config} {bs : List Byte} {i : Instr} (rest : List Byte) (hlen : bs.length ≤ 15)
    (h : decode c bs = .ok i) : decode c (bs ++ rest) = .ok i := by
  rw [decode, List.take_of_length_le hlen] at h
  have hstream : decodeStream c bs = .ok i := by
    split at h
    · cases h
    · exact h
  have hmore : decodeStream c ((bs ++ rest).take 15) = .ok i := by
    rw [List.take_append, List.take_of_length_le hlen]
    rcases mono_decodeStream c bs (rest.take (15 - bs.length)) with htrunc | hsame
    · rw [hstream] at htrunc; cases htrunc
    · rw [hsame, hstream]
  rw [decode, hmore]

/-- Settles O1: an instruction is its body under its prefixes, the body's bytes are read as its row, and bytes that
follow change nothing. -/
theorem decodeInvertsEncode : Obligations.DecodeInvertsEncode := by
  unfold Obligations.DecodeInvertsEncode
  intro c i rest hw
  obtain ⟨hs, ha, hlen⟩ := wellFormed_shape hw
  have hencode : encode i = i.prefixes.map Prefix.byte ++ encode i.body := by
    rw [← encode_withPrefixes, i.withPrefixes_prefixes_body]
  rw [← encode_length] at hlen
  refine decode_append rest hlen ?_
  rw [hencode] at hlen ⊢
  rw [decode_encode_body i.prefixes_body ha hs hlen, i.withPrefixes_prefixes_body]

end Sys2Proof
end

section
/-! What decodes is an encoding (R81, R150): each reader takes just the bytes that the encoder writes for what it gives. -/

namespace Sys2Proof

/-- A result that goes on from another comes from one of its results. -/
theorem bind_eq_ok {α β : Type} {x : Except DecodeError α} {f : α → Except DecodeError β} {b : β}
    (h : (x >>= f) = .ok b) : ∃ a, x = .ok a ∧ f a = .ok b := by
  cases x with
  | error e => cases h
  | ok a => exact ⟨a, rfl, h⟩

/-- Bytes that begin with the encoding of a term whose prefixes and operands pass the checks. -/
def BeginsWith (c : Config) (bs : List Byte) (i : Instr) : Prop :=
  shapeOk c .empty i = true ∧ ∃ rest, bs = encode i ++ rest

theorem beginsWith_body {c : Config} {ps : List Prefix} {body : Instr} {bs rest : List Byte}
    (ha : ps.all (Prefix.allowed c) = true) (hs : shapeOk c (PrefixState.ofList ps) body = true)
    (hb : bs = encode body ++ rest) : BeginsWith c (ps.map Prefix.byte ++ bs) (Instr.withPrefixes ps body) := by
  refine ⟨?_, rest, by rw [encode_withPrefixes, hb, List.append_assoc]⟩
  rw [shapeOk_withPrefixes, ha, Bool.true_and]
  exact hs

/-! ## The fields of an opcode byte -/

theorem opcode_incR : ∀ b : Byte, b &&& 0xF8 = 0x40 → (0b01000#5) ++ lo3 b = b := by decide +kernel
theorem opcode_decR : ∀ b : Byte, b &&& 0xF8 = 0x48 → (0b01001#5) ++ lo3 b = b := by decide +kernel
theorem opcode_movRImm : ∀ b : Byte, b &&& 0xF8 = 0xB8 → (0b10111#5) ++ lo3 b = b := by decide +kernel
theorem opcode_jccRel8 : ∀ b : Byte, b &&& 0xF0 = 0x70 → (0b0111#4) ++ lo4 b = b := by decide +kernel
theorem opcode_jccRel : ∀ b : Byte, b &&& 0xF0 = 0x80 → (0b1000#4) ++ lo4 b = b := by decide +kernel

section
variable {c : Config} {ps : List Prefix} {i : Instr}

/-! ## One-byte opcodes -/

/-- A row that reads a constant of size `w` after an opcode byte. -/
theorem beginsWith_constRow {b : Byte} {bs : List Byte} {w : Width} {row : Const → Instr}
    (ha : ps.all (Prefix.allowed c) = true)
    (h : (takeConst w bs >>= fun v => .ok (Instr.withPrefixes ps (row v))) = .ok i)
    (hs : ∀ v : Const, v.width = w → shapeOk c (PrefixState.ofList ps) (row v) = true)
    (he : ∀ v, encode (row v) = b :: v.bytes) :
    BeginsWith c (ps.map Prefix.byte ++ b :: bs) i := by
  obtain ⟨v, hv, hi⟩ := bind_eq_ok h
  obtain ⟨hw, rest, rfl⟩ := takeConst_ok hv
  cases hi
  exact beginsWith_body ha (hs v hw) (rest := rest) (by rw [he]; rfl)

/-- An opcode byte other than FFH: its row reads what the encoder writes for it. -/
theorem beginsWith_oneByteRow {b : Byte} {bs : List Byte} {k : RowKind} (ha : ps.all (Prefix.allowed c) = true)
    (hg : shapeOk.plain (PrefixState.ofList ps) = true) (hb : rowFact c.mode64 b k = true)
    (h : decodeRow c ps k b bs = .ok i) : BeginsWith c (ps.map Prefix.byte ++ b :: bs) i := by
  cases k with
  | cvtdq2pd | phaddw | jccRel | incRm | decRm | movRCr | movRDr | movCrR | movDrR => cases hb
  | movsB | movsV | cmpsB | cmpsV | stosB | stosV | lodsB | lodsV | scasB | scasV | insB | insV | outsB | outsV =>
    cases h
    obtain rfl := of_decide_eq_true hb
    exact beginsWith_body ha hg (rest := bs) rfl
  | incR =>
    cases h
    obtain ⟨hop, hm⟩ := Bool.and_eq_true_iff.1 hb
    exact beginsWith_body ha (Bool.and_eq_true_iff.2 ⟨hg, hm⟩) (rest := bs)
      (by rw [encode, opcode_incR b (of_decide_eq_true hop)]; rfl)
  | decR =>
    cases h
    obtain ⟨hop, hm⟩ := Bool.and_eq_true_iff.1 hb
    exact beginsWith_body ha (Bool.and_eq_true_iff.2 ⟨hg, hm⟩) (rest := bs)
      (by rw [encode, opcode_decR b (of_decide_eq_true hop)]; rfl)
  | movAlMoffs | movEaxMoffs | movMoffsAl | movMoffsEax =>
    obtain rfl := of_decide_eq_true hb
    exact beginsWith_constRow ha h (fun v hv => Bool.and_eq_true_iff.2 ⟨hg, beq_iff_eq.2 hv⟩) (fun _ => rfl)
  | movRImm =>
    exact beginsWith_constRow ha h (fun v hv => Bool.and_eq_true_iff.2 ⟨hg, beq_iff_eq.2 hv⟩)
      (fun v => by rw [encode, opcode_movRImm b (of_decide_eq_true hb)])
  | jccRel8 =>
    rw [decodeRow] at h
    split at h
    · cases h
    · rename_i h66
      obtain ⟨⟨rel, rest⟩, hrel, hi⟩ := bind_eq_ok h
      cases hi
      rw [takeByte_ok hrel]
      have hs : shapeOk c (PrefixState.ofList ps) (.jccRel8 (lo4 b) rel) = true := by
        rw [shapeOk, hg, Bool.true_and, Bool.not_eq_true']
        exact eq_false_of_ne_true h66
      exact beginsWith_body ha hs (rest := rest) (by rw [encode, opcode_jccRel8 b (of_decide_eq_true hb)]; rfl)

/-- The ModR/M byte that an operand is read from holds the reg field that it gives. -/
theorem takeOperand_cons_ok {a : Width} {m : Byte} {bs : List Byte} {reg : BitVec 3} {o : RmOperand}
    (h : takeOperand a (m :: bs) = .ok (reg, o)) :
    reg = mid3 m ∧ o.shapeOk a = true ∧ ∃ rest, m :: bs = o.bytes reg ++ rest := by
  obtain ⟨ho, rest, hbytes⟩ := takeOperand_ok h
  have hm : m = byte233 o.mod reg o.rm := by
    rw [RmOperand.bytes, List.cons_append] at hbytes
    exact (List.cons.inj hbytes).1
  exact ⟨by rw [hm, mid3_byte233], ho, rest, hbytes⟩

/-- The rows of FFH are told apart by its digit (R282, R283). -/
theorem oneByteRow_FF_cases : ∀ (m64 : Bool) (reg : BitVec 3), ∀ k ∈ oneByteRow m64 0xFF reg,
    (k = .incRm ∧ reg = 0) ∨ (k = .decRm ∧ reg = 1) := by
  decide

theorem beginsWith_oneByte {b : Byte} {bs : List Byte} (ha : ps.all (Prefix.allowed c) = true)
    (hg : shapeOk.plain (PrefixState.ofList ps) = true) (h : decodeOneByte c ps b bs = .ok i) :
    BeginsWith c (ps.map Prefix.byte ++ b :: bs) i := by
  by_cases hff : b = 0xFF
  · subst hff
    cases bs with
    | nil =>
      rw [decodeOneByte, (lookupRow_FF c.mode64 0).1] at h
      cases h
    | cons m bs =>
      cases hrow : oneByteRow c.mode64 0xFF (mid3 m) with
      | none => rw [decodeOneByte_FF_noRow ps m bs hrow] at h; cases h
      | some k =>
        rw [decodeOneByte_FF ps m bs hrow] at h
        rcases oneByteRow_FF_cases c.mode64 (mid3 m) k hrow with ⟨rfl, hdigit⟩ | ⟨rfl, hdigit⟩ <;>
        · obtain ⟨⟨reg, o⟩, hop, hi⟩ := bind_eq_ok h
          obtain ⟨hreg, ho, rest, hbytes⟩ := takeOperand_cons_ok hop
          cases hi
          rw [hbytes, hreg, hdigit]
          exact beginsWith_body ha (Bool.and_eq_true_iff.2 ⟨hg, ho⟩) (rest := rest) rfl
  · cases hrow : oneByteRow c.mode64 b 0 with
    | none => rw [decodeOneByte_noRow ps bs hff hrow] at h; cases h
    | some k =>
      rw [decodeOneByte_row ps bs hff hrow] at h
      exact beginsWith_oneByteRow ha hg (rowFact_of c.mode64 b hff k hrow) h

/-! ## Opcodes of two and three bytes -/

/-- A row that reads ModR/M as its three fields. -/
theorem beginsWith_modRmRow {b2 : Byte} {bs : List Byte} {row : BitVec 2 → BitVec 3 → BitVec 3 → Instr}
    (ha : ps.all (Prefix.allowed c) = true)
    (h : (takeByte bs >>= fun x => .ok (Instr.withPrefixes ps (row (hi2 x.1) (mid3 x.1) (lo3 x.1)))) = .ok i)
    (hs : ∀ mod reg rm, shapeOk c (PrefixState.ofList ps) (row mod reg rm) = true)
    (he : ∀ mod reg rm, encode (row mod reg rm) = [0x0F, b2, byte233 mod reg rm]) :
    BeginsWith c (ps.map Prefix.byte ++ 0x0F :: b2 :: bs) i := by
  obtain ⟨⟨m, rest⟩, hm, hi⟩ := bind_eq_ok h
  cases hi
  rw [takeByte_ok hm]
  exact beginsWith_body ha (hs _ _ _) (rest := rest) (by rw [he, byte233_fields]; rfl)

/-- The row of a two-byte opcode that takes no mandatory prefix reads what the encoder writes for it. -/
theorem beginsWith_twoByteRow {b2 : Byte} {bs : List Byte} {k : RowKind} (ha : ps.all (Prefix.allowed c) = true)
    (hg : shapeOk.plain (PrefixState.ofList ps) = true) (hrow : twoByteRow none b2 = some k)
    (h : decodeRow c ps k b2 bs = .ok i) : BeginsWith c (ps.map Prefix.byte ++ 0x0F :: b2 :: bs) i := by
  rcases twoByte_cases none b2 k hrow with ⟨-, -, hmp⟩ |
    ⟨-, ⟨rfl, hb⟩ | ⟨rfl, rfl⟩ | ⟨rfl, rfl⟩ | ⟨rfl, rfl⟩ | ⟨rfl, rfl⟩⟩
  · cases hmp
  · rw [decodeRow] at h
    split at h
    · cases h
    · rename_i h66
      obtain ⟨rel, hrel, hi⟩ := bind_eq_ok h
      obtain ⟨hw, rest, rfl⟩ := takeConst_ok hrel
      cases hi
      refine beginsWith_body ha ?_ (rest := rest)
        (by rw [encode, opcode_jccRel b2 hb]; rfl)
      rw [shapeOk, hg, hw, beq_self_eq_true, Bool.and_true, Bool.true_and, Bool.not_eq_true']
      exact eq_false_of_ne_true h66
  all_goals exact beginsWith_modRmRow ha h (fun _ _ _ => hg) (fun _ _ _ => rfl)

/-- A SIMD row, after prefixes that end in its mandatory one and perhaps a REX (R105, R124). -/
theorem beginsWith_simdRow {l : Legacy} {op bs : List Byte} {row : Option Rex → BitVec 3 → RmOperand → Instr}
    (hl : l ≠ .addrSize) (ha : ps.all (Prefix.allowed c) = true)
    (hg : shapeOk.plain (PrefixState.ofList ps) = true) (hm : (PrefixState.ofList ps).mandatory = some l)
    (hs : ∀ p rx reg o, shapeOk c p (row rx reg o) = (simdPrefixesOk c p l rx && o.shapeOk (addressSize c p)))
    (he : ∀ rx reg o, encode (row rx reg o) = l.byte :: rexBytes rx ++ (op ++ o.bytes reg))
    (h : (takeOperand (addressSize c (PrefixState.ofList ps)) bs >>= fun x =>
      .ok (Instr.withPrefixes (splitMandatory ps).1 (row (splitMandatory ps).2 x.1 x.2))) = .ok i) :
    BeginsWith c (ps.map Prefix.byte ++ (op ++ bs)) i := by
  obtain ⟨-, hrex⟩ := (plain_iff _).1 hg
  obtain ⟨qs, rx, rfl⟩ := getLast_of_mandatory hm hrex
  obtain ⟨haq, hsimd⟩ := simdPrefixes_readable_iff.1 ⟨ha, hg⟩
  obtain ⟨⟨reg, o⟩, hop, hi⟩ := bind_eq_ok h
  rw [addressSize_simd hl] at hop
  obtain ⟨ho, rest, rfl⟩ := takeOperand_ok hop
  rw [simd_split] at hi
  cases hi
  rw [map_byte_simd, List.append_assoc]
  exact beginsWith_body haq (by rw [hs, hsimd, Bool.true_and]; exact ho) (rest := rest)
    (by rw [he]; simp only [List.cons_append, List.append_assoc])

theorem beginsWith_escape {bs : List Byte} (ha : ps.all (Prefix.allowed c) = true)
    (hg : shapeOk.plain (PrefixState.ofList ps) = true) (h : decodeEscape c ps bs = .ok i) :
    BeginsWith c (ps.map Prefix.byte ++ 0x0F :: bs) i := by
  cases bs with
  | nil => cases h
  | cons b2 bs =>
  by_cases hthird : b2 = 0x38 ∨ b2 = 0x3A
  · have hb2 : (b2 == 0x38 || b2 == 0x3A) = true := by simpa using hthird
    cases bs with
    | nil =>
      rw [decodeEscape] at h
      simp only [takeByte, bind, Except.bind, hb2, if_true] at h
      cases h
    | cons b3 bs =>
      rw [decodeEscape_three c ps b3 bs hthird] at h
      cases hrow : threeByteRow (PrefixState.ofList ps).mandatory b2 b3 with
      | none =>
        rw [hrow] at h
        cases h
        refine beginsWith_body ha ?_ (rest := bs) rfl
        simp only [shapeOk, hg, hb2, escapeHasRow_three, hrow]
        rfl
      | some k =>
        rw [hrow] at h
        obtain ⟨⟨rfl, rfl, hm⟩, rfl⟩ : (b2 = 0x38 ∧ b3 = 0x01 ∧
            (PrefixState.ofList ps).mandatory = some .opSize) ∧ RowKind.phaddw = k := by
          simpa [threeByteRow] using hrow
        exact beginsWith_simdRow (op := [0x0F, 0x38, 0x01]) (by decide) ha hg hm (fun _ _ _ _ => rfl)
          (fun _ _ _ => rfl) h
  · have hb2 : (b2 == 0x38 || b2 == 0x3A) = false := by simpa using hthird
    rw [decodeEscape_two c ps bs hb2] at h
    cases hrow : (twoByteRow (PrefixState.ofList ps).mandatory b2).or (twoByteRow none b2) with
    | none =>
      rw [hrow] at h
      cases h
      refine beginsWith_body ha ?_ (rest := bs) rfl
      simp only [shapeOk, hg, hb2, escapeHasRow_two, hrow]
      rfl
    | some k =>
      rw [hrow] at h
      rcases Option.or_eq_some_iff.1 hrow with hmp | ⟨-, hnone⟩
      · rcases twoByte_cases _ b2 k hmp with ⟨rfl, rfl, hm⟩ | ⟨hm, -⟩
        · exact beginsWith_simdRow (op := [0x0F, 0xE6]) (by decide) ha hg hm (fun _ _ _ _ => rfl)
            (fun _ _ _ => rfl) h
        · rw [hm] at hmp
          exact beginsWith_twoByteRow ha hg hmp h
      · exact beginsWith_twoByteRow ha hg hnone h

end

/-- What is read from a stream is at its front. -/
theorem beginsWith_decodeStream {c : Config} {bs : List Byte} {i : Instr} (h : decodeStream c bs = .ok i) :
    BeginsWith c bs i := by
  obtain ⟨⟨ps, rest⟩, hps, hread⟩ := bind_eq_ok h
  obtain ⟨rfl, ha, hrex, b, bs', rfl, -⟩ := takePrefixes_ok hps
  dsimp only at hread
  split at hread
  · cases hread
  · rename_i hgroups
    have hg : shapeOk.plain (PrefixState.ofList ps) = true :=
      (plain_iff _).2 ⟨eq_false_of_ne_true hgroups, hrex⟩
    obtain ⟨⟨b, rest⟩, hb, hread⟩ := bind_eq_ok hread
    cases hb
    dsimp only at hread
    split at hread
    · rename_i h0f
      rw [beq_iff_eq.1 h0f]
      exact beginsWith_escape ha hg hread
    · exact beginsWith_oneByte ha hg hread

/-- The decoder answers an instruction that it reads from the first fifteen bytes. -/
theorem decodeStream_of_decode {c : Config} {bs : List Byte} {i : Instr} (h : decode c bs = .ok i) :
    decodeStream c (bs.take 15) = .ok i := by
  rw [decode] at h
  split at h
  · cases h
  · exact h

/-- Settles O2: what is read from the first fifteen bytes has the right shape and is at their front, so that it has at
most fifteen bytes. -/
theorem decodedBytesAreTheEncoding : Obligations.DecodedBytesAreTheEncoding := by
  unfold Obligations.DecodedBytesAreTheEncoding
  intro c bs i h
  obtain ⟨hshape, rest, hbytes⟩ := beginsWith_decodeStream (decodeStream_of_decode h)
  have hlen : i.length ≤ 15 := by
    have := congrArg List.length hbytes
    rw [List.length_append, encode_length, List.length_take] at this
    omega
  refine ⟨by rw [wellFormed, hshape, Bool.true_and]; exact decide_eq_true hlen, rest ++ bs.drop 15, ?_⟩
  rw [← List.append_assoc, ← hbytes, List.take_append_drop]

end Sys2Proof
end

section
/-! The opcode table and the prefix bytes (R83, R123, R152), and the streams that the decoder refuses for their
prefixes: too many bytes, a group twice, a second REX (R82, R102, R135). -/

namespace Sys2Proof

/-! ## Rows of the opcode table -/

/-- Two rows that no opcode can have both: another number of bytes, a bit that both fix and fix differently, another
mandatory prefix where it is consulted, or another digit. -/
def OpRow.apart (r₁ r₂ : OpRow) : Bool :=
  r₁.nbytes != r₂.nbytes || r₁.pattern &&& r₂.mask != r₂.pattern &&& r₁.mask ||
    (r₁.nbytes != 1 && r₁.mandatory != r₂.mandatory) ||
    (r₁.digit.isSome && r₂.digit.isSome && r₁.digit != r₂.digit)

theorem OpRow.not_apart {r₁ r₂ : OpRow} {m64 : Bool} {mp : Option Legacy} {op : List Byte} {reg : BitVec 3}
    (h₁ : r₁.matchesAll m64 mp op reg = true) (h₂ : r₂.matchesAll m64 mp op reg = true) : r₁.apart r₂ = false := by
  simp only [matchesAll, matchesOpcode, Bool.and_eq_true, Bool.or_eq_true, beq_iff_eq, and_assoc] at h₁ h₂
  obtain ⟨hlen₁, hop₁, hmp₁, -, hdigit₁⟩ := h₁
  obtain ⟨hlen₂, hop₂, hmp₂, -, hdigit₂⟩ := h₂
  have hpattern : r₁.pattern &&& r₂.mask = r₂.pattern &&& r₁.mask := by
    rw [← hop₁, ← hop₂, BitVec.and_assoc, BitVec.and_assoc, BitVec.and_comm r₁.mask]
  have hmandatory : r₁.nbytes ≠ 1 → r₁.mandatory = r₂.mandatory := fun hne => by
    rw [hmp₁.resolve_left (hlen₁ ▸ hne), hmp₂.resolve_left (hlen₁ ▸ hne)]
  have hdigit : r₁.digit.isSome = true → r₂.digit.isSome = true → r₁.digit = r₂.digit := by
    intro hs₁ hs₂
    obtain ⟨d₁, hd₁⟩ := Option.isSome_iff_exists.1 hs₁
    obtain ⟨d₂, hd₂⟩ := Option.isSome_iff_exists.1 hs₂
    rw [hd₁] at hdigit₁
    rw [hd₂] at hdigit₂
    rw [hd₁, hd₂, beq_iff_eq.1 hdigit₁, beq_iff_eq.1 hdigit₂]
  simp only [apart, hlen₁, hlen₂, hpattern, bne_self_eq_false, Bool.false_or, Bool.or_eq_false_iff,
    Bool.and_eq_false_iff, bne_eq_false_iff_eq]
  refine ⟨?_, ?_⟩
  · by_cases hne : r₁.nbytes = 1
    · exact .inl (by rw [← hlen₁]; exact hne)
    · exact .inr (hmandatory hne)
  · cases hs₁ : r₁.digit.isSome <;> cases hs₂ : r₂.digit.isSome <;> simp_all

theorem opRows_apart : ∀ r₁ ∈ opRows, ∀ r₂ ∈ opRows, r₁ = r₂ ∨ r₁.apart r₂ = true := by
  decide +kernel

/-- Settles O3: any two rows of the table are apart, and rows that match one input are not. -/
theorem atMostOneRowMatches : Obligations.AtMostOneRowMatches := by
  unfold Obligations.AtMostOneRowMatches
  intro m64 mp op reg r₁ r₂ hr₁ hr₂ h₁ h₂
  refine (opRows_apart r₁ hr₁ r₂ hr₂).resolve_right ?_
  rw [OpRow.not_apart h₁ h₂]
  decide

/-! ## Prefix bytes -/

theorem Prefix.ofByte_eq_legacy_iff (m64 : Bool) (b : Byte) (l : Legacy) :
    Prefix.ofByte m64 b = some (.legacy l) ↔ Legacy.all.find? (fun l => l.byte == b) = some l := by
  unfold Prefix.ofByte
  cases Legacy.all.find? (fun l => l.byte == b) with
  | some k => simp only [Option.some.injEq, Prefix.legacy.injEq]
  | none => dsimp only; split <;> simp

theorem Prefix.ofByte_eq_rex_iff (m64 : Bool) (b : Byte) (r : Rex) :
    Prefix.ofByte m64 b = some (.rex r) ↔ m64 = true ∧ b = r.byte := by
  refine ⟨fun h => ?_, ?_⟩
  · unfold Prefix.ofByte at h
    split at h
    · cases h
    · split at h
      · rename_i hc
        obtain ⟨hm, hb⟩ := Bool.and_eq_true_iff.1 hc
        cases h
        exact ⟨hm, (Rex.byte_ofByte b (beq_iff_eq.1 hb)).symm⟩
      · cases h
  · rintro ⟨rfl, rfl⟩
    exact Prefix.ofByte_rex r

/-- The bits W, R, X and B stand below 0100B (R125). -/
theorem Rex.byte_toNat : ∀ w r x b : Bool, (Rex.byte ⟨w, r, x, b⟩).toNat =
    0x40 + 8 * w.toNat + 4 * r.toNat + 2 * x.toNat + b.toNat := by
  decide

/-- Settles O4: the table of legacy prefixes is the one of the statement, byte by byte, and a REX byte is its four bits
under 0100B. -/
theorem prefixBytesAreRecognised : Obligations.PrefixBytesAreRecognised := by
  unfold Obligations.PrefixBytesAreRecognised
  intro named m64 b
  have hnamed : ∀ b : Byte, Legacy.all.find? (fun l => l.byte == b) = named b := by decide +kernel
  refine ⟨fun l => ?_, fun w r x y => ?_⟩
  · rw [Prefix.ofByte_eq_legacy_iff, hnamed]
  · rw [Prefix.ofByte_eq_rex_iff, ← BitVec.toNat_inj, Rex.byte_toNat]

/-! ## How many prefixes there can be -/

theorem nodup_groups_iff (ls : List Legacy) : repeatsGroup ls = false ↔ (ls.map Legacy.group).Nodup := by
  induction ls with
  | nil => simp [repeatsGroup]
  | cons l ls ih => simp [repeatsGroup, ih]

/-- There are four groups (R83). -/
theorem Legacy.group_mem (l : Legacy) : l.group ∈ [1, 2, 3, 4] := by
  cases l <;> simp [Legacy.group]

theorem legacy_length_le {ls : List Legacy} (h : repeatsGroup ls = false) : ls.length ≤ 4 := by
  have hsub : ls.map Legacy.group ⊆ [1, 2, 3, 4] := by
    intro g hg
    obtain ⟨l, -, rfl⟩ := List.mem_map.1 hg
    exact l.group_mem
  simpa using (((nodup_groups_iff ls).1 h).subperm hsub).length_le

theorem one_le_rexCount {ps : List Prefix} {r : Rex} (h : Prefix.rex r ∈ ps) :
    1 ≤ (PrefixState.ofList ps).rexCount := by
  induction ps with
  | nil => cases h
  | cons p ps ih =>
    rw [PrefixState.rexCount_cons]
    rcases List.mem_cons.1 h with rfl | h
    · simp
    · exact Nat.le_add_left_of_le (ih h)

/-! ## How many bytes an instruction has (R82) -/

theorem one_le_length (i : Instr) : 1 ≤ i.length := by
  cases i with
  | twoByteEscape b2 b3 => cases b3 <;> simp [Instr.length]
  | _ => simp only [Instr.length]; omega

theorem RmOperand.length_le (o : RmOperand) : o.length ≤ 6 := by
  have hdisp : o.disp.size ≤ 4 := by cases o.disp <;> simp [Disp.size]
  have hsib : (if o.sib.isSome then 1 else 0) ≤ 1 := by split <;> decide
  rw [RmOperand.length]
  omega

theorem Const.bytes_le (v : Const) : v.width.bytes ≤ 8 := by
  cases v <;> simp [Const.width, Width.bytes]

/-- The displacement of a Jcc has at most 32 bits (R179). -/
theorem relSize_bytes_le (c : Config) (p : PrefixState) : (relSize c p).bytes ≤ 4 := by
  rw [relSize]
  split <;> decide

/-- Four groups, a REX and the longest operands leave fourteen bytes. -/
theorem length_le_of_shapeOk {c : Config} {p : PrefixState} {body : Instr} (hb : body.prefixes = [])
    (h : shapeOk c p body = true) : p.bytes + body.length ≤ 14 := by
  have hplain : shapeOk.plain p = true → p.bytes ≤ 5 := fun hp => by
    obtain ⟨hgroups, hrex⟩ := (plain_iff p).1 hp
    have := legacy_length_le hgroups
    rw [PrefixState.bytes]
    omega
  have hsimd : ∀ l rx, simdPrefixesOk c p l rx = true → p.bytes + (if rx.isSome then 1 else 0) ≤ 4 := by
    intro l rx hs
    obtain ⟨hgroups, hrex⟩ := Bool.and_eq_true_iff.1 hs
    rw [Bool.not_eq_true'] at hgroups
    have hlen := legacy_length_le hgroups
    rw [List.length_append, List.length_singleton] at hlen
    rw [PrefixState.bytes]
    cases rx with
    | none =>
      have : p.rexCount ≤ 1 := by simpa using hrex
      simp only [Option.isSome_none, Bool.false_eq_true, if_false]
      omega
    | some r =>
      have : p.rexCount = 0 := beq_iff_eq.1 (Bool.and_eq_true_iff.1 hrex).2
      simp only [Option.isSome_some, if_true]
      omega
  cases body with
  | lock | repne | rep | csOverride | ssOverride | dsOverride | esOverride | fsOverride | gsOverride
  | opSizeOverride | addrSizeOverride | rex => cases hb
  | movsB | movsV | cmpsB | cmpsV | stosB | stosV | lodsB | lodsV | scasB | scasV | insB | insV | outsB | outsV
  | movRCr | movRDr | movCrR | movDrR =>
    have := hplain h
    simp only [Instr.length]; omega
  | incR | decR | jccRel8 =>
    have := hplain (Bool.and_eq_true_iff.1 h).1
    simp only [Instr.length]; omega
  | incRm o | decRm o =>
    have := hplain (Bool.and_eq_true_iff.1 h).1
    have := o.length_le
    simp only [Instr.length]; omega
  | movAlMoffs v | movEaxMoffs v | movMoffsAl v | movMoffsEax v | movRImm _ v =>
    have := hplain (Bool.and_eq_true_iff.1 h).1
    have := v.bytes_le
    simp only [Instr.length]; omega
  | jccRel cc rel =>
    obtain ⟨hp, hw⟩ := Bool.and_eq_true_iff.1 h
    have := hplain (Bool.and_eq_true_iff.1 hp).1
    have := relSize_bytes_le c p
    simp only [Instr.length, beq_iff_eq.1 hw]; omega
  | twoByteEscape b2 b3 =>
    have := hplain (Bool.and_eq_true_iff.1 (Bool.and_eq_true_iff.1 h).1).1
    cases b3 <;> simp [Instr.length] <;> omega
  | cvtdq2pd rx reg o | phaddw rx reg o =>
    have := hsimd _ _ (Bool.and_eq_true_iff.1 h).1
    have := o.length_le
    simp only [Instr.length]; omega

/-! ## Streams refused for their prefixes -/

/-- Where all bytes are prefixes, there is no opcode to go on with. -/
theorem takePrefixes_map_byte {c : Config} {ps : List Prefix} (ha : ps.all (Prefix.allowed c) = true)
    (hr : (PrefixState.ofList ps).rexCount ≤ 1) :
    takePrefixes c.mode64 false (ps.map Prefix.byte) = .error .truncated := by
  have happend := takePrefixes_append (seen := false) (b := 0x0F) [] ha (ofByte_escape _) hr
  -- Whatever else were read from the prefixes alone would be read with the escape byte behind them.
  rcases mono_takePrefixes c.mode64 false (ps.map Prefix.byte) [0x0F] with h | ⟨e, -, h⟩ | ⟨qs, r, h, h'⟩
  · exact h
  · rw [happend] at h; cases h
  · rw [happend] at h'
    obtain ⟨-, hrest⟩ : ps = qs ∧ [0x0F#8] = r ++ [0x0F#8] := by simpa using h'
    obtain ⟨-, -, -, b, bs, rfl, -⟩ := takePrefixes_ok h
    simp at hrest

theorem decodeStream_map_byte {c : Config} {ps : List Prefix} (ha : ps.all (Prefix.allowed c) = true)
    (hr : (PrefixState.ofList ps).rexCount ≤ 1) : decodeStream c (ps.map Prefix.byte) = .error .truncated := by
  rw [decodeStream, takePrefixes_map_byte ha hr]
  rfl

/-- Two prefixes of one group before an opcode (R102). -/
theorem decodeStream_repeatsGroup {c : Config} {ps : List Prefix} {op : Byte} (ha : ps.all (Prefix.allowed c) = true)
    (hr : (PrefixState.ofList ps).rexCount ≤ 1) (hop : Prefix.ofByte c.mode64 op = none)
    (hg : repeatsGroup (PrefixState.ofList ps).legacy = true) :
    decodeStream c (ps.map Prefix.byte ++ [op]) = .error .repeatedPrefixGroup := by
  rw [decodeStream, takePrefixes_append (seen := false) [] ha hop hr]
  exact if_pos hg

/-- A REX byte after prefixes among which, or before which, there was one (R135). -/
theorem takePrefixes_rex {c : Config} {seen : Bool} {ps : List Prefix} (r : Rex) (hm : c.mode64 = true)
    (ha : ps.all (Prefix.allowed c) = true)
    (hr : (PrefixState.ofList ps).rexCount + (if seen then 1 else 0) = 1) :
    takePrefixes c.mode64 seen (ps.map Prefix.byte ++ [r.byte]) = .error .multipleRex := by
  induction ps generalizing seen with
  | nil =>
    have hseen : seen = true := by cases seen <;> simp [PrefixState.ofList, PrefixState.empty] at hr ⊢
    rw [List.map_nil, List.nil_append, takePrefixes, (Prefix.ofByte_eq_rex_iff _ _ _).2 ⟨hm, rfl⟩]
    simp only [hseen, if_true]
  | cons p ps ih =>
    obtain ⟨hp, hps⟩ := Bool.and_eq_true_iff.1 (List.all_cons ▸ ha)
    rw [PrefixState.rexCount_cons] at hr
    rw [List.map_cons, List.cons_append, takePrefixes, Prefix.ofByte_byte hp]
    cases p with
    | legacy l =>
      rw [Nat.zero_add] at hr
      simp only [ih hps hr]
      rfl
    | rex r' =>
      cases seen with
      | true => simp only [if_true]
      | false =>
        have hmore := ih (seen := true) hps (by simp at hr ⊢; omega)
        simp only [Bool.false_eq_true, if_false, hmore]
        rfl

namespace Machine

/-- Settles O5: what decodes is well formed and has a byte at least; prefixes alone are read as too few bytes, which is
answered `tooLong` when there are fifteen of them; and a term of the right shape has at most fourteen bytes. -/
theorem sixteenthByteIsRefused : Obligations.SixteenthByteIsRefused := by
  unfold Obligations.SixteenthByteIsRefused
  have htoo : ∀ (c : Config) (ps : List Prefix) (rest : List Byte), PrefixesRead c ps → ps.length = 15 →
      decode c (ps.map Prefix.byte ++ rest) = .error .tooLong := by
    intro c ps rest hps hlen
    have htake : (ps.map Prefix.byte ++ rest).take 15 = ps.map Prefix.byte := by
      rw [List.take_append_of_le_length (by simp [hlen]), List.take_of_length_le (by simp [hlen])]
    have hmany : ¬ (ps.map Prefix.byte ++ rest).length < 15 := by simp [hlen]
    rw [decode, htake, decodeStream_map_byte hps.all_allowed hps.2]
    exact congrArg Except.error (if_neg hmany)
  refine ⟨fun c bs i h => ?_, htoo, fun s ps hps hlen hcode => ?_, fun c i h => ?_⟩
  · obtain ⟨hw, -⟩ := decodedBytesAreTheEncoding c bs i h
    obtain ⟨-, -, hle⟩ := wellFormed_shape hw
    exact ⟨one_le_length i, hle⟩
  · obtain ⟨rest, hfetch⟩ := fetch_of_codeAt hcode (by simp [hlen])
    rw [step, hfetch, htoo _ _ rest hps hlen]
    rfl
  · have hbody := shapeOk_withPrefixes c i.prefixes .empty i.body
    rw [i.withPrefixes_prefixes_body, h] at hbody
    rw [i.length_eq]
    exact length_le_of_shapeOk i.prefixes_body (Bool.and_eq_true_iff.1 hbody.symm).2

/-- Settles O6: two prefixes of one group stand in the list of legacy prefixes in whatever place, and the decoder asks
for the groups as soon as it has read the prefixes. -/
theorem repeatedPrefixGroupIsRefused : Obligations.RepeatedPrefixGroupIsRefused := by
  unfold Obligations.RepeatedPrefixGroupIsRefused
  intro s ps a b c l₁ l₂ op hps hgroup hread hop hlen hcode
  have hrepeats : repeatsGroup (PrefixState.ofList ps).legacy = true := by
    by_contra hno
    have hnodup := (nodup_groups_iff _).1 (eq_false_of_ne_true hno)
    rw [hps, PrefixState.legacy_ofList_append, PrefixState.legacy_ofList_append, PrefixState.legacy_ofList_cons,
      PrefixState.legacy_ofList_cons] at hnodup
    simp [List.nodup_append, hgroup] at hnodup
  exact step_of_codeAt_error hcode (by simpa using hlen)
    (decodeStream_repeatsGroup hread.all_allowed hread.2 hop hrepeats) (by simp)

/-- Settles O7: the decoder counts the REX bytes as it reads the prefixes. -/
theorem secondRexIsRefused : Obligations.SecondRexIsRefused := by
  unfold Obligations.SecondRexIsRefused
  intro s ps r r' hm hread hr hlen hcode
  have hone : (PrefixState.ofList ps).rexCount = 1 := Nat.le_antisymm hread.2 (one_le_rexCount hr)
  have hstream : decodeStream s.cfg (ps.map Prefix.byte ++ [r'.byte]) = .error .multipleRex := by
    rw [decodeStream, takePrefixes_rex (seen := false) r' hm hread.all_allowed hone]
    rfl
  exact step_of_codeAt_error hcode (by simpa using hlen) hstream (by simp)

end Machine

end Sys2Proof
end

section
/-! What running an instruction comes to, opcode by opcode: the effect of an admitted one, and every way in which an
instruction or a step is refused or faults (R153, R330, R339). -/

namespace Sys2Proof.Machine

/-! ## INC and DEC in memory, and where a write is refused -/

/-- A write is refused exactly where it touches a byte of the program (R71). -/
theorem State.store_eq_error_iff_mayStore (s : State) (seg : Seg) (off : Word) (w : Width) (v : BitVec w.bits)
    (r : Refusal) : s.store seg off w v = .error r ↔ r = .writeToCode s.pc ∧ ¬ MayStore s seg off w := by
  rw [State.store_eq_error_iff]
  simp only [MayStore, not_forall, not_not, exists_prop]

theorem incDecPlace_mem_of_holdsAt {op : ArithOp} {w : Width} {seg : Seg} {off : Word} {s : State} {x : BitVec w.bits}
    (h : HoldsAt s seg off w x) : incDecPlace op w (.mem seg off) s =
      (s.store seg off w (op.result x)).map (·.setArithFlags (op.flags x)) := by
  simp only [incDecPlace, readPlace, writePlace, (s.load_eq_ok_iff ..).2 h]
  cases s.store seg off w (op.result x) <;> rfl

theorem incDecPlace_mem_of_undefined {op : ArithOp} {w : Width} {seg : Seg} {off : Word} {s : State}
    (h : ∃ k, k < w.bytes ∧ Memory.read s.mem (s.loc seg off k) = none) :
    incDecPlace op w (.mem seg off) s = .error (.unwrittenMemory s.pc) := by
  simp only [incDecPlace, readPlace, (s.load_eq_error_iff ..).2 ⟨rfl, h⟩]

/-- Bytes hold a value, or one of them holds none. -/
theorem holdsAt_or_undefined (s : State) (seg : Seg) (off : Word) (w : Width) :
    (∃ x, HoldsAt s seg off w x) ∨ ∃ k, k < w.bytes ∧ Memory.read s.mem (s.loc seg off k) = none := by
  cases h : s.load seg off w with
  | ok x => exact .inl ⟨x, (s.load_eq_ok_iff ..).1 h⟩
  | error r => exact .inr ((s.load_eq_error_iff ..).1 h).2

/-- INC and DEC in memory are refused where the operand holds no value, and else where it may not be written. -/
theorem incDecPlace_mem_eq_error {op : ArithOp} {w : Width} {seg : Seg} {off : Word} {s : State} {r : Refusal}
    (h : incDecPlace op w (.mem seg off) s = .error r) :
    r = .unwrittenMemory s.pc ∨
      r = .writeToCode s.pc ∧ (∃ x, HoldsAt s seg off w x) ∧ ¬ MayStore s seg off w := by
  rcases holdsAt_or_undefined s seg off w with ⟨x, hx⟩ | hundef
  · right
    rw [incDecPlace_mem_of_holdsAt hx] at h
    cases hs : s.store seg off w (op.result x) with
    | ok s' => rw [hs] at h; cases h
    | error r' =>
      rw [hs] at h
      cases h
      obtain ⟨hr, hmay⟩ := (s.store_eq_error_iff_mayStore ..).1 hs
      exact ⟨hr, ⟨x, hx⟩, hmay⟩
  · left
    rw [incDecPlace_mem_of_undefined hundef] at h
    cases h
    rfl

theorem placeOf_of_mod_ne {s : State} {p : PrefixState} {next : Word} {o : RmOperand} (h : o.mod ≠ 3) :
    placeOf s p next o = .mem (effectiveAddress s p next o).1 (effectiveAddress s p next o).2 := by
  rw [placeOf, if_pos (inMemory_of_mod h)]

theorem placeOf_of_mod_eq {s : State} {p : PrefixState} {next : Word} {o : RmOperand} (h : o.mod = 3) :
    placeOf s p next o = .reg (regNum p.rexBits.b o.rm) := by
  rw [placeOf, not_inMemory_of_mod h]
  rfl

/-! ## The effect of an admitted opcode -/

/-- What an admitted opcode does after the prefixes `p`, before the instruction pointer moves on to `next`. -/
def effect (p : PrefixState) (next : Word) (s : State) : Instr → Except Refusal State
  | .incR n => incDecPlace .inc (operandSize s.cfg p) (.reg (regNum false n)) s
  | .decR n => incDecPlace .dec (operandSize s.cfg p) (.reg (regNum false n)) s
  | .incRm o => incDecPlace .inc (operandSize s.cfg p) (placeOf s p next o) s
  | .decRm o => incDecPlace .dec (operandSize s.cfg p) (placeOf s p next o) s
  | .movAlMoffs a => loadAccumulator p .w8 a s
  | .movEaxMoffs a => loadAccumulator p (operandSize s.cfg p) a s
  | .movMoffsAl a => storeAccumulator p .w8 a s
  | .movMoffsEax a => storeAccumulator p (operandSize s.cfg p) a s
  | .movRImm n v =>
    .ok (s.writeReg (regNum p.rexBits.b n) (operandSize s.cfg p) (immediate (operandSize s.cfg p) v))
  | _ => .error (.illFormed s.pc)

theorem execAfter_of_admitted {body : Instr} (h : admitted body = true) (p : PrefixState) (s : State) :
    execAfter p body s =
      runAdmitted p body s (effect p (BitVec.ofNat 64 (pcNext p body s)) s body) := by
  cases body <;> first | rfl | cases h

/-- A well-formed admitted instruction runs its effect under the prefix check and the bound of the pointer. -/
theorem exec_of_admitted {i : Instr} {s : State} (hw : wellFormed s.cfg i = true) (h : admitted i.body = true) :
    exec i s = runAdmitted i.prefixState i.body s (effect i.prefixState (nextPc i s) s i.body) := by
  rw [exec_of_wellFormed hw, execAfter_of_admitted h, pcNext_eq]
  rfl

/-- An admitted instruction that is ready comes to its effect, with the instruction pointer moved on. -/
theorem exec_of_admitted_ready {i body : Instr} {s : State} {m : Bool} (hb : i.body = body)
    (h : admitted body = true) (hm : (attrs body).mem = m) (hr : Ready m i s) :
    exec i s = readyOutcome i s (effect i.prefixState (nextPc i s) s body) := by
  subst hb
  obtain ⟨-, hjcc, hsimd⟩ := attrs_of_admitted h
  refine exec_of_ready rfl hm hsimd hjcc hr _ ?_
  rw [execAfter_of_admitted h, pcNext_eq]
  rfl

/-- The operand that an instruction would write holds a byte of the program: of a store of the accumulator, or of an
INC or DEC in memory, whose operand then holds a value. -/
def StoresToCode (p : PrefixState) (next : Word) (s : State) (body : Instr) : Prop :=
  (∃ a, body = .movMoffsAl a ∧ ¬ MayStore s (p.segment.getD .ds) a.zext .w8) ∨
  (∃ a, body = .movMoffsEax a ∧ ¬ MayStore s (p.segment.getD .ds) a.zext (operandSize s.cfg p)) ∨
  ∃ o seg off x, (body = .incRm o ∨ body = .decRm o) ∧ o.mod ≠ 3 ∧
    (seg, off) = effectiveAddress s p next o ∧ HoldsAt s seg off (operandSize s.cfg p) x ∧
    ¬ MayStore s seg off (operandSize s.cfg p)

/-- INC and DEC r/m refuse only for their operand in memory. -/
theorem incDecPlace_placeOf_eq_error {op : ArithOp} {p : PrefixState} {next : Word} {s : State} {o : RmOperand}
    {r : Refusal} (h : incDecPlace op (operandSize s.cfg p) (placeOf s p next o) s = .error r) :
    r = .unwrittenMemory s.pc ∨
      r = .writeToCode s.pc ∧ ∃ seg off x, o.mod ≠ 3 ∧ (seg, off) = effectiveAddress s p next o ∧
        HoldsAt s seg off (operandSize s.cfg p) x ∧ ¬ MayStore s seg off (operandSize s.cfg p) := by
  by_cases hmod : o.mod = 3
  · rw [placeOf_of_mod_eq hmod, incDecPlace_reg] at h
    cases h
  · rw [placeOf_of_mod_ne hmod] at h
    rcases incDecPlace_mem_eq_error h with hr | ⟨hr, ⟨x, hx⟩, hmay⟩
    · exact .inl hr
    · exact .inr ⟨hr, _, _, x, hmod, rfl, hx, hmay⟩

theorem loadAccumulator_eq_error {p : PrefixState} {w : Width} {a : Const} {s : State} {r : Refusal}
    (h : loadAccumulator p w a s = .error r) : r = .unwrittenMemory s.pc := by
  rw [loadAccumulator] at h
  split at h
  · rename_i r' hr
    cases h
    exact ((s.load_eq_error_iff ..).1 hr).1
  · cases h

/-- An effect is refused for undefined memory, or for a byte of the program that it would write (R64, R71). -/
theorem effect_eq_error {p : PrefixState} {next : Word} {s : State} {body : Instr} {r : Refusal}
    (ha : admitted body = true) (h : effect p next s body = .error r) :
    r = .unwrittenMemory s.pc ∨ r = .writeToCode s.pc ∧ StoresToCode p next s body := by
  cases body with
  | incR n | decR n | movRImm n v => cases h
  | incRm o =>
    rcases incDecPlace_placeOf_eq_error h with hr | ⟨hr, seg, off, x, hrest⟩
    · exact .inl hr
    · exact .inr ⟨hr, .inr (.inr ⟨o, seg, off, x, .inl rfl, hrest⟩)⟩
  | decRm o =>
    rcases incDecPlace_placeOf_eq_error h with hr | ⟨hr, seg, off, x, hrest⟩
    · exact .inl hr
    · exact .inr ⟨hr, .inr (.inr ⟨o, seg, off, x, .inr rfl, hrest⟩)⟩
  | movAlMoffs a | movEaxMoffs a => exact .inl (loadAccumulator_eq_error h)
  | movMoffsAl a =>
    obtain ⟨hr, hmay⟩ := (s.store_eq_error_iff_mayStore ..).1 h
    exact .inr ⟨hr, .inl ⟨a, rfl, hmay⟩⟩
  | movMoffsEax a =>
    obtain ⟨hr, hmay⟩ := (s.store_eq_error_iff_mayStore ..).1 h
    exact .inr ⟨hr, .inr (.inl ⟨a, rfl, hmay⟩)⟩
  | _ => cases ha

/-! ## Every opcode -/

/-- A body is an escape opcode with no row, an admitted opcode, one that is decoded and then refused, or a move to or
from a control or debug register. -/
theorem execAfter_cases {body : Instr} (hb : body.prefixes = []) (p : PrefixState) (s : State) :
    (∃ b2 b3, body = .twoByteEscape b2 b3) ∨ admitted body = true ∨
    (∃ name, execAfter p body s = runDecodeOnly name p body s) ∨
    ∃ impl mod reg rm, (body = .movRCr mod reg rm ∨ body = .movRDr mod reg rm ∨ body = .movCrR mod reg rm ∨
      body = .movDrR mod reg rm) ∧ execAfter p body s = crdrMove impl p body reg s := by
  cases body with
  | lock | repne | rep | csOverride | ssOverride | dsOverride | esOverride | fsOverride | gsOverride
  | opSizeOverride | addrSizeOverride | rex => cases hb
  | twoByteEscape b2 b3 => exact .inl ⟨b2, b3, rfl⟩
  | incR | decR | incRm | decRm | movAlMoffs | movEaxMoffs | movMoffsAl | movMoffsEax | movRImm =>
    exact .inr (.inl rfl)
  | movRCr mod reg rm => exact .inr (.inr (.inr ⟨_, mod, reg, rm, .inl rfl, rfl⟩))
  | movRDr mod reg rm => exact .inr (.inr (.inr ⟨_, mod, reg, rm, .inr (.inl rfl), rfl⟩))
  | movCrR mod reg rm => exact .inr (.inr (.inr ⟨_, mod, reg, rm, .inr (.inr (.inl rfl)), rfl⟩))
  | movDrR mod reg rm => exact .inr (.inr (.inr ⟨_, mod, reg, rm, .inr (.inr (.inr rfl)), rfl⟩))
  | _ => exact .inr (.inr (.inl ⟨_, rfl⟩))

/-- Settles O19, by the kinds of opcode: of them a move to or from a control or debug register alone can fault. -/
theorem onlyControlDebugMovesFault : Obligations.OnlyControlDebugMovesFault := by
  unfold Obligations.OnlyControlDebugMovesFault
  intro i s f h
  have hw : wellFormed s.cfg i = true := by
    by_contra hw
    rw [exec_eq, guarded, if_neg hw] at h
    cases h
  rw [exec_of_wellFormed hw] at h
  rcases execAfter_cases i.prefixes_body i.prefixState s with ⟨b2, b3, hb⟩ | ha | ⟨name, hx⟩ |
    ⟨impl, mod, reg, rm, hb, hx⟩
  · rw [hb, execAfter_twoByteEscape] at h
    cases h
  · rw [execAfter_of_admitted ha] at h
    exact absurd h (runAdmitted_ne_fault _ _ _ _ _)
  · rw [hx, runDecodeOnly_eq] at h
    cases h
  · rw [hx] at h
    exact ⟨(crdrMove_eq_fault _ _ _ _ _ _ h).1, mod, reg, rm, hb⟩

/-! ## Refusals -/

/-- The refusals of the prefix check (R153). -/
theorem prefixRefusal_mem {a : RowAttrs} {p : PrefixState} {pc : Word} {r : Refusal}
    (h : prefixRefusal a p pc = some r) :
    r ∈ [.lockLegalityNotInSource pc, .reservedRepeatPrefix pc, .reservedSegmentOnBranch pc,
      .segmentOverrideWithoutMemoryOperand pc, .addrSizeWithoutMemoryOperand pc, .reserved66 pc] := by
  unfold prefixRefusal at h
  split_ifs at h <;> cases h <;> simp

/-- An admitted instruction is refused by the prefix check, else for its end past the top, else by its effect (R339). -/
theorem runAdmitted_eq_refused {p : PrefixState} {body : Instr} {s : State} {act : Except Refusal State} {r : Refusal}
    (h : runAdmitted p body s act = .refused r) :
    prefixRefusal (attrs body) p s.pc = some r ∨
      prefixRefusal (attrs body) p s.pc = none ∧
        (r = .fetchWrap s.pc ∨ pcNext p body s ≤ s.cfg.top ∧ act = .error r) := by
  unfold runAdmitted at h
  split at h
  · rename_i r' hr
    cases h
    exact .inl hr
  · rename_i hnone
    split at h
    · cases h
      exact .inr ⟨hnone, .inl rfl⟩
    · rename_i htop
      split at h
      · cases h
        exact .inr ⟨hnone, .inr ⟨Nat.le_of_not_lt htop, rfl⟩⟩
      · cases h

/-- A well-formed instruction is refused by the prefix check, by its opcode's refusal, for its end past the top, or, an
admitted one that nothing else refuses, by its effect. -/
theorem exec_eq_refused {i : Instr} {s : State} {r : Refusal} (hw : wellFormed s.cfg i = true)
    (h : exec i s = .refused r) :
    prefixRefusal (attrs i.body) i.prefixState s.pc = some r ∨ (∃ op mp, r = .notShown op mp s.pc) ∨
    (∃ name, r = .semanticsNotInSource name s.pc) ∨ r = .fetchWrap s.pc ∨
    admitted i.body = true ∧ prefixRefusal (attrs i.body) i.prefixState s.pc = none ∧
      s.pc.toNat + i.length ≤ s.cfg.top ∧ effect i.prefixState (nextPc i s) s i.body = .error r := by
  rcases execAfter_cases i.prefixes_body i.prefixState s with ⟨b2, b3, hb⟩ | ha | ⟨name, hx⟩ |
    ⟨impl, mod, reg, rm, -, hx⟩
  · rw [exec_of_wellFormed hw, hb, execAfter_twoByteEscape] at h
    cases h
    exact .inr (.inl ⟨_, _, rfl⟩)
  · rw [exec_of_admitted hw ha] at h
    rcases runAdmitted_eq_refused h with hr | ⟨hnone, hr | ⟨htop, herr⟩⟩
    · exact .inl hr
    · exact .inr (.inr (.inr (.inl hr)))
    · rw [pcNext_eq] at htop
      exact .inr (.inr (.inr (.inr ⟨ha, hnone, htop, herr⟩)))
  · rw [exec_of_wellFormed hw, hx, runDecodeOnly_eq] at h
    cases hr : prefixRefusal (attrs i.body) i.prefixState s.pc with
    | some r' => rw [hr] at h; cases h; exact .inl rfl
    | none => rw [hr] at h; cases h; exact .inr (.inr (.inl ⟨name, rfl⟩))
  · rw [exec_of_wellFormed hw, hx, crdrMove] at h
    split at h
    · rename_i r' hr
      cases h
      exact .inl hr
    · split at h
      · cases h
        exact .inr (.inr (.inl ⟨_, rfl⟩))
      · cases h

/-- Why fetching ends: no instruction byte, or fifteen of them. -/
theorem fetch_refusal (s : State) : s.fetch.2 = .tooLong s.pc ∨ s.fetch.2 = .unwrittenMemory s.pc := by
  obtain ⟨-, -, hmore⟩ := fetchFrom_spec s 0 15
  rw [State.fetch, hmore]
  split
  · exact .inl rfl
  · exact .inr rfl

/-- A step is refused by the decoder, or it is the refusal of the well-formed instruction that stands there. -/
theorem step_eq_refused {s : State} {r : Refusal} (h : step s = .refused r) :
    (∃ e, r = decodeRefusal s.pc s.fetch.2 e) ∨
      ∃ i, decode s.cfg s.fetch.1 = .ok i ∧ wellFormed s.cfg i = true ∧ exec i s = .refused r := by
  unfold step at h
  split at h
  · rename_i e he
    cases h
    exact .inl ⟨e, rfl⟩
  · rename_i i hi
    exact .inr ⟨i, hi, (decodedBytesAreTheEncoding _ _ _ hi).1, h⟩

/-- No decoding error comes to one of these: it has a refusal of its own, or it is why there were no more bytes. -/
theorem decodeRefusal_ne {s : State} {r : Refusal} (e : DecodeError)
    (h : ∃ pc, r = .illFormed pc ∨ r = .writeToCode pc) : r ≠ decodeRefusal s.pc s.fetch.2 e := by
  rcases h with ⟨pc, rfl | rfl⟩ <;>
    cases e <;> rcases fetch_refusal s with hmore | hmore <;> simp [decodeRefusal, hmore]

/-- Settles O12: what decodes is well formed, and of a well-formed instruction no refusal is `illFormed`. -/
theorem illFormedTermsAreRefused : Obligations.IllFormedTermsAreRefused := by
  unfold Obligations.IllFormedTermsAreRefused
  refine ⟨fun i s hw => by rw [exec_eq, guarded, hw]; rfl, fun s pc h => ?_⟩
  rcases step_eq_refused h with ⟨e, he⟩ | ⟨i, -, hw, hx⟩
  · exact decodeRefusal_ne e ⟨pc, .inl rfl⟩ he
  · rcases exec_eq_refused hw hx with hr | ⟨_, _, hr⟩ | ⟨_, hr⟩ | hr | ⟨ha, -, -, herr⟩
    · simpa using prefixRefusal_mem hr
    · cases hr
    · cases hr
    · cases hr
    · rcases effect_eq_error ha herr with hr | ⟨hr, -⟩ <;> cases hr

/-- The bytes that decode are the program's, at the instruction pointer. -/
theorem codeAt_of_decode {s : State} {i : Instr} (h : decode s.cfg s.fetch.1 = .ok i) : CodeAt s (encode i) := by
  obtain ⟨-, rest, hbytes⟩ := decodedBytesAreTheEncoding _ _ _ h
  intro k hk
  have hlt : k < s.fetch.1.length := by rw [hbytes, List.length_append]; omega
  obtain ⟨hread, hcode⟩ := fetch_getElem s k hlt
  have hget : s.fetch.1[k] = (encode i)[k] := by simp only [hbytes, List.getElem_append_left hk]
  exact ⟨by rw [hread, hget], hcode⟩

/-- Settles O15: a store asks for the program's bytes, a completed instruction has asked, and of all the ways in which a
step is refused only the effect of an admitted instruction answers `writeToCode`. -/
theorem onlyWritesToTheProgramAreRefused : Obligations.OnlyWritesToTheProgramAreRefused := by
  unfold Obligations.OnlyWritesToTheProgramAreRefused
  refine ⟨fun s seg off w v r => s.store_eq_error_iff_mayStore seg off w v r,
    fun i s t h a hne ha => hne ((exec_next_code h).2 a ha), fun s pc h => ?_⟩
  rcases step_eq_refused h with ⟨e, he⟩ | ⟨i, hi, hw, hx⟩
  · exact absurd he (decodeRefusal_ne e ⟨pc, .inr rfl⟩)
  · rcases exec_eq_refused hw hx with hr | ⟨_, _, hr⟩ | ⟨_, hr⟩ | hr | ⟨ha, hnone, htop, herr⟩
    · simpa using prefixRefusal_mem hr
    · cases hr
    · cases hr
    · cases hr
    · obtain ⟨hrep, hjcc, -⟩ := attrs_of_admitted ha
      rcases effect_eq_error ha herr with hr | ⟨hr, hstores⟩
      · cases hr
      · exact ⟨Refusal.writeToCode.inj hr, i, codeAt_of_decode hi, hw, ha, legal_of_prefixRefusal hrep hjcc hnone,
          htop, hstores⟩

/-! ## Steps at the program's bytes -/

/-- Settles O10: the bytes are fetched, decode to the instruction whatever follows them, and it is run. -/
theorem stepRunsDecodedInstruction : Obligations.StepRunsDecodedInstruction := by
  unfold Obligations.StepRunsDecodedInstruction
  intro s i hw hcode
  obtain ⟨-, -, hlen⟩ := wellFormed_shape hw
  obtain ⟨rest, hfetch⟩ := fetch_of_codeAt hcode (by rw [encode_length]; exact hlen)
  rw [step, hfetch, decodeInvertsEncode s.cfg i rest hw]

/-- Fewer bytes than an instruction has are too few for the decoder. -/
theorem decodeStream_take_encode {c : Config} {i : Instr} (hw : wellFormed c i = true) {k : Nat} (hk : k < i.length) :
    decodeStream c ((encode i).take k) = .error .truncated := by
  obtain ⟨-, -, hlen⟩ := wellFormed_shape hw
  have hdecode := decodeInvertsEncode c i [] hw
  rw [List.append_nil] at hdecode
  have hall := decodeStream_of_decode hdecode
  rw [List.take_of_length_le (by rw [encode_length]; exact hlen)] at hall
  rcases mono_decodeStream c ((encode i).take k) ((encode i).drop k) with h | h
  · exact h
  · -- Else the whole instruction would be read from its first `k` bytes.
    rw [List.take_append_drop, hall] at h
    obtain ⟨-, rest, hbytes⟩ := beginsWith_decodeStream h.symm
    have hlength := congrArg List.length hbytes
    rw [List.length_append, List.length_take, encode_length] at hlength
    omega

/-- Bytes of the program up to a location that has no instruction byte are all that is fetched. -/
theorem fetch_of_missing {s : State} {bs : List Byte} (hlen : bs.length < 15) (hcode : CodeAt s bs)
    (hmissing : s.codeByte (s.loc .cs s.pc bs.length) = none) : s.fetch = (bs, .unwrittenMemory s.pc) := by
  have hbytes : ∀ j (hj : j < bs.length), s.codeByte (s.loc .cs s.pc (0 + j)) = some bs[j] := by
    intro j hj
    rw [Nat.zero_add, codeByte_eq_some_iff]
    exact hcode j hj
  obtain ⟨n, hn⟩ : ∃ n, 15 - bs.length = n + 1 := ⟨14 - bs.length, by omega⟩
  rw [State.fetch, fetchFrom_of_bytes s 0 15 bs (Nat.le_of_lt hlen) hbytes, Nat.zero_add, hn, State.fetchFrom, hmissing,
    List.append_nil]

/-- Settles O11: fetching ends at the missing byte, and the decoder has too few. -/
theorem missingCodeByteIsRefused : Obligations.MissingCodeByteIsRefused := by
  unfold Obligations.MissingCodeByteIsRefused
  intro s i k hw hk hcode hmissing
  obtain ⟨-, -, hlen⟩ := wellFormed_shape hw
  have htake : ((encode i).take k).length = k := by rw [List.length_take, encode_length]; omega
  have hnone : s.codeByte (s.loc .cs s.pc ((encode i).take k).length) = none := by
    rw [htake, Option.eq_none_iff_forall_ne_some]
    intro b hb
    obtain ⟨hread, hmem⟩ := (codeByte_eq_some_iff ..).1 hb
    rcases hmissing with hnoval | hnocode
    · rw [hnoval] at hread; cases hread
    · exact hnocode hmem
  have hfetch := fetch_of_missing (by omega) hcode hnone
  have hdecode : decode s.cfg ((encode i).take k) = .error .truncated := by
    rw [decode, List.take_of_length_le (by omega), decodeStream_take_encode hw hk, if_pos (by omega)]
  rw [step, hfetch, hdecode]
  rfl

theorem tableBytes_length (nbits w : Nat) : (tableBytes nbits w).length = 15 := by
  simp only [tableBytes, List.length_take, List.length_append, List.length_replicate]
  omega

/-- A placed word stands at the instruction pointer, as bytes of the program (log 11). -/
theorem codeAt_withFetchWord (s : State) (nbits w : Nat) :
    CodeAt (s.withFetchWord nbits w) (tableBytes nbits w) := by
  intro k hk
  rw [tableBytes_length] at hk
  have hmem : (s.withFetchWord nbits w).mem = Memory.writeAll s.mem (s.locs .cs s.pc 15) (tableBytes nbits w) := rfl
  have hcode : (s.withFetchWord nbits w).cfg.code = s.locs .cs s.pc 15 ++ s.cfg.code := rfl
  rw [State.withFetchWord_loc, State.withFetchWord_pc, hmem, hcode]
  have hread := Memory.read_writeAll_at s.mem (s.locs .cs s.pc 15) (tableBytes nbits w)
    (s.locs_nodup .cs s.pc (by decide)) (by rw [State.locs_length, tableBytes_length]) k (by simpa using hk)
  rw [State.locs_getElem] at hread
  exact ⟨hread, List.mem_append_left _ ((s.mem_locs ..).2 ⟨k, hk, rfl⟩)⟩

/-- Settles O13: the placed bytes are all that the next step fetches, and where they are listed does not change what
they decode to. -/
theorem placedWordIsRun : Obligations.PlacedWordIsRun := by
  unfold Obligations.PlacedWordIsRun
  intro s nbits w i h
  obtain ⟨rest, hfetch⟩ := fetch_of_codeAt (codeAt_withFetchWord s nbits w) (by rw [tableBytes_length])
  have hdecode : decode (s.withFetchWord nbits w).cfg (tableBytes nbits w ++ rest) = .ok i :=
    decode_append rest (by rw [tableBytes_length]) h
  rw [step, hfetch, hdecode]

end Sys2Proof.Machine
end

section
/-! INC, DEC and MOV that are ready: what each of them does and leaves as it was, and where it is refused (R64, R71,
R280 to R285, R303 to R305). -/

namespace Sys2Proof

/-! ## The operand size by the mode -/

/-- Outside 64-bit mode 66H selects the size that is not the default (R136). -/
theorem operandSize_of_not_mode64 {c : Config} (h : c.mode64 = false) (p : PrefixState) :
    operandSize c p = (if p.has66 then c.defOpSize.other else c.defOpSize).width := by
  rw [operandSize, if_neg (by simp [h])]

/-- In 64-bit mode REX.W selects 64 bits, else 66H selects 16 (R137). -/
theorem operandSize_of_mode64 {c : Config} (h : c.mode64 = true) (p : PrefixState) :
    operandSize c p = if p.rexBits.w then .w64 else if p.has66 then .w16 else .w32 := by
  rw [operandSize, if_pos h]

/-- The offset of a direct-offset move has the address size (R300). -/
theorem wellFormed_moffs_width {c : Config} {i : Instr} {a : Const}
    (hb : i.body = .movEaxMoffs a ∨ i.body = .movMoffsAl a ∨ i.body = .movMoffsEax a) (hw : wellFormed c i = true) :
    a.width = addressSize c i.prefixState := by
  obtain ⟨hs, -, -⟩ := wellFormed_shape hw
  rcases hb with hb | hb | hb <;>
  · rw [hb, shapeOk, Bool.and_eq_true, beq_iff_eq] at hs
    exact hs.2

/-- INC and DEC of a register have no row in 64-bit mode (R280, R281). -/
theorem wellFormed_incDecR_mode {c : Config} {i : Instr} {n : BitVec 3} (hb : i.body = .incR n ∨ i.body = .decR n)
    (hw : wellFormed c i = true) : c.mode64 = false := by
  obtain ⟨hs, -, -⟩ := wellFormed_shape hw
  rcases hb with hb | hb <;>
  · rw [hb, shapeOk, Bool.and_eq_true, Bool.not_eq_true'] at hs
    exact hs.2

theorem incR_opcode (n : BitVec 3) : (0b01000#5) ++ n = 0x40#8 + n.setWidth 8 := by
  revert n; decide

theorem decR_opcode (n : BitVec 3) : (0b01001#5) ++ n = 0x48#8 + n.setWidth 8 := by
  revert n; decide

namespace Machine

/-- The operand size of an instruction outside 64-bit mode, by whether it carries 66H. -/
theorem operandSize_of_carries {c : Config} (h : c.mode64 = false) (i : Instr) :
    operandSize c i.prefixState = (if Carries i .opSize then c.defOpSize.other else c.defOpSize).width := by
  rw [operandSize_of_not_mode64 h, has66_eq]
  simp only [decide_eq_true_eq]

/-! ## INC and DEC -/

theorem bumped_eq_result (op : ArithOp) {w : Nat} (x : BitVec w) : op.result x = bumped op x := by
  cases op <;> rfl

theorem bumpFlags_setArithFlags (op : ArithOp) {w : Nat} (x : BitVec w) (s : State) :
    BumpFlags op x (s.setArithFlags (op.flags x)) := by
  cases op with
  | inc => exact incFlags_setArithFlags x s
  | dec => exact decFlags_setArithFlags x s

/-- The flags are not in the instruction pointer. -/
theorem bumpFlags_setPc {op : ArithOp} {w : Nat} {x : BitVec w} {s : State} (v : Word) (h : BumpFlags op x s) :
    BumpFlags op x (s.setPc v) := by
  cases op <;> exact h

/-- A register changed, the flags set and the instruction pointer moved on are all that `BumpReg` says. -/
theorem bumpReg_setPc (op : ArithOp) (n : BitVec 4) (w : Width) (i : Instr) (s : State) :
    BumpReg op n w i s (((s.writeReg n w (op.result (s.readReg n w))).setArithFlags
      (op.flags (s.readReg n w))).setPc (nextPc i s)) := by
  obtain ⟨hwrote, hregs⟩ := s.writeReg_spec n w (op.result (s.readReg n w))
  obtain ⟨-, hmem, hspecial, -⟩ := s.writeReg_same n w (op.result (s.readReg n w))
  obtain ⟨hflags, -⟩ := (s.writeReg n w (op.result (s.readReg n w))).setArithFlags_spec (op.flags (s.readReg n w))
  rw [bumped_eq_result] at *
  exact ⟨hwrote, hregs, bumpFlags_setPc _ (bumpFlags_setArithFlags op _ _), hflags, hmem, hspecial,
    advancedBy_setPc hspecial.1⟩

/-- INC or DEC of a register that is ready completes. -/
theorem exec_bumpReg {op : ArithOp} {n : BitVec 4} {w : Width} {i body : Instr} {s : State} (hb : i.body = body)
    (ha : admitted body = true) (hm : (attrs body).mem = false) (hr : Ready false i s)
    (he : effect i.prefixState (nextPc i s) s body = incDecPlace op w (.reg n) s) :
    ∃ t, exec i s = .next t ∧ BumpReg op n w i s t := by
  refine ⟨_, ?_, bumpReg_setPc op n w i s⟩
  rw [exec_of_admitted_ready hb ha hm hr, he, incDecPlace_reg, readyOutcome]

/-- Settles O23: the opcode has a row outside 64-bit mode only, where 66H alone selects the size; then INC of a
register. -/
theorem incRegister : Obligations.IncRegister := by
  unfold Obligations.IncRegister
  intro i n s hb hr
  have hm := wellFormed_incDecR_mode (.inl hb) hr.1
  obtain ⟨t, hexec, ht⟩ := exec_bumpReg hb rfl rfl hr rfl
  rw [operandSize_of_carries hm, regNum_false] at ht
  exact ⟨hm, by rw [encode, incR_opcode], _, t, rfl, hexec, ht⟩

/-- Settles O24: as for INC. -/
theorem decRegister : Obligations.DecRegister := by
  unfold Obligations.DecRegister
  intro i n s hb hr
  have hm := wellFormed_incDecR_mode (.inr hb) hr.1
  obtain ⟨t, hexec, ht⟩ := exec_bumpReg hb rfl rfl hr rfl
  rw [operandSize_of_carries hm, regNum_false] at ht
  exact ⟨hm, by rw [encode, decR_opcode], _, t, rfl, hexec, ht⟩

/-- Settles O25: with mod = 11B the operand is the register that REX.B extends. -/
theorem incRmOnRegister : Obligations.IncRmOnRegister := by
  unfold Obligations.IncRmOnRegister
  intro i o s hb hmod hr
  exact exec_bumpReg hb rfl (not_inMemory_of_mod hmod) hr (by rw [effect, placeOf_of_mod_eq hmod])

/-- Settles O26: as for INC. -/
theorem decRmOnRegister : Obligations.DecRmOnRegister := by
  unfold Obligations.DecRmOnRegister
  intro i o s hb hmod hr
  exact exec_bumpReg hb rfl (not_inMemory_of_mod hmod) hr (by rw [effect, placeOf_of_mod_eq hmod])

/-- Bytes changed, the flags set and the instruction pointer moved on are all that `BumpMem` says. -/
theorem bumpMem_setPc {op : ArithOp} {seg : Seg} {off : Word} {w : Width} {x : BitVec w.bits} (i : Instr)
    {s s' : State} (h : s.store seg off w (op.result x) = .ok s') :
    BumpMem op seg off w x i s ((s'.setArithFlags (op.flags x)).setPc (nextPc i s)) := by
  obtain ⟨hholds, hmem, hregs, hsame, hspecial, -⟩ := State.store_spec h
  obtain ⟨hflags, -⟩ := s'.setArithFlags_spec (op.flags x)
  have hflags' : SameFlagsBut5 s (s'.setArithFlags (op.flags x)) := by
    intro k h2 h4 h6 h7 h11
    rw [hflags k h2 h4 h6 h7 h11, hsame]
  rw [bumped_eq_result] at hholds
  exact ⟨hholds, hmem, bumpFlags_setPc _ (bumpFlags_setArithFlags op x s'), hflags', hregs, hspecial,
    advancedBy_setPc hspecial.1⟩

/-- INC or DEC in memory that is ready and whose operand holds a value completes, or is refused for a byte of the
program. -/
theorem exec_bumpMem {op : ArithOp} {seg : Seg} {off : Word} {w : Width} {x : BitVec w.bits} {i body : Instr}
    {s : State} (hb : i.body = body) (ha : admitted body = true) (hm : (attrs body).mem = true) (hr : Ready true i s)
    (he : effect i.prefixState (nextPc i s) s body = incDecPlace op w (.mem seg off) s)
    (hx : HoldsAt s seg off w x) :
    (MayStore s seg off w → ∃ t, exec i s = .next t ∧ BumpMem op seg off w x i s t) ∧
    (¬ MayStore s seg off w → exec i s = .refused (.writeToCode s.pc)) := by
  rw [exec_of_admitted_ready hb ha hm hr, he, incDecPlace_mem_of_holdsAt hx]
  refine ⟨fun hmay => ?_, fun hmay => ?_⟩
  · obtain ⟨s', hs⟩ := State.store_ok (op.result x) hmay
    rw [hs]
    exact ⟨_, rfl, bumpMem_setPc i hs⟩
  · rw [(s.store_eq_error_iff_mayStore ..).2 ⟨rfl, hmay⟩]
    rfl

/-- Settles O27: with mod other than 11B the operand is memory at the effective address. -/
theorem incRmInMemory : Obligations.IncRmInMemory := by
  unfold Obligations.IncRmInMemory
  intro i o s x seg off hb hmod hr hea hx
  exact exec_bumpMem hb rfl (inMemory_of_mod hmod) hr (by rw [effect, placeOf_of_mod_ne hmod, ← hea]) hx

/-- Settles O28: as for INC. -/
theorem decRmInMemory : Obligations.DecRmInMemory := by
  unfold Obligations.DecRmInMemory
  intro i o s x seg off hb hmod hr hea hx
  exact exec_bumpMem hb rfl (inMemory_of_mod hmod) hr (by rw [effect, placeOf_of_mod_ne hmod, ← hea]) hx

/-! ## MOV with a direct offset -/

/-- Settles O30: the offset has the address size, the load gives the value held, and the accumulator takes it. -/
theorem movEaxFromMoffset : Obligations.MovEaxFromMoffset := by
  unfold Obligations.MovEaxFromMoffset
  intro i a s v hb hr hv
  refine ⟨?_, _, ?_, loadReg_writeReg_setPc i s 0 (operandSize s.cfg i.prefixState) v⟩
  · rw [encode, const_bytes_eq, wellFormed_moffs_width (.inl hb) hr.1]
  · rw [exec_of_admitted_ready hb rfl rfl hr, effect, loadAccumulator_of_holdsAt hv, readyOutcome]

/-- A store of the accumulator that is ready completes, or is refused for a byte of the program. -/
theorem exec_storeAccumulator {w : Width} {a : Const} {i body : Instr} {s : State} (hb : i.body = body)
    (ha : admitted body = true) (hm : (attrs body).mem = true) (hr : Ready true i s)
    (he : effect i.prefixState (nextPc i s) s body = storeAccumulator i.prefixState w a s) :
    (MayStore s (i.prefixState.segment.getD .ds) a.zext w → ∃ t, exec i s = .next t ∧
      StoreMem (i.prefixState.segment.getD .ds) a.zext w ((s.gpr 0).setWidth w.bits) i s t) ∧
    (¬ MayStore s (i.prefixState.segment.getD .ds) a.zext w → exec i s = .refused (.writeToCode s.pc)) := by
  rw [exec_of_admitted_ready hb ha hm hr, he, storeAccumulator]
  refine ⟨fun hmay => ?_, fun hmay => ?_⟩
  · obtain ⟨s', hs⟩ := State.store_ok (s.readReg 0 w) hmay
    obtain ⟨hholds, hmem, hregs, hflags, hspecial, -⟩ := State.store_spec hs
    rw [segmentFor, hs]
    exact ⟨_, rfl, hholds, hmem, hregs, hflags, hspecial, advancedBy_setPc hspecial.1⟩
  · rw [segmentFor, (s.store_eq_error_iff_mayStore ..).2 ⟨rfl, hmay⟩]
    rfl

/-- Settles O31: the offset has the address size, and a store of AL at it. -/
theorem movMoffsetFromAl : Obligations.MovMoffsetFromAl := by
  unfold Obligations.MovMoffsetFromAl
  intro i a s hb hr
  refine ⟨?_, exec_storeAccumulator hb rfl rfl hr rfl⟩
  rw [encode, const_bytes_eq, wellFormed_moffs_width (.inr (.inl hb)) hr.1]

/-- Settles O32: as for AL, at the operand size. -/
theorem movMoffsetFromEax : Obligations.MovMoffsetFromEax := by
  unfold Obligations.MovMoffsetFromEax
  intro i a s hb hr w
  refine ⟨?_, exec_storeAccumulator hb rfl rfl hr rfl⟩
  rw [encode, const_bytes_eq, wellFormed_moffs_width (.inr (.inr hb)) hr.1]

/-! ## Refusals of an admitted instruction -/

theorem loadAccumulator_of_undefined {p : PrefixState} {w : Width} {a : Const} {s : State}
    (h : ∃ k, k < w.bytes ∧ Memory.read s.mem (s.loc (p.segment.getD .ds) a.zext k) = none) :
    loadAccumulator p w a s = .error (.unwrittenMemory s.pc) := by
  rw [loadAccumulator, segmentFor, (s.load_eq_error_iff ..).2 ⟨rfl, h⟩]

/-- Settles O34: the effect of each instruction that reads memory is refused where a byte holds no value. -/
theorem undefinedMemoryIsRefused : Obligations.UndefinedMemoryIsRefused := by
  unfold Obligations.UndefinedMemoryIsRefused
  rintro i s seg off w hr hundef (⟨a, hb, hloc, rfl⟩ | ⟨a, hb, hloc, rfl⟩ | ⟨o, hb, hmod, hea, rfl⟩)
  · cases hloc
    rw [exec_of_admitted_ready hb rfl rfl hr, effect, loadAccumulator_of_undefined hundef, readyOutcome]
  · cases hloc
    rw [exec_of_admitted_ready hb rfl rfl hr, effect, loadAccumulator_of_undefined hundef, readyOutcome]
  · rcases hb with hb | hb <;>
      rw [exec_of_admitted_ready hb rfl (inMemory_of_mod hmod) hr, effect, placeOf_of_mod_ne hmod, ← hea,
        incDecPlace_mem_of_undefined hundef, readyOutcome]

/-- Settles O35: legal prefixes pass the check, and the end is looked at before the effect. -/
theorem fetchWrapIsRefused : Obligations.FetchWrapIsRefused := by
  unfold Obligations.FetchWrapIsRefused
  intro i s hw ha hl htop
  obtain ⟨-, hjcc, hsimd⟩ := attrs_of_admitted ha
  rw [exec_of_admitted hw ha]
  unfold runAdmitted
  rw [prefixRefusal_of_legal s.pc hsimd hjcc hl]
  exact if_pos (by rw [pcNext_eq]; exact htop)

/-! ## Prefixes in effect on an admitted instruction -/

/-- MOV AL, moffs8 behind a segment override loads from that segment. -/
theorem exec_segmentOverride {g : Seg} {j : Instr} {a : Const} {s : State} {v : BitVec 8}
    (hb : j.body = .movAlMoffs a) (hr : Ready true ((Prefix.legacy (.seg g)).onto j) s)
    (hv : HoldsAt s g a.zext .w8 v) :
    ∃ t, exec ((Prefix.legacy (.seg g)).onto j) s = .next t ∧
      LoadReg 0 .w8 v ((Prefix.legacy (.seg g)).onto j) s t := by
  have hseg := (segment_eq_some_iff hr.1).2 (carries_onto (.seg g) j)
  have hbody : ((Prefix.legacy (.seg g)).onto j).body = .movAlMoffs a := by rw [Prefix.body_onto, hb]
  obtain ⟨-, h⟩ := movAlFromMoffset _ a s v hbody hr (by rw [hseg]; exact hv)
  exact h

/-- The segment of a ModR/M operand is the override where there is one (R54). -/
theorem effectiveAddress_segment {s : State} {p : PrefixState} {g : Seg} (h : p.segment = some g) (next : Word)
    (o : RmOperand) : (effectiveAddress s p next o).1 = g := by
  simp only [effectiveAddress, segmentFor, h, Option.getD_some]

/-- Settles O36: the override in front is the segment in effect, which both kinds of memory operand take. -/
theorem segmentOverridesReplaceTheDefault : Obligations.SegmentOverridesReplaceTheDefault := by
  unfold Obligations.SegmentOverridesReplaceTheDefault
  intro j a s v hb
  refine ⟨exec_segmentOverride (g := .cs) hb, exec_segmentOverride (g := .ss) hb, exec_segmentOverride (g := .ds) hb,
    exec_segmentOverride (g := .es) hb, exec_segmentOverride (g := .fs) hb, exec_segmentOverride (g := .gs) hb,
    fun i g next o hg hw => ?_⟩
  exact effectiveAddress_segment ((segment_eq_some_iff hw).2 hg) next o

/-- Settles O37: 66H in front is carried, so that the operand size is the other one, or 16 without REX.W. -/
theorem operandSizeOverride : Obligations.OperandSizeOverride := by
  unfold Obligations.OperandSizeOverride
  intro j n v s hb hr w
  have h66 : (Instr.opSizeOverride j).prefixState.has66 = true := by
    rw [has66_eq]
    exact decide_eq_true (carries_onto .opSize j)
  have hsize : operandSize s.cfg (Instr.opSizeOverride j).prefixState = w := by
    cases hm : s.cfg.mode64 with
    | true => rw [operandSize_of_mode64 hm, h66]; simp only [w, hm, if_true]
    | false => rw [operandSize_of_not_mode64 hm, h66]; simp only [w, hm, Bool.false_eq_true, if_false, if_true]
  obtain ⟨hwidth, -, hexec⟩ := movRegisterImmediate (.opSizeOverride j) n v s hb hr
  rw [hsize] at hwidth hexec
  exact ⟨hwidth, hexec⟩

/-- Settles O38: 67H in front is carried, and the offset has the address size. -/
theorem addressSizeOverride : Obligations.AddressSizeOverride := by
  unfold Obligations.AddressSizeOverride
  intro j a s v hb hr hv
  have h67 : (Instr.addrSizeOverride j).prefixState.has67 = true := by
    rw [has67_eq]
    exact decide_eq_true (carries_onto .addrSize j)
  obtain ⟨-, hexec⟩ := movAlFromMoffset (.addrSizeOverride j) a s v hb hr hv
  refine ⟨?_, hexec⟩
  rw [wellFormed_movAlMoffs_width (i := .addrSizeOverride j) hb hr.1]
  cases hm : s.cfg.mode64 with
  | true => rw [addressSize_of_mode64 hm, h67]; rfl
  | false => rw [addressSize_of_not_mode64 hm, h67]; rfl

/-- A well-formed instruction behind a REX stands in 64-bit mode (R123). -/
theorem mode64_of_rex {c : Config} {r : Rex} {j : Instr} (h : wellFormed c (.rex r j) = true) : c.mode64 = true := by
  obtain ⟨-, ha, -⟩ := wellFormed_shape h
  exact (Bool.and_eq_true_iff.1 ha).1

/-- Settles O39: of a lone REX all bits count, and there is no 66H. -/
theorem rexBeforeTheOpcode : Obligations.RexBeforeTheOpcode := by
  unfold Obligations.RexBeforeTheOpcode
  intro r n v s hr w
  have hm := mode64_of_rex hr.1
  have hsize : operandSize s.cfg (Instr.rex r (.movRImm n v)).prefixState = w := operandSize_of_mode64 hm _
  obtain ⟨hwidth, -, hexec⟩ := movRegisterImmediate (.rex r (.movRImm n v)) n v s rfl hr
  rw [hsize] at hwidth hexec
  exact ⟨hm, hwidth, hexec⟩

end Machine

end Sys2Proof
end

section
/-! Prefixes that change nothing: a REX that a legacy prefix follows, and REX bits with no field to extend (R122, R124,
R131, R132). -/

namespace Sys2Proof

/-! ## One prefix in front -/

/-- A REX in front of a legacy prefix is counted, and nothing else (R124). -/
theorem PrefixState.ofList_rex_legacy (r : Rex) (l : Legacy) (ps : List Prefix) :
    PrefixState.ofList (.rex r :: .legacy l :: ps) =
      ⟨(PrefixState.ofList (.legacy l :: ps)).legacy, (PrefixState.ofList (.legacy l :: ps)).rex,
        (PrefixState.ofList (.legacy l :: ps)).rexCount + 1⟩ := by
  have h : ∀ (ps : List Prefix) (q : PrefixState), ps.foldl PrefixState.push ⟨q.legacy, q.rex, q.rexCount + 1⟩ =
      ⟨(ps.foldl PrefixState.push q).legacy, (ps.foldl PrefixState.push q).rex,
        (ps.foldl PrefixState.push q).rexCount + 1⟩ := by
    intro ps
    induction ps with
    | nil => intro q; rfl
    | cons p ps ih =>
      intro q
      cases p with
      | legacy k => exact ih (q.push (.legacy k))
      | rex k => exact ih (q.push (.rex k))
  exact h ps ⟨[l], none, 0⟩

/-- A legacy prefix in front is the first of the legacy prefixes, and nothing else. -/
theorem PrefixState.ofList_legacy_cons (l : Legacy) (ps : List Prefix) :
    PrefixState.ofList (.legacy l :: ps) =
      ⟨l :: (PrefixState.ofList ps).legacy, (PrefixState.ofList ps).rex, (PrefixState.ofList ps).rexCount⟩ := by
  have h : ∀ (ps : List Prefix) (q : PrefixState), ps.foldl PrefixState.push ⟨l :: q.legacy, q.rex, q.rexCount⟩ =
      ⟨l :: (ps.foldl PrefixState.push q).legacy, (ps.foldl PrefixState.push q).rex,
        (ps.foldl PrefixState.push q).rexCount⟩ := by
    intro ps
    induction ps with
    | nil => intro q; rfl
    | cons p ps ih =>
      intro q
      cases p with
      | legacy k => exact ih (q.push (.legacy k))
      | rex k => exact ih (q.push (.rex k))
  exact h ps .empty

theorem wellFormed_iff (c : Config) (i : Instr) : wellFormed c i = true ↔
    i.prefixes.all (Prefix.allowed c) = true ∧ shapeOk c i.prefixState i.body = true ∧ i.length ≤ 15 := by
  have hshape := shapeOk_withPrefixes c i.prefixes .empty i.body
  rw [i.withPrefixes_prefixes_body] at hshape
  rw [wellFormed, hshape, Bool.and_eq_true, Bool.and_eq_true, decide_eq_true_iff, and_assoc]
  rfl

/-- The checks on a body count the REX bytes, and fewer of them pass as well. -/
theorem shapeOk_of_rexCount_le {c : Config} {p : PrefixState} {body : Instr} {n : Nat} (hb : body.prefixes = [])
    (hn : n ≤ p.rexCount) (h : shapeOk c p body = true) : shapeOk c ⟨p.legacy, p.rex, n⟩ body = true := by
  have hplain : shapeOk.plain p = true → shapeOk.plain ⟨p.legacy, p.rex, n⟩ = true := fun hp => by
    rw [plain_iff] at hp ⊢
    exact ⟨hp.1, hn.trans hp.2⟩
  have hsimd : ∀ l rx, simdPrefixesOk c p l rx = true → simdPrefixesOk c ⟨p.legacy, p.rex, n⟩ l rx = true := by
    intro l rx hs
    cases rx <;> simp [simdPrefixesOk] at hs ⊢
    · exact ⟨hs.1, hn.trans hs.2⟩
    · exact ⟨hs.1, hs.2.1, by omega⟩
  cases body with
  | lock | repne | rep | csOverride | ssOverride | dsOverride | esOverride | fsOverride | gsOverride
  | opSizeOverride | addrSizeOverride | rex => cases hb
  | movsB | movsV | cmpsB | cmpsV | stosB | stosV | lodsB | lodsV | scasB | scasV | insB | insV | outsB | outsV
  | movRCr | movRDr | movCrR | movDrR => exact hplain h
  | incR | decR | incRm | decRm | movAlMoffs | movEaxMoffs | movMoffsAl | movMoffsEax | movRImm | jccRel8 =>
    obtain ⟨hp, hrest⟩ := Bool.and_eq_true_iff.1 h
    exact Bool.and_eq_true_iff.2 ⟨hplain hp, hrest⟩
  | jccRel | twoByteEscape =>
    obtain ⟨h, hrest⟩ := Bool.and_eq_true_iff.1 h
    obtain ⟨hp, hrest'⟩ := Bool.and_eq_true_iff.1 h
    exact Bool.and_eq_true_iff.2 ⟨Bool.and_eq_true_iff.2 ⟨hplain hp, hrest'⟩, hrest⟩
  | cvtdq2pd | phaddw =>
    obtain ⟨hs, hrest⟩ := Bool.and_eq_true_iff.1 h
    exact Bool.and_eq_true_iff.2 ⟨hsimd _ _ hs, hrest⟩

namespace Machine

/-! ## The same effect at another address -/

theorem State.setPc_setPc (s : State) (v w : Word) : (s.setPc v).setPc w = s.setPc w := rfl

theorem State.store_setPc {s u : State} {seg : Seg} {off : Word} {w : Width} {x : BitVec w.bits} (v : Word)
    (h : s.store seg off w x = .ok u) : (s.setPc v).store seg off w x = .ok (u.setPc v) := by
  obtain ⟨hmay, rfl⟩ := (s.store_eq_ok_iff ..).1 h
  exact (State.store_eq_ok_iff ..).2 ⟨hmay, rfl⟩

theorem incDecPlace_setPc {op : ArithOp} {w : Width} {pl : Place} {s u : State} (v : Word)
    (h : incDecPlace op w pl s = .ok u) : incDecPlace op w pl (s.setPc v) = .ok (u.setPc v) := by
  cases pl with
  | reg n => cases h; rfl
  | mem seg off =>
    obtain ⟨x, s', hx, hs, rfl⟩ := (incDecPlace_mem_ok_iff ..).1 h
    exact (incDecPlace_mem_ok_iff ..).2 ⟨x, s'.setPc v, hx, State.store_setPc v hs, rfl⟩

theorem loadAccumulator_setPc {p : PrefixState} {w : Width} {a : Const} {s u : State} (v : Word)
    (h : loadAccumulator p w a s = .ok u) : loadAccumulator p w a (s.setPc v) = .ok (u.setPc v) := by
  obtain ⟨x, hx, rfl⟩ := (loadAccumulator_ok_iff ..).1 h
  exact (loadAccumulator_ok_iff ..).2 ⟨x, hx, rfl⟩

/-- No effect reads the instruction pointer but as the address of the next instruction. -/
theorem effect_setPc {p : PrefixState} {next : Word} {s u : State} {body : Instr} (v : Word)
    (h : effect p next s body = .ok u) : effect p next (s.setPc v) body = .ok (u.setPc v) := by
  cases body with
  | incR | decR | incRm | decRm =>
    simp only [effect] at h ⊢
    exact incDecPlace_setPc v h
  | movAlMoffs | movEaxMoffs => exact loadAccumulator_setPc v h
  | movMoffsAl | movMoffsEax => exact State.store_setPc v h
  | movRImm => cases h; rfl
  | _ => cases h

/-- Nor does an effect count the REX bytes. -/
theorem effect_rexCount (p : PrefixState) (n : Nat) (next : Word) (s : State) (body : Instr) :
    effect ⟨p.legacy, p.rex, n⟩ next s body = effect p next s body := by
  cases body <;> rfl

/-- Whether the prefix check passes does not depend on the address, nor on the number of REX bytes. -/
theorem prefixRefusal_eq_none_iff (a : RowAttrs) (p : PrefixState) (n : Nat) (pc pc' : Word) :
    prefixRefusal a ⟨p.legacy, p.rex, n⟩ pc = none ↔ prefixRefusal a p pc' = none := by
  show prefixRefusal a p pc = none ↔ prefixRefusal a p pc' = none
  unfold prefixRefusal
  split_ifs <;> simp

/-- When a well-formed instruction completes, and where. -/
theorem exec_eq_next_iff {i : Instr} {s : State} (hw : wellFormed s.cfg i = true) (t : State) :
    exec i s = .next t ↔ admitted i.body = true ∧ prefixRefusal (attrs i.body) i.prefixState s.pc = none ∧
      s.pc.toNat + i.length ≤ s.cfg.top ∧
      ∃ s', effect i.prefixState (nextPc i s) s i.body = .ok s' ∧ t = s'.setPc (nextPc i s) := by
  constructor
  · intro h
    obtain ⟨-, ha, -⟩ := exec_eq_next h
    rw [exec_of_admitted hw ha, runAdmitted_eq_next_iff, pcNext_eq] at h
    exact ⟨ha, h⟩
  · rintro ⟨ha, h⟩
    rw [exec_of_admitted hw ha, runAdmitted_eq_next_iff, pcNext_eq]
    exact h

/-- In 64-bit mode the instruction pointer is kept whole. -/
theorem State.pc_of_mode64 {s : State} (h : s.cfg.mode64 = true) : s.pc = s.rip := if_pos h

theorem State.setPc_pc_of_mode64 {s : State} (h : s.cfg.mode64 = true) (v : Word) : (s.setPc v).pc = v := by
  rw [State.pc_of_mode64 (s := s.setPc v) h, State.setPc_rip, if_pos h]

theorem State.setPc_setPc_rip {s : State} (h : s.cfg.mode64 = true) (v : Word) : (s.setPc v).setPc s.rip = s := by
  rw [State.setPc_setPc, State.setPc, if_pos h]

/-- Settles O40: without the REX the instruction is well formed, its prefixes are the same but for the count, and one
byte further on it ends at the same address, so that both have the same effect. -/
theorem misplacedRexIsIgnored : Obligations.MisplacedRexIsIgnored := by
  unfold Obligations.MisplacedRexIsIgnored
  intro r j s l ps hw hps htop t
  have hm := mode64_of_rex hw
  obtain ⟨ha, hshape, hlen⟩ := (wellFormed_iff ..).1 hw
  have hlength : (Instr.rex r j).length = 1 + j.length := rfl
  have hbody : (Instr.rex r j).body = j.body := rfl
  have hstate : (Instr.rex r j).prefixState =
      ⟨j.prefixState.legacy, j.prefixState.rex, j.prefixState.rexCount + 1⟩ := by
    have hprefixes : (Instr.rex r j).prefixes = .rex r :: .legacy l :: ps := by rw [← hps]; rfl
    rw [Instr.prefixState, Instr.prefixState, hprefixes, hps]
    exact PrefixState.ofList_rex_legacy r l ps
  have hwj : wellFormed s.cfg j = true := by
    rw [hstate, hbody] at hshape
    exact (wellFormed_iff ..).2 ⟨(Bool.and_eq_true_iff.1 ha).2,
      shapeOk_of_rexCount_le (p := ⟨_, _, j.prefixState.rexCount + 1⟩) j.prefixes_body (Nat.le_succ _) hshape, by omega⟩
  have hpc : (s.setPc (s.pc + 1)).pc.toNat = s.pc.toNat + 1 := by
    have hpos := one_le_length j
    rw [Config.top, if_pos hm] at htop
    have hlt : s.pc.toNat + 1 < 2 ^ 64 := by omega
    rw [State.setPc_pc_of_mode64 hm, BitVec.toNat_add, show (1 : Word).toNat = 1 from rfl, Nat.mod_eq_of_lt hlt]
  have hend : (s.setPc (s.pc + 1)).pc.toNat + j.length = s.pc.toNat + (Instr.rex r j).length := by
    rw [hpc, hlength, Nat.add_assoc]
  have hnext : nextPc j (s.setPc (s.pc + 1)) = nextPc (.rex r j) s := by rw [nextPc, nextPc, hend]
  have hcheck : prefixRefusal (attrs j.body) (Instr.rex r j).prefixState s.pc = none ↔
      prefixRefusal (attrs j.body) j.prefixState (s.setPc (s.pc + 1)).pc = none := by
    rw [hstate]
    exact prefixRefusal_eq_none_iff ..
  rw [exec_eq_next_iff hw, exec_eq_next_iff (s := s.setPc (s.pc + 1)) hwj, hbody, hend, hnext, hcheck, hstate,
    effect_rexCount, State.setPc_cfg]
  refine and_congr_right fun _ => and_congr_right fun _ => and_congr_right fun _ => ⟨?_, ?_⟩
  · rintro ⟨s', he, rfl⟩
    exact ⟨s'.setPc (s.pc + 1), effect_setPc _ he, rfl⟩
  · rintro ⟨s', he, rfl⟩
    have he' := effect_setPc s.rip he
    rw [State.setPc_setPc_rip hm] at he'
    exact ⟨s'.setPc s.rip, he', rfl⟩

/-! ## REX bits with no field to extend -/

/-- Two REX prefixes under which an admitted opcode has the same shape and the same effect do the same. -/
theorem exec_rex_congr {r r' : Rex} {body : Instr} {s : State} (ha : admitted body = true)
    (hs : shapeOk s.cfg (PrefixState.ofList [.rex r]) body = shapeOk s.cfg (PrefixState.ofList [.rex r']) body)
    (he : ∀ next, effect (PrefixState.ofList [.rex r]) next s body =
      effect (PrefixState.ofList [.rex r']) next s body) :
    exec (.rex r body) s = exec (.rex r' body) s := by
  have hw : wellFormed s.cfg (.rex r body) = wellFormed s.cfg (.rex r' body) := by
    have hshape : shapeOk s.cfg .empty (.rex r body) = shapeOk s.cfg .empty (.rex r' body) :=
      congrArg (s.cfg.mode64 && ·) hs
    rw [wellFormed, wellFormed, hshape]
    rfl
  have hx : execAfter (PrefixState.ofList [.rex r]) body s = execAfter (PrefixState.ofList [.rex r']) body s := by
    rw [execAfter_of_admitted ha, execAfter_of_admitted ha, he]
    rfl
  show guarded _ s _ = guarded _ s _
  rw [guarded, guarded, hw]
  exact congrArg (fun x => if wellFormed s.cfg (.rex r' body) then x else _) hx

/-- Of a REX the operand size has W alone. -/
theorem operandSize_rex_congr {r r' : Rex} (c : Config) (h : r.w = r'.w) :
    operandSize c (PrefixState.ofList [.rex r]) = operandSize c (PrefixState.ofList [.rex r']) := by
  show (if c.mode64 then if r.w then _ else _ else _) = (if c.mode64 then if r'.w then _ else _ else _)
  rw [h]
  rfl

/-- Of a REX the place of an operand has B, and X where there is a SIB byte. -/
theorem placeOf_rex_congr {r r' : Rex} (s : State) (next : Word) {o : RmOperand} (hb : r.b = r'.b)
    (hx : o.sib.isSome = true → r.x = r'.x) :
    placeOf s (PrefixState.ofList [.rex r]) next o = placeOf s (PrefixState.ofList [.rex r']) next o := by
  have hsum : ∀ a, ea64Sum s r a next o = ea64Sum s r' a next o := by
    intro a
    unfold ea64Sum
    cases hsib : o.sib with
    | none => simp only [hb]
    | some sib => simp only [hb, hx (by rw [hsib]; rfl)]
  have hea : effectiveAddress s (PrefixState.ofList [.rex r]) next o =
      effectiveAddress s (PrefixState.ofList [.rex r']) next o := by
    have hbits : ∀ r : Rex, (PrefixState.ofList [.rex r]).rexBits = r := fun _ => rfl
    simp only [effectiveAddress, ea64, hbits, hsum]
    rfl
  rw [placeOf, placeOf, hea]
  show (if _ then _ else Place.reg (regNum r.b o.rm)) = (if _ then _ else Place.reg (regNum r'.b o.rm))
  rw [hb]

/-- Settles O41: for each opcode, the bits that its shape and its effect look at. -/
theorem unusedRexBitsAreIgnored : Obligations.UnusedRexBitsAreIgnored := by
  unfold Obligations.UnusedRexBitsAreIgnored
  intro r r' s
  refine ⟨fun o hw hb hx => ⟨?_, ?_⟩, fun n v hw hb => ?_, fun a hw => ⟨?_, ?_⟩, fun a => ⟨?_, ?_⟩⟩
  · refine exec_rex_congr rfl rfl fun next => ?_
    rw [effect, effect, operandSize_rex_congr _ hw, placeOf_rex_congr s next hb hx]
  · refine exec_rex_congr rfl rfl fun next => ?_
    rw [effect, effect, operandSize_rex_congr _ hw, placeOf_rex_congr s next hb hx]
  · refine exec_rex_congr rfl ?_ fun next => ?_
    · rw [shapeOk, shapeOk, operandSize_rex_congr _ hw]
      rfl
    · show Except.ok (s.writeReg (regNum r.b n) _ _) = Except.ok (s.writeReg (regNum r'.b n) _ _)
      rw [hb, operandSize_rex_congr _ hw]
  · refine exec_rex_congr rfl rfl fun next => ?_
    rw [effect, effect, operandSize_rex_congr _ hw]
    rfl
  · refine exec_rex_congr rfl rfl fun next => ?_
    rw [effect, effect, operandSize_rex_congr _ hw]
    rfl
  · exact exec_rex_congr rfl rfl fun _ => rfl
  · exact exec_rex_congr rfl rfl fun _ => rfl

end Machine

end Sys2Proof
end

section
/-! What the prefix check refuses, and the instructions that are decoded and then refused: LOCK and the repeat prefixes,
string and I/O instructions, opcodes with no row, Jcc, the SIMD rows (R84 to R101, R152, R153, R171 to R194). -/

namespace Sys2Proof

theorem mem_legacy_ofList {l : Legacy} {ps : List Prefix} (h : .legacy l ∈ ps) : l ∈ (PrefixState.ofList ps).legacy := by
  obtain ⟨as, bs, rfl⟩ := List.append_of_mem h
  rw [PrefixState.legacy_ofList_append, PrefixState.legacy_ofList_cons]
  simp

/-- The one-byte opcodes that no row lists, but for FFH (R152). -/
theorem oneByteRow_unlisted : ∀ (m64 : Bool) (b : Byte), b ≠ 0xFF → ¬ (0x40 ≤ b ∧ b ≤ 0x4F) →
    ¬ (0x6C ≤ b ∧ b ≤ 0x7F) → ¬ (0xA0 ≤ b ∧ b ≤ 0xA7) → ¬ (0xAA ≤ b ∧ b ≤ 0xAF) → ¬ (0xB8 ≤ b ∧ b ≤ 0xBF) →
    oneByteRow m64 b 0 = none := by
  decide +kernel

namespace Machine

section
variable {i : Instr} {s : State}

/-! ## The prefix check on the prefixes that an instruction carries -/

/-- A well-formed instruction that carries one prefix of a group carries no other of that group (R102). -/
theorem not_carries_of_group {l k : Legacy} (hw : wellFormed s.cfg i = true) (h : Carries i l)
    (hg : l.group = k.group) (hne : l ≠ k) : ¬ Carries i k := fun hk =>
  hne (eq_of_group (wellFormed_groups hw).1 h hk hg)

theorem segment_eq_none_of_carries (h : ∀ g, ¬ Carries i (.seg g)) : i.prefixState.segment = none :=
  segment_eq_none fun _ hl g hg => h g (hg ▸ hl)

/-- LOCK is asked about first (R171). -/
theorem prefixRefusal_of_lock {a : RowAttrs} (h : Carries i .lock) (pc : Word) :
    prefixRefusal a i.prefixState pc = some (.lockLegalityNotInSource pc) := by
  rw [prefixRefusal, if_pos (List.contains_iff_mem.2 h)]

/-- Then a repeat prefix on a row that may not carry it (R100). -/
theorem prefixRefusal_of_repeat {a : RowAttrs} (hlock : ¬ Carries i .lock) (h : Carries i .repne ∨ Carries i .rep)
    (ha : a.rep = false) (pc : Word) : prefixRefusal a i.prefixState pc = some (.reservedRepeatPrefix pc) := by
  have hrep : (i.prefixState.legacy.contains .repne || i.prefixState.legacy.contains .rep) = true := by
    simpa using h
  rw [prefixRefusal, if_neg (by simpa using hlock), if_pos (by rw [hrep, ha]; rfl)]

/-- Then the segment override, 67H and 66H (R153). -/
theorem prefixRefusal_of_not_group1 {a : RowAttrs} (hlock : ¬ Carries i .lock)
    (hrep : a.rep = true ∨ ¬ Carries i .repne ∧ ¬ Carries i .rep) (pc : Word) :
    prefixRefusal a i.prefixState pc =
      if i.prefixState.segment.isSome && a.jcc && i.prefixState.segment != some .cs &&
          i.prefixState.segment != some .ds then
        some (.reservedSegmentOnBranch pc)
      else if i.prefixState.segment.isSome && !a.jcc && !a.mem then
        some (.segmentOverrideWithoutMemoryOperand pc)
      else if i.prefixState.has67 && !a.mem then some (.addrSizeWithoutMemoryOperand pc)
      else if i.prefixState.has66 && a.simd then some (.reserved66 pc)
      else none := by
  have hno : ¬ ((i.prefixState.legacy.contains .repne || i.prefixState.legacy.contains .rep) && !a.rep) = true := by
    rcases hrep with hrep | ⟨hrepne, hrep⟩
    · simp [hrep]
    · simp [hrepne, hrep]
  rw [prefixRefusal, if_neg (by simpa using hlock), if_neg hno]

/-! ## LOCK and the repeat prefixes -/

/-- Settles O42: LOCK is refused before anything else, wherever it stands, and so in front. -/
theorem lockIsRefused : Obligations.LockIsRefused := by
  unfold Obligations.LockIsRefused
  have hall : ∀ (i : Instr) (s : State), wellFormed s.cfg i = true → Carries i .lock →
      (∀ b2 b3, i.body ≠ .twoByteEscape b2 b3) → exec i s = .refused (.lockLegalityNotInSource s.pc) :=
    fun i s hw hlock hrow => exec_of_prefixRefusal hw (prefixRefusal_of_lock hlock s.pc) hrow
  exact ⟨hall, fun j s hw hrow => hall (.lock j) s hw (carries_onto .lock j) hrow⟩

/-- The rows that may carry a repeat prefix are the string and I/O instructions (R100). -/
theorem attrs_rep (i : Instr) : (attrs i.body).rep = stringOrIo i.body := by
  have hb := i.prefixes_body
  generalize i.body = body at *
  cases body <;> first | rfl | cases hb

/-- Settles O43: with a repeat prefix there is no LOCK, which is of its group, so that the repeat prefix is what is
refused. -/
theorem repeatPrefixIsReserved : Obligations.RepeatPrefixIsReserved := by
  unfold Obligations.RepeatPrefixIsReserved
  have hall : ∀ (i : Instr) (s : State), wellFormed s.cfg i = true → Carries i .repne ∨ Carries i .rep →
      (∀ b2 b3, i.body ≠ .twoByteEscape b2 b3) → stringOrIo i.body = false →
      exec i s = .refused (.reservedRepeatPrefix s.pc) := by
    intro i s hw hrep hrow hstring
    have hlock : ¬ Carries i .lock := by
      rcases hrep with h | h <;> exact not_carries_of_group hw h rfl (by decide)
    exact exec_of_prefixRefusal hw (prefixRefusal_of_repeat hlock hrep (by rw [attrs_rep, hstring]) s.pc) hrow
  exact ⟨hall, fun j s hrow hstring =>
    ⟨fun hw => hall (.repne j) s hw (.inl (carries_onto .repne j)) hrow hstring,
      fun hw => hall (.rep j) s hw (.inr (carries_onto .rep j)) hrow hstring⟩⟩

/-! ## String and I/O instructions -/

/-- A row that may carry a repeat prefix and has a memory operand is refused by name where there is no LOCK. -/
theorem exec_stringOrIo {body : Instr} {name : String} (hb : i.body = body)
    (ha : attrs body = { rep := true, mem := true })
    (hx : ∀ p, execAfter p body s = runDecodeOnly name p body s) (hw : wellFormed s.cfg i = true)
    (hlock : ¬ Carries i .lock) : exec i s = .refused (.semanticsNotInSource name s.pc) := by
  have hcheck : prefixRefusal (attrs body) i.prefixState s.pc = none := by
    rw [ha, prefixRefusal_of_not_group1 hlock (.inl rfl)]
    simp
  rw [exec_of_wellFormed hw, hb, hx, runDecodeOnly_eq, hcheck]
  rfl

/-- The same, and with a repeat prefix in front, which leaves no place for LOCK. -/
theorem exec_stringOrIo_repeat {body : Instr} {name : String} (hb : i.body = body)
    (ha : attrs body = { rep := true, mem := true })
    (hx : ∀ p, execAfter p body s = runDecodeOnly name p body s) :
    (wellFormed s.cfg i = true → ¬ Carries i .lock → exec i s = .refused (.semanticsNotInSource name s.pc)) ∧
    (wellFormed s.cfg (.repne i) = true → exec (.repne i) s = .refused (.semanticsNotInSource name s.pc)) ∧
    (wellFormed s.cfg (.rep i) = true → exec (.rep i) s = .refused (.semanticsNotInSource name s.pc)) :=
  ⟨exec_stringOrIo hb ha hx,
    fun hw => exec_stringOrIo (i := .repne i) hb ha hx hw
      (not_carries_of_group hw (carries_onto .repne i) rfl (by decide)),
    fun hw => exec_stringOrIo (i := .rep i) hb ha hx hw
      (not_carries_of_group hw (carries_onto .rep i) rfl (by decide))⟩

/-- Settles O44, row by row. -/
theorem stringInstructionsAreRefused : Obligations.StringInstructionsAreRefused := by
  unfold Obligations.StringInstructionsAreRefused
  intro named
  refine ⟨?_, ?_, ?_, ?_, ?_, ?_, ?_, ?_, ?_, ?_, ?_, ?_, ?_, ?_⟩ <;>
    exact fun i s hb => exec_stringOrIo_repeat hb rfl fun _ => rfl

/-! ## Opcodes with no row -/

/-- Settles O45: the escape row is the refusal of R152, and of one-byte opcodes the decoder shows the listed ones. -/
theorem unlistedOpcodesAreNotShown : Obligations.UnlistedOpcodesAreNotShown := by
  unfold Obligations.UnlistedOpcodesAreNotShown
  refine ⟨fun i b2 b3 s hw hb => by
    rw [exec_of_wellFormed hw, hb, execAfter_twoByteEscape]
    rfl, ?_⟩
  intro s ps b hps hgroups hlen hb h0f hff h4 h6 ha0 haa hb8 hcode
  have hrow := decodeOneByte_noRow (c := s.cfg) ps [] hff (oneByteRow_unlisted _ b hff h4 h6 ha0 haa hb8)
  exact step_notShown hps hgroups hb h0f hrow (by simpa using hlen) hcode

/-! ## Jcc -/

/-- A Jcc is refused by the prefix check, or since the source gives it no meaning. -/
theorem exec_jcc (hb : (∃ cc rel, i.body = .jccRel8 cc rel) ∨ ∃ cc rel, i.body = .jccRel cc rel)
    (hw : wellFormed s.cfg i = true) : exec i s = .refused
      ((prefixRefusal { jcc := true } i.prefixState s.pc).getD (.semanticsNotInSource "Jcc" s.pc)) := by
  rw [exec_of_wellFormed hw]
  rcases hb with ⟨cc, rel, hb⟩ | ⟨cc, rel, hb⟩
  · rw [hb, execAfter_jccRel8, runDecodeOnly_eq]
    rfl
  · rw [hb, execAfter_jccRel, runDecodeOnly_eq]
    rfl

/-- The displacement of the two-byte Jcc, by the mode (R179). -/
theorem relSize_eq (c : Config) (p : PrefixState) :
    relSize c p = if c.mode64 then .w32 else operandSize c p := by
  cases hm : c.mode64 with
  | true => simp [relSize, branchSize, hm]
  | false =>
    rw [relSize, branchSize, hm, operandSize_of_not_mode64 hm]
    cases (if p.has66 then c.defOpSize.other else c.defOpSize) <;> rfl

/-- A well-formed Jcc has no 66H in 64-bit mode (R139), and the two-byte form a displacement of its size. -/
theorem wellFormed_jcc {c : Config}
    (hb : (∃ cc rel, i.body = .jccRel8 cc rel) ∨ ∃ cc rel, i.body = .jccRel cc rel) (hw : wellFormed c i = true) :
    (c.mode64 && i.prefixState.has66) = false ∧
      ∀ cc rel, i.body = .jccRel cc rel → rel.width = relSize c i.prefixState := by
  obtain ⟨hs, -, -⟩ := wellFormed_shape hw
  rcases hb with ⟨cc, rel, hb⟩ | ⟨cc, rel, hb⟩
  · rw [hb, shapeOk, Bool.and_eq_true, Bool.not_eq_true'] at hs
    exact ⟨hs.2, fun cc' rel' hb' => by rw [hb] at hb'; cases hb'⟩
  · rw [hb, shapeOk, Bool.and_eq_true, Bool.and_eq_true, Bool.not_eq_true', beq_iff_eq] at hs
    exact ⟨hs.1.2, fun cc' rel' hb' => by rw [hb] at hb'; cases hb'; exact hs.2⟩

/-- In 64-bit mode 66H before either opcode of Jcc is refused by the decoder, before a displacement is read. -/
theorem decodeStream_jcc_66 {c : Config} {ps : List Prefix} (cc : BitVec 4) (hm : c.mode64 = true)
    (hps : PrefixesRead c ps) (hgroups : repeatsGroup (PrefixState.ofList ps).legacy = false)
    (h66 : .legacy .opSize ∈ ps) :
    decodeStream c (ps.map Prefix.byte ++ [0x70#8 + cc.setWidth 8]) = .error .notInSource ∧
    decodeStream c (ps.map Prefix.byte ++ [0x0F, 0x80#8 + cc.setWidth 8]) = .error .notInSource := by
  have hop : ∀ (m64 : Bool) (cc : BitVec 4), oneByteRow m64 (0x70#8 + cc.setWidth 8) 0 = some .jccRel8 ∧
    0x70#8 + cc.setWidth 8 ≠ 0xFF := by decide
  have hop2 : ∀ cc : BitVec 4, twoByteRow none (0x80#8 + cc.setWidth 8) = some .jccRel := by decide
  obtain ⟨hrow, hff⟩ := hop c.mode64 cc
  obtain ⟨hb, h0f⟩ := opcode_of_oneByteRow c.mode64 _ (by rw [hrow]; rfl)
  obtain ⟨h38, h3a⟩ := opcode_of_twoByteRow (hop2 cc)
  have hrefuse : (c.mode64 && (PrefixState.ofList ps).has66) = true := by
    rw [hm, Bool.true_and, PrefixState.has66, List.contains_iff_mem]
    exact mem_legacy_ofList h66
  constructor
  · rw [decodeStream_row [] hps.all_allowed ((plain_iff _).2 ⟨hgroups, hps.2⟩) hff h0f hrow hb, decodeRow,
      if_pos hrefuse]
  · rw [decodeStream_two [] hps.all_allowed hgroups hps.2 h38 h3a (twoByteRow_or_none (hop2 cc)), decodeRow,
      if_pos hrefuse]

/-- Settles O46: the checks on a decoded Jcc, the prefix check in its order, and the decoder's refusal of 66H. -/
theorem jccIsRefused : Obligations.JccIsRefused := by
  unfold Obligations.JccIsRefused
  refine ⟨fun i s hw hb => ?_, fun s ps cc hm hps hgroups h66 => ?_⟩
  · obtain ⟨hno66, hrel⟩ := wellFormed_jcc hb hw
    refine ⟨fun hm h66 => ?_, fun cc rel hbody => by rw [hrel cc rel hbody, relSize_eq], fun hlock hrepne hrep => ?_⟩
    · rw [hm, has66_eq, decide_eq_true h66] at hno66
      cases hno66
    · rw [exec_jcc hb hw, prefixRefusal_of_not_group1 hlock (.inr ⟨hrepne, hrep⟩), has67_eq]
      have hhint : (∀ g, Carries i (.seg g) → g = .cs ∨ g = .ds) →
          (i.prefixState.segment.isSome && true && i.prefixState.segment != some .cs &&
            i.prefixState.segment != some .ds) = false := by
        intro hseg
        cases hsegment : i.prefixState.segment with
        | none => rfl
        | some g => rcases hseg g ((segment_eq_some_iff hw).1 hsegment) with rfl | rfl <;> rfl
      refine ⟨?_, fun hseg h67 => ?_, fun hseg h67 => ?_⟩
      · rintro ⟨g, hg, hcs, hds⟩
        rw [(segment_eq_some_iff hw).2 hg]
        simp [hcs, hds]
      · rw [if_neg (ne_true_of_eq_false (hhint hseg))]
        simp [h67]
      · rw [if_neg (ne_true_of_eq_false (hhint hseg))]
        simp [h67]
  · obtain ⟨hone, htwo⟩ := decodeStream_jcc_66 cc hm hps hgroups h66
    exact ⟨fun hlen hcode => step_of_codeAt_error hcode (by simpa using hlen) hone (by simp),
      fun hlen hcode => step_of_codeAt_error hcode (by simpa using hlen) htwo (by simp)⟩

/-- A branch hint is no other group's prefix, and the segment overrides that a branch may carry pass the check. -/
theorem prefixRefusal_hint {g : Seg} {p : PrefixState} (hg : g = .cs ∨ g = .ds) (hnone : p.segment = none) (pc : Word) :
    prefixRefusal { jcc := true } ⟨.seg g :: p.legacy, p.rex, p.rexCount⟩ pc =
      prefixRefusal { jcc := true } p pc := by
  have hseg : (⟨.seg g :: p.legacy, p.rex, p.rexCount⟩ : PrefixState).segment = some g := rfl
  rcases hg with rfl | rfl <;> simp [prefixRefusal, hseg, hnone, PrefixState.has66, PrefixState.has67]

/-- The shape of a Jcc asks for no segment override, so that it holds without a hint in front. -/
theorem shapeOk_of_hint {c : Config} {g : Seg} {p : PrefixState} {body : Instr}
    (hb : (∃ cc rel, body = .jccRel8 cc rel) ∨ ∃ cc rel, body = .jccRel cc rel)
    (h : shapeOk c ⟨.seg g :: p.legacy, p.rex, p.rexCount⟩ body = true) : shapeOk c p body = true := by
  have hplain : shapeOk.plain ⟨.seg g :: p.legacy, p.rex, p.rexCount⟩ = true → shapeOk.plain p = true := fun hp => by
    rw [plain_iff] at hp ⊢
    exact ⟨(Bool.or_eq_false_iff.1 hp.1).2, hp.2⟩
  have h66 : (⟨.seg g :: p.legacy, p.rex, p.rexCount⟩ : PrefixState).has66 = p.has66 := by simp [PrefixState.has66]
  rcases hb with ⟨cc, rel, rfl⟩ | ⟨cc, rel, rfl⟩
  · simp only [shapeOk, h66, Bool.and_eq_true] at h ⊢
    exact ⟨hplain h.1, h.2⟩
  · simp only [shapeOk, h66, Bool.and_eq_true, relSize_eq, operandSize, PrefixState.rexBits] at h ⊢
    exact ⟨⟨hplain h.1.1, h.1.2⟩, h.2⟩

/-- A Jcc with a hint in front does what it does without. -/
theorem exec_hint {g : Seg} {j : Instr} (hg : g = .cs ∨ g = .ds)
    (hb : (∃ cc rel, j.body = .jccRel8 cc rel) ∨ ∃ cc rel, j.body = .jccRel cc rel)
    (hw : wellFormed s.cfg ((Prefix.legacy (.seg g)).onto j) = true) :
    exec ((Prefix.legacy (.seg g)).onto j) s = exec j s := by
  have hbody : ((Prefix.legacy (.seg g)).onto j).body = j.body := Prefix.body_onto _ _
  have hstate : ((Prefix.legacy (.seg g)).onto j).prefixState =
      ⟨.seg g :: j.prefixState.legacy, j.prefixState.rex, j.prefixState.rexCount⟩ := by
    rw [Instr.prefixState, Prefix.prefixes_onto]
    exact PrefixState.ofList_legacy_cons _ _
  have hnone : j.prefixState.segment = none := segment_eq_none fun l hl g' hg' => by
    obtain ⟨hgroups, -⟩ := wellFormed_groups hw
    rw [hstate] at hgroups
    have := (Bool.or_eq_false_iff.1 hgroups).1
    rw [List.any_eq_false] at this
    exact this l hl (by rw [hg']; rfl)
  have hwj : wellFormed s.cfg j = true := by
    obtain ⟨ha, hs, hlen⟩ := (wellFormed_iff ..).1 hw
    rw [Prefix.prefixes_onto] at ha
    rw [hstate, hbody] at hs
    rw [Prefix.length_onto] at hlen
    exact (wellFormed_iff ..).2 ⟨(Bool.and_eq_true_iff.1 ha).2, shapeOk_of_hint hb hs, by omega⟩
  rw [exec_jcc (by rw [hbody]; exact hb) hw, exec_jcc hb hwj, hstate, prefixRefusal_hint hg hnone]

/-- Settles O47, hint by hint. -/
theorem branchHintHasNoEffect : Obligations.BranchHintHasNoEffect := by
  unfold Obligations.BranchHintHasNoEffect
  intro j s hb
  exact ⟨fun hw => ⟨exec_hint (g := .cs) (.inl rfl) hb hw, Nat.add_comm _ _⟩,
    fun hw => ⟨exec_hint (g := .ds) (.inr rfl) hb hw, Nat.add_comm _ _⟩⟩

/-! ## The SIMD rows -/

/-- Legal prefixes pass the check on a SIMD row, but for 66H (R101). -/
theorem prefixRefusal_of_legal_simd {m : Bool} {p : PrefixState} (pc : Word) (h : legalPrefixes m p.legacy = true) :
    prefixRefusal { mem := m, simd := true } p pc = if p.has66 then some (.reserved66 pc) else none := by
  have hplain := prefixRefusal_of_legal (a := { mem := m }) pc rfl rfl h
  unfold prefixRefusal at hplain ⊢
  split_ifs at hplain ⊢ <;> simp_all

/-- PHADDW has no 66H but its mandatory one (R102, R193). -/
theorem not_carries_opSize_of_phaddw {c : Config} {rx : Option Rex} {reg : BitVec 3} {o : RmOperand}
    (hb : i.body = .phaddw rx reg o) (hw : wellFormed c i = true) : ¬ Carries i .opSize := fun h66 => by
  obtain ⟨hs, -, -⟩ := wellFormed_shape hw
  rw [hb, shapeOk, Bool.and_eq_true, simdPrefixesOk, Bool.and_eq_true, Bool.not_eq_true', nodup_groups_iff,
    List.map_append, List.nodup_append] at hs
  obtain ⟨⟨⟨-, -, hdisjoint⟩, -⟩, -⟩ := hs
  exact hdisjoint _ (List.mem_map_of_mem h66) _ (List.mem_singleton_self _) rfl

/-- A mandatory prefix and the REX after it change of a memory operand's address only what that REX does (R104). -/
theorem effectiveAddress_simdPrefixes {l : Legacy} (hl : l = .rep ∨ l = .opSize) (p : PrefixState) (rx : Option Rex)
    (next : Word) (o : RmOperand) :
    effectiveAddress s (simdPrefixes p l rx) next o = effectiveAddress s ⟨p.legacy, rx, p.rexCount⟩ next o := by
  have hseg : (simdPrefixes p l rx).segment = p.segment := by
    rcases hl with rfl | rfl <;> cases rx <;>
      simp [simdPrefixes, PrefixState.push, PrefixState.segment, List.findSome?_append]
  have h67 : (simdPrefixes p l rx).has67 = p.has67 := by
    rcases hl with rfl | rfl <;> cases rx <;> simp [simdPrefixes, PrefixState.push, PrefixState.has67]
  have hbits : (simdPrefixes p l rx).rexBits = (⟨p.legacy, rx, p.rexCount⟩ : PrefixState).rexBits := by
    cases rx <;> rfl
  simp only [effectiveAddress, addressSize, segmentFor, hseg, h67, hbits]
  rfl

/-- The operands of a SIMD row: two XMM registers, or one and so many bytes of memory. -/
theorem simdOperands_eq {l : Legacy} (hl : l = .rep ∨ l = .opSize) (p : PrefixState) (rx : Option Rex) (next : Word)
    (reg : BitVec 3) (o : RmOperand) (bytes : Nat) :
    simdOperands s (simdPrefixes p l rx) next reg o bytes =
      [.reg (.xmm (regNum (rx.getD Rex.zero).r reg)),
        if o.mod = 3 then .reg (.xmm (regNum (rx.getD Rex.zero).b o.rm))
        else .mem (effectiveAddress s ⟨p.legacy, rx, p.rexCount⟩ next o).1
          (effectiveAddress s ⟨p.legacy, rx, p.rexCount⟩ next o).2 bytes] := by
  have hbits : (simdPrefixes p l rx).rexBits = rx.getD Rex.zero := by cases rx <;> rfl
  rw [simdOperands, rmOperand, regField, rmField, hbits, effectiveAddress_simdPrefixes hl]
  by_cases hmod : o.mod = 3
  · rw [not_inMemory_of_mod hmod, if_pos hmod]
    rfl
  · rw [inMemory_of_mod hmod, if_neg hmod]
    rfl

/-- Settles O48: the refusal, by the prefix check of a SIMD row, and the operands after the mandatory prefix and its
REX. -/
theorem simdIsRefused : Obligations.SimdIsRefused := by
  unfold Obligations.SimdIsRefused
  intro i rx reg o s hw
  refine ⟨fun hl => ⟨fun hb => ?_, fun hb => ?_⟩, ?_⟩
  · have hcheck := prefixRefusal_of_legal_simd s.pc hl
    rw [has66_eq] at hcheck
    rw [exec_of_wellFormed hw, hb, execAfter_cvtdq2pd, runDecodeOnly_eq, attrs, hcheck]
    by_cases h66 : Carries i .opSize <;> simp [h66]
  · have hcheck := prefixRefusal_of_legal_simd s.pc hl
    rw [has66_eq, decide_eq_false (not_carries_opSize_of_phaddw hb hw)] at hcheck
    rw [exec_of_wellFormed hw, hb, execAfter_phaddw, runDecodeOnly_eq, attrs, hcheck]
    rfl
  · intro e ea operands
    refine ⟨fun hb => ?_, fun hb => ?_⟩
    · rw [operandsOf_eq, hb]
      exact simdOperands_eq (.inl rfl) ..
    · rw [operandsOf_eq, hb]
      exact simdOperands_eq (.inr rfl) ..

/-! ## Prefixes that need a memory operand -/

/-- Without LOCK and a repeat prefix, a segment override and then 67H are refused on a row with no memory operand that
is no branch (R99, R153). -/
theorem exec_of_no_memory_operand (hw : wellFormed s.cfg i = true) (hm : (attrs i.body).mem = false)
    (hj : (attrs i.body).jcc = false) (hrow : ∀ b2 b3, i.body ≠ .twoByteEscape b2 b3) (hlock : ¬ Carries i .lock)
    (hrepne : ¬ Carries i .repne) (hrep : ¬ Carries i .rep) :
    ((∃ g, Carries i (.seg g)) → exec i s = .refused (.segmentOverrideWithoutMemoryOperand s.pc)) ∧
    ((∀ g, ¬ Carries i (.seg g)) → Carries i .addrSize →
      exec i s = .refused (.addrSizeWithoutMemoryOperand s.pc)) := by
  have hcheck := prefixRefusal_of_not_group1 (a := attrs i.body) hlock (.inr ⟨hrepne, hrep⟩) s.pc
  refine ⟨?_, fun hseg h67 => ?_⟩
  · rintro ⟨g, hg⟩
    refine exec_of_prefixRefusal hw ?_ hrow
    rw [hcheck, (segment_eq_some_iff hw).2 hg, hm, hj]
    rfl
  · refine exec_of_prefixRefusal hw ?_ hrow
    rw [hcheck, segment_eq_none_of_carries hseg, has67_eq, decide_eq_true h67, hm]
    rfl

/-- Settles O49, row by row: none of these has a memory operand. -/
theorem prefixNeedsAMemoryOperand : Obligations.PrefixNeedsAMemoryOperand := by
  unfold Obligations.PrefixNeedsAMemoryOperand
  intro i s hw hb hlock hrepne hrep
  suffices h : (attrs i.body).mem = false ∧ (attrs i.body).jcc = false ∧ ∀ b2 b3, i.body ≠ .twoByteEscape b2 b3 by
    obtain ⟨hm, hj, hrow⟩ := h
    exact exec_of_no_memory_operand hw hm hj hrow hlock hrepne hrep
  rcases hb with ⟨n, hb⟩ | ⟨n, hb⟩ | ⟨n, v, hb⟩ | ⟨o, hb | hb, hmod⟩ | ⟨rx, reg, o, hb | hb, hmod⟩ |
    ⟨m, r, n, hb | hb | hb | hb⟩
  case inr.inr.inr.inl.inl | inr.inr.inr.inl.inr | inr.inr.inr.inr.inl.inl | inr.inr.inr.inr.inl.inr =>
    rw [hb]
    exact ⟨not_inMemory_of_mod hmod, rfl, fun _ _ h => by cases h⟩
  all_goals
    rw [hb]
    exact ⟨rfl, rfl, fun _ _ h => by cases h⟩

end

/-! ## The operand size of every row -/

/-- Settles O59: no REX outside 64-bit mode, the sizes of both modes, and for each kind of row the size that R150 step 4
gives it. -/
theorem operandSizeTable : Obligations.OperandSizeTable := by
  unfold Obligations.OperandSizeTable
  refine ⟨fun c i hw hm r hr => ?_, fun c p hm => ?_, fun c p hm => ?_, fun c i => ⟨fun hb => ?_, fun hb => ?_,
    fun rx reg o hb => ?_, fun hb => ?_⟩⟩
  · obtain ⟨-, ha, -⟩ := wellFormed_shape hw
    have hallowed := List.all_eq_true.1 ha _ hr
    rw [Prefix.allowed, hm] at hallowed
    cases hallowed
  · have h66 : p.has66 = decide (Legacy.opSize ∈ p.legacy) := by simp [PrefixState.has66]
    rw [operandSize_of_not_mode64 hm, h66]
    cases c.defOpSize <;> cases decide (Legacy.opSize ∈ p.legacy) <;> rfl
  · have h66 : p.has66 = decide (Legacy.opSize ∈ p.legacy) := by simp [PrefixState.has66]
    rw [operandSize_of_mode64 hm, h66]
    cases p.rexBits.w <;> cases decide (Legacy.opSize ∈ p.legacy) <;> rfl
  · refine opSize_of_byteOnly ?_
    rcases hb with hb | ⟨a, hb | hb⟩
    · generalize i.body = body at hb
      fin_cases hb <;> rfl
    · rw [hb]; rfl
    · rw [hb]; rfl
  · rcases hb with ⟨cc, rel, hb⟩ | ⟨cc, rel, hb⟩ <;>
    · rw [opSize_of_nearBranch (by rw [hb]; rfl) (by rw [hb]; rfl)]
      rfl
  · rcases hb with hb | hb
    · exact opSize_of_mandatory (mp := .rep) (by rw [hb]; rfl) (by rw [hb]; rfl) (by rw [hb]; rfl)
    · exact opSize_of_mandatory (mp := .opSize) (by rw [hb]; rfl) (by rw [hb]; rfl) (by rw [hb]; rfl)
  · suffices h : i.body.byteOnly = false ∧ i.body.nearBranch = false ∧ i.body.mandatory = none from
      opSize_of_plain h.1 h.2.1 h.2.2
    rcases hb with hb | ⟨n, hb | hb⟩ | ⟨o, hb | hb⟩ | ⟨a, hb | hb⟩ | ⟨n, v, hb⟩ | ⟨m, r, n, hb | hb | hb | hb⟩
    · generalize i.body = body at hb
      fin_cases hb <;> exact ⟨rfl, rfl, rfl⟩
    all_goals
      rw [hb]
      exact ⟨rfl, rfl, rfl⟩

end Machine

end Sys2Proof
end

section
/-! Byte registers (R23 to R27), loads of stored bytes (R58), and the effective addresses of the three address sizes
(R142, R200 to R261). -/

namespace Sys2Proof.Machine

/-! ## Byte registers -/

/-- A register with its bits 15:8 replaced, bit by bit (R27). -/
theorem getLsbD_replaceHighByte (old : Word) (v : Byte) (i : Nat) (hi : i < 64) :
    (old.extractLsb' 16 48 ++ v ++ old.extractLsb' 0 8).getLsbD i =
      if 8 ≤ i ∧ i < 16 then v.getLsbD (i - 8) else old.getLsbD i := by
  simp only [BitVec.getLsbD_append, BitVec.getLsbD_extractLsb']
  grind

/-- A byte register that is bits 7:0 of its register (R25). -/
theorem byteRegister_low {rex : Bool} {n : BitVec 4} (h : (rex || n.toNat < 4 || 8 ≤ n.toNat) = true) (s : State)
    (v : Byte) :
    s.readReg8 rex n = (s.gpr n).extractLsb' 0 8 ∧ s.writeReg8 rex n v = s.writeReg n .w8 v := by
  rw [State.readReg8, State.writeReg8, if_pos h, if_pos h, BitVec.setWidth_eq_extractLsb' (by decide)]
  exact ⟨rfl, rfl⟩

/-- A byte register that is bits 15:8 of a register (R23). -/
theorem byteRegister_high {rex : Bool} {n : BitVec 4} (h : ¬ (rex || n.toNat < 4 || 8 ≤ n.toNat) = true) (s : State)
    (v : Byte) :
    s.readReg8 rex n = (s.gpr (n - 4)).extractLsb' 8 8 ∧
      s.writeReg8 rex n v = s.setGpr (n - 4)
        ((s.gpr (n - 4)).extractLsb' 16 48 ++ v ++ (s.gpr (n - 4)).extractLsb' 0 8) := by
  rw [State.readReg8, State.writeReg8, if_neg h, if_neg h]
  exact ⟨rfl, rfl⟩

/-- Settles O52, by the byte of the register that the number names. -/
theorem byteRegisters : Obligations.ByteRegisters := by
  unfold Obligations.ByteRegisters
  intro s rex n v high
  by_cases h : (rex || n.toNat < 4 || 8 ≤ n.toNat) = true
  · have hhigh : high = false := by grind
    obtain ⟨hread, hwrite⟩ := byteRegister_low h s v
    have hbit := s.writeReg_getLsbD n .w8 v
    rw [hhigh]
    refine ⟨hread, ?_, ?_, fun i hi => ?_⟩
    · rw [(byteRegister_low h _ v).1, hwrite]
      ext i hi
      simp [hbit i (by omega), Width.bits, hi]
    · rw [hwrite]
      exact (s.writeReg_spec n .w8 v).2
    · rw [hwrite]
      by_cases hlt : i < 64
      · have hge : ¬ i < Width.w8.bits := by simpa [Width.bits] using hi
        rw [if_neg (by decide), hbit i hlt, if_neg hge, if_neg (by simp)]
      · simp [BitVec.getLsbD_of_ge _ i (not_lt.1 hlt)]
  · have hhigh : high = true := by grind
    obtain ⟨hread, hwrite⟩ := byteRegister_high h s v
    rw [hhigh]
    refine ⟨hread, ?_, ?_, fun i hi => ?_⟩
    · rw [(byteRegister_high h _ v).1, hwrite, State.setGpr_gpr_same]
      ext i hi
      simp [getLsbD_replaceHighByte _ v (8 + i) (by omega), show 8 + i < 16 by omega, hi]
    · rw [hwrite]
      exact fun m hm => s.setGpr_gpr_other _ hm
    · rw [hwrite, if_pos rfl, State.setGpr_gpr_same]
      rw [if_pos rfl] at hi
      by_cases hlt : i < 64
      · rw [getLsbD_replaceHighByte _ v i hlt, if_neg (by omega)]
      · simp [BitVec.getLsbD_of_ge _ i (not_lt.1 hlt)]

/-! ## Loads of stored bytes -/

/-- The location of a byte depends on how far it is from the segment's base alone (R56). -/
theorem loc_add_offset (s : State) (seg : Seg) (off : Word) (k j : Nat) :
    s.loc seg (off + BitVec.ofNat 64 k) j = s.loc seg off (k + j) := by
  have hmod : (off + BitVec.ofNat 64 k).toNat ≡ off.toNat + k [MOD s.cfg.top] := by
    rw [BitVec.toNat_add, BitVec.toNat_ofNat, Nat.add_mod_mod]
    exact (Nat.mod_modEq _ _).of_dvd (Config.top_dvd s.cfg).2
  have := (hmod.add_left (s.cfg.segBase.base seg).toNat).add_right j
  simpa only [State.loc, Nat.ModEq, Nat.add_assoc] using this

/-- The bytes of a part of a value are bytes of the value. -/
theorem holdsAt_part {t : State} {seg : Seg} {off : Word} {w w' : Width} {v : BitVec w.bits}
    (h : HoldsAt t seg off w v) {k : Nat} (hk : k + w'.bytes ≤ w.bytes) :
    HoldsAt t seg (off + BitVec.ofNat 64 k) w' (v.extractLsb' (8 * k) w'.bits) := fun j hj => by
  have hbits : w'.bits = 8 * w'.bytes := by cases w' <;> rfl
  rw [loc_add_offset, h (k + j) (by omega)]
  congr 1
  ext i hi
  simp
  grind

/-- Settles O53: after the store each byte is the value's, whatever part of them is read. -/
theorem loadSeesStoredBytes : Obligations.LoadSeesStoredBytes := by
  unfold Obligations.LoadSeesStoredBytes
  intro s t seg off w v hstore
  obtain ⟨hheld, -, -, -, ⟨hcfg, -⟩, -⟩ := State.store_spec hstore
  have hload : t.load seg off w = .ok v := (State.load_eq_ok_iff ..).2 hheld
  refine ⟨?_, hload, fun w' k hk => (State.load_eq_ok_iff ..).2 (holdsAt_part hheld hk)⟩
  have hbyte := hheld 0 (by cases w <;> decide)
  rw [State.loc, hcfg] at hbyte
  rw [State.loc, hbyte]
  congr 1
  ext i hi
  simp

/-! ## Sums of words, as integers modulo the size of an address -/

section
variable {n t : Nat} {u v : BitVec n} {x y : Int}

theorem toNat_add_modEq (ht : t ∣ 2 ^ n) (hu : (u.toNat : Int) ≡ x [ZMOD t]) (hv : (v.toNat : Int) ≡ y [ZMOD t]) :
    ((u + v).toNat : Int) ≡ x + y [ZMOD t] := by
  rw [BitVec.toNat_add]
  exact (Int.natCast_modEq_iff.2 ((Nat.mod_modEq _ _).of_dvd ht)).trans (by push_cast; exact hu.add hv)

theorem toNat_shiftLeft_modEq (ht : t ∣ 2 ^ n) (hu : (u.toNat : Int) ≡ x [ZMOD t]) (k : Nat) :
    ((u <<< k).toNat : Int) ≡ x * 2 ^ k [ZMOD t] := by
  rw [BitVec.toNat_shiftLeft, Nat.shiftLeft_eq]
  exact (Int.natCast_modEq_iff.2 ((Nat.mod_modEq _ _).of_dvd ht)).trans (by push_cast; exact hu.mul_right _)

theorem toNat_ite_modEq {p : Prop} [Decidable p] (hu : (u.toNat : Int) ≡ x [ZMOD t])
    (hv : (v.toNat : Int) ≡ y [ZMOD t]) :
    ((if p then u else v).toNat : Int) ≡ if p then x else y [ZMOD t] := by
  split
  · exact hu
  · exact hv

theorem disp_sext_modEq (ht : t ∣ 2 ^ n) (d : Disp) : ((d.sext n).toNat : Int) ≡ dispInt d [ZMOD t] := by
  rw [disp_sext_toNat]
  exact (Int.mod_modEq _ _).of_dvd (by exact_mod_cast ht)

/-- A word kept to `n` bits is the residue of the integer that it stands for. -/
theorem toNat_setWidth_eq_emod (hn : n ≤ 64) (hu : (u.toNat : Int) ≡ x [ZMOD (2 ^ n : Nat)]) :
    ((u.setWidth 64).toNat : Int) = x % 2 ^ n := by
  have hlt : u.toNat < 2 ^ n := u.isLt
  rw [BitVec.toNat_setWidth_of_le hn]
  have h := hu
  rw [Int.ModEq, ← Int.natCast_mod, Nat.mod_eq_of_lt hlt] at h
  exact_mod_cast h

end

section
variable {s : State} {i : Instr} {next : Word} {o : RmOperand}

/-- Where no segment override stands, the segment is the default of the form (R54). -/
theorem segmentFor_of_not_carries (h : ∀ g, ¬ Carries i (.seg g)) (dflt : Seg) :
    segmentFor i.prefixState dflt = dflt := by
  rw [segmentFor, segment_eq_none_of_carries h]
  rfl

/-- SS goes with ESP or RSP and EBP or RBP as base (R215, R254). -/
theorem segOfBase_regNum : ∀ (b : Bool) (f : BitVec 3),
    segOfBase (regNum b f) = if b = false ∧ (f = 4 ∨ f = 5) then .ss else .ds := by
  decide

/-! ## Address size 16 -/

/-- Outside 64-bit mode 67H exchanges the two address sizes (R140). -/
theorem addressSize_of_defAddrSize (hm : s.cfg.mode64 = false) {d : DefSize}
    (h : (if Carries i .addrSize then s.cfg.defAddrSize.other else s.cfg.defAddrSize) = d) :
    addressSize s.cfg i.prefixState = d.width := by
  rw [addressSize_of_not_mode64 hm, has67_eq, ← h]
  by_cases hc : Carries i .addrSize <;> simp [hc]

theorem effectiveAddress_of_w16 (hm : s.cfg.mode64 = false) {p : PrefixState} (ha : addressSize s.cfg p = .w16) :
    effectiveAddress s p next o = (segmentFor p (ea16 s o).1, (ea16 s o).2) := by
  simp [effectiveAddress, hm, ha]

/-- The registers of a 16-bit form, as an integer (R202, R203, R205). -/
def regs16 (s : State) (o : RmOperand) : Int :=
  let r (n : BitVec 4) : Int := ((s.gpr n).toNat % 2 ^ 16 : Nat)
  if o.rm = 0 then r 3 + r 6 else if o.rm = 1 then r 3 + r 7 else if o.rm = 2 then r 5 + r 6
  else if o.rm = 3 then r 5 + r 7 else if o.rm = 4 then r 6 else if o.rm = 5 then r 7
  else if o.rm = 6 then (if o.mod = 0 then 0 else r 5) else r 3

/-- The 16-bit sum of the registers of a form, register by register (R208). -/
theorem base16_modEq (s : State) (o : RmOperand) :
    ((base16 s o).toNat : Int) ≡ regs16 s o [ZMOD (2 ^ 16 : Nat)] := by
  have hreg : ∀ n, ((s.readReg n .w16).toNat : Int) ≡ ((s.gpr n).toNat % 2 ^ 16 : Nat) [ZMOD (2 ^ 16 : Nat)] :=
    fun n => by rw [State.readReg, BitVec.toNat_setWidth]
  have hsum : ∀ m n, ((s.readReg m .w16 + s.readReg n .w16).toNat : Int) ≡
      ((s.gpr m).toNat % 2 ^ 16 : Nat) + ((s.gpr n).toNat % 2 ^ 16 : Nat) [ZMOD (2 ^ 16 : Nat)] :=
    fun m n => toNat_add_modEq (Nat.dvd_refl _) (hreg m) (hreg n)
  have hform : ∀ f : BitVec 3, f = 0 ∨ f = 1 ∨ f = 2 ∨ f = 3 ∨ f = 4 ∨ f = 5 ∨ f = 6 ∨ f = 7 := by decide
  unfold base16 regs16
  rcases hform o.rm with h | h | h | h | h | h | h | h <;> rw [h]
  · exact hsum 3 6
  · exact hsum 3 7
  · exact hsum 5 6
  · exact hsum 5 7
  · exact hreg 6
  · exact hreg 7
  · by_cases hmod : o.mod = 0
    · simp [hmod]
    · simp only [beq_eq_false_iff_ne.2 hmod, hmod]
      exact hreg 5
  · exact hreg 3

/-- Settles O55: the 16-bit sum stands for the registers of the form and the displacement, modulo 2^16. -/
theorem effectiveAddress16 : Obligations.EffectiveAddress16 := by
  unfold Obligations.EffectiveAddress16
  intro s i next o hm hsize _ _ r regs e
  have he : e = (segmentFor i.prefixState (defaultSeg16 o), (base16 s o + o.disp.sext 16).setWidth 64) :=
    effectiveAddress_of_w16 hm (addressSize_of_defAddrSize hm hsize)
  rw [he]
  refine ⟨?_, fun hseg => ?_⟩
  · exact toNat_setWidth_eq_emod (by decide)
      (toNat_add_modEq (Nat.dvd_refl _) (base16_modEq s o) (disp_sext_modEq (Nat.dvd_refl _) o.disp))
  · rw [segmentFor_of_not_carries hseg]
    simp [defaultSeg16, or_assoc]

/-! ## Address size 32 outside 64-bit mode -/

/-- Without a SIB byte: base, unless the form has none, and displacement (R215, R216). -/
theorem ea32_of_sib_none (h : o.sib = none) (s : State) : ea32 s o =
    (if o.mod = 0 ∧ o.rm = 5 then .ds else segOfBase (regNum false o.rm),
      ((if o.mod = 0 ∧ o.rm = 5 then 0 else s.readReg (regNum false o.rm) .w32) + o.disp.sext 32).setWidth 64) := by
  simp only [ea32, h, Bool.and_eq_true, beq_iff_eq]
  by_cases hbase : o.mod = 0 ∧ o.rm = 5
  · simp only [if_pos hbase, zero_add]
  · simp only [if_neg hbase]

/-- With one: base and scaled index, unless the form has none, and displacement (R222 to R224). -/
theorem ea32_of_sib_some {b : Sib} (h : o.sib = some b) (s : State) : ea32 s o =
    (if b.base = 5 ∧ o.mod = 0 then .ds else segOfBase (regNum false b.base),
      ((if b.base = 5 ∧ o.mod = 0 then 0 else s.readReg (regNum false b.base) .w32) +
        (if b.index = 4 then 0 else s.readReg (regNum false b.index) .w32 <<< b.scale.toNat) +
        o.disp.sext 32).setWidth 64) := by
  simp only [ea32, h, Bool.and_eq_true, beq_iff_eq]
  by_cases hbase : b.base = 5 ∧ o.mod = 0
  · simp only [if_pos hbase, zero_add]
  · simp only [if_neg hbase]

/-- Without a SIB byte r/m is not 100B (R225). -/
theorem rm_ne_four_of_sib_none {a : Width} (ha : a ≠ .w16) (hmod : o.mod ≠ 3) (hshape : o.shapeOk a = true)
    (h : o.sib = none) : o.rm ≠ 4 := by
  intro hrm
  have hsib : o.sib.isSome = hasSib a o.mod o.rm := by simpa using (Bool.and_eq_true_iff.1 hshape).1
  rw [h, hrm, hasSib, bne_iff_ne.2 ha, bne_iff_ne.2 hmod] at hsib
  cases hsib

/-- Settles O56, with and without a SIB byte: each part of the 32-bit sum stands for an integer modulo 2^32. -/
theorem effectiveAddress32 : Obligations.EffectiveAddress32 := by
  unfold Obligations.EffectiveAddress32
  intro s i next o hm hsize hmod hshape r e
  have he : e = (segmentFor i.prefixState (ea32 s o).1, (ea32 s o).2) :=
    effectiveAddress_of_w32 hm (addressSize_of_defAddrSize hm hsize) next o
  have hreg : ∀ f, ((s.readReg (regNum false f) .w32).toNat : Int) ≡ r f [ZMOD (2 ^ 32 : Nat)] := fun f => by
    rw [State.readReg, BitVec.toNat_setWidth, regNum_false]
  have hdisp : ((o.disp.sext 32).toNat : Int) ≡ dispInt o.disp [ZMOD (2 ^ 32 : Nat)] :=
    disp_sext_modEq (Nat.dvd_refl _) o.disp
  have hzero : (((0 : BitVec 32).toNat : Nat) : Int) ≡ 0 [ZMOD (2 ^ 32 : Nat)] := rfl
  rw [he]
  cases hsib : o.sib with
  | none =>
    rw [ea32_of_sib_none hsib]
    refine ⟨toNat_setWidth_eq_emod (by decide)
      (toNat_add_modEq (Nat.dvd_refl _) (toNat_ite_modEq hzero (hreg o.rm)) hdisp), fun hseg => ?_⟩
    have hrm := rm_ne_four_of_sib_none (by decide) hmod hshape hsib
    rw [segmentFor_of_not_carries hseg, segOfBase_regNum]
    grind
  | some b =>
    rw [ea32_of_sib_some hsib]
    refine ⟨toNat_setWidth_eq_emod (by decide) (toNat_add_modEq (Nat.dvd_refl _) (toNat_add_modEq (Nat.dvd_refl _)
      (toNat_ite_modEq hzero (hreg b.base))
      (toNat_ite_modEq hzero (toNat_shiftLeft_modEq (Nat.dvd_refl _) (hreg b.index) _))) hdisp), fun hseg => ?_⟩
    rw [segmentFor_of_not_carries hseg, segOfBase_regNum]
    grind

/-! ## 64-bit mode -/

/-- The index number 0100B means that there is no index (R249). -/
theorem regNum_eq_four_iff : ∀ (x : Bool) (f : BitVec 3), regNum x f = 4 ↔ f = 4 ∧ x = false := by
  decide

/-- Without a SIB byte: base, or the next instruction's address, and displacement (R247, R256). -/
theorem ea64Sum_of_sib_none (h : o.sib = none) (s : State) (rex : Rex) (a : Width) (next : Word) :
    ea64Sum s rex a next o =
      (if o.mod = 0 ∧ o.rm = 5 then .ds else segOfBase (regNum rex.b o.rm),
        (if o.mod = 0 ∧ o.rm = 5 then next else addrReg s a (regNum rex.b o.rm)) + o.disp.sext 64) := by
  simp only [ea64Sum, h, Bool.and_eq_true, beq_iff_eq]
  by_cases hbase : o.mod = 0 ∧ o.rm = 5
  · simp only [if_pos hbase]
  · simp only [if_neg hbase]

/-- With one: base and scaled index, unless the form has none, and displacement (R248 to R252). -/
theorem ea64Sum_of_sib_some {b : Sib} (h : o.sib = some b) (s : State) (rex : Rex) (a : Width) (next : Word) :
    ea64Sum s rex a next o =
      (if b.base = 5 ∧ o.mod = 0 then .ds else segOfBase (regNum rex.b b.base),
        (if b.base = 5 ∧ o.mod = 0 then 0 else addrReg s a (regNum rex.b b.base)) +
          (if b.index = 4 ∧ rex.x = false then 0 else addrReg s a (regNum rex.x b.index) <<< b.scale.toNat) +
          o.disp.sext 64) := by
  simp only [ea64Sum, h, Bool.and_eq_true, beq_iff_eq, regNum_eq_four_iff]
  by_cases hbase : b.base = 5 ∧ o.mod = 0
  · simp only [if_pos hbase, zero_add]
  · simp only [if_neg hbase]

/-- The offset is the residue of the sum (R253, R260, R261). -/
theorem ea64_offset_eq_emod {rex : Rex} {a : Width} {x : Int}
    (h : ((ea64Sum s rex a next o).2.toNat : Int) ≡ x [ZMOD addrModulus a]) :
    ((ea64 s rex a next o).2.toNat : Int) = x % addrModulus a := by
  rw [ea64_offset_toNat, Int.natCast_mod]
  exact h

/-- Settles O57, with and without a SIB byte: the sum is one of 64 bits, whose parts stand for integers modulo the size
of an address, which divides 2^64. -/
theorem effectiveAddress64 : Obligations.EffectiveAddress64 := by
  unfold Obligations.EffectiveAddress64
  intro s i next o hm hmod hshape top rex r e
  have htop : top = addrModulus (addressSize s.cfg i.prefixState) := (addrModulus_addressSize hm i).symm
  have he : e = _ := effectiveAddress_of_mode64 hm i.prefixState next o
  have hdvd : top ∣ 2 ^ 64 := htop ▸ addrModulus_dvd _
  have hreg : ∀ x f, ((addrReg s (addressSize s.cfg i.prefixState) (regNum x f)).toNat : Int) ≡ r x f [ZMOD top] :=
    fun x f => by
      rw [addrReg_toNat, ← htop]
      rfl
  have hdisp : ((o.disp.sext 64).toNat : Int) ≡ dispInt o.disp [ZMOD top] := disp_sext_modEq hdvd o.disp
  have hzero : (((0 : Word).toNat : Nat) : Int) ≡ 0 [ZMOD top] := rfl
  rw [he]
  cases hsib : o.sib with
  | none =>
    refine ⟨?_, fun hseg => ?_⟩
    · rw [htop]
      refine ea64_offset_eq_emod ?_
      rw [← htop, ea64Sum_of_sib_none hsib]
      exact toNat_add_modEq hdvd (toNat_ite_modEq (Int.ModEq.refl _) (hreg rex.b o.rm)) hdisp
    · have hrm := rm_ne_four_of_sib_none (by split <;> decide) hmod hshape hsib
      rw [segmentFor_of_not_carries hseg, ea64, ea64Sum_of_sib_none hsib, segOfBase_regNum]
      grind
  | some b =>
    refine ⟨?_, fun hseg => ?_⟩
    · rw [htop]
      refine ea64_offset_eq_emod ?_
      rw [← htop, ea64Sum_of_sib_some hsib]
      exact toNat_add_modEq hdvd (toNat_add_modEq hdvd (toNat_ite_modEq hzero (hreg rex.b b.base))
        (toNat_ite_modEq hzero (toNat_shiftLeft_modEq hdvd (hreg rex.x b.index) _))) hdisp
    · rw [segmentFor_of_not_carries hseg, ea64, ea64Sum_of_sib_some hsib, segOfBase_regNum]
      grind

end

end Sys2Proof.Machine
end
